-- ==== Sys2Proof/Word.lean ====
section
/-! DEFINITION. The widths of 00_scope.md R11: a word is 32 bits with bit 31 the most significant, a byte is 8 bits,
every quantity is unsigned. -/

namespace Sys2Proof

/-- One record of the program store (R11, R62). -/
abbrev Word := BitVec 32

/-- One byte of a frame (R11). -/
abbrev Byte := BitVec 8

/-- A code on the two selector lines, MUX_A1 then MUX_A0 (R27). -/
abbrev MuxCode := BitVec 2

/-- A delay in milliseconds as the tables hold it (R217). -/
abbrev Millis := BitVec 16

/-- A frame: its bytes in the order they are sent (R65, R180). -/
abbrev Frame := List Byte

end Sys2Proof
end

