-- ==== Sys2Proof/Config.lean ====
section
/-! DEFINITION. What an implementation fixes: the build parameters of 00_scope.md R9, the profile as the structure of
42_program_table.md R180, and the free values of the model. -/

namespace Sys2Proof

/-- The five families, in the order of the source's enumeration (R182). -/
inductive DeviceFamily where
  | synthesizerA
  | synthesizerB
  | gainStageA
  | gainStageB
  | adc
deriving DecidableEq, Repr

/-- The label of a stage; it changes no operation (R141, R180, R189). -/
inductive StageKind where
  | singleLoad
  | provisionalLoad
  | finalLoad
deriving DecidableEq, Repr

/-- The four arguments of `configure`, passed through uninterpreted (R143, R180). -/
structure SpiConfig where
  clk  : BitVec 8
  cpol : Bool
  cpha : Bool
  lsbf : Bool
deriving DecidableEq, Repr

/-- A stage of a family's program (R180). -/
structure ProgramStage where
  kind   : StageKind
  frames : List Frame
  delay  : Option Millis
deriving DecidableEq, Repr

/-- What the profile fixes for one family (R180). `width` is in bytes; R187 asks that it is 3 or 4. -/
structure FamilyEntry where
  mux    : MuxCode
  width  : Nat
  line   : BitVec 2
  spi    : SpiConfig
  stages : List ProgramStage
deriving DecidableEq, Repr

/-- A profile (R180). `P.family` is held together with `P.order`, each family of the order beside its entry: the entry of a
family outside the order is never read (R181). -/
structure Profile where
  order : List (DeviceFamily × FamilyEntry)
  ifd   : Option Millis
deriving DecidableEq, Repr

/-- Granularity of bus ownership (R9, R151). -/
inductive AcqMode where
  | perStage
  | perFrame
deriving DecidableEq, Repr

/-- The build parameters of R9 that are not part of the profile; constant for the life of the hardware (R32). -/
structure Config where
  acqMode         : AcqMode
  selectorCanFail : Bool
  releaseOnAbort  : Bool
  romWords        : Nat
deriving DecidableEq, Repr

/-- The spec's defaults (R9): PerStage, the selector may fail, no release on abort, 1024 words. -/
def Config.default : Config :=
  { acqMode := .perStage, selectorCanFail := true, releaseOnAbort := false, romWords := 1024 }

/-- FREE VALUE. What the two selector lines hold when the spec leaves them unspecified: after reset (R39, R41) and after a
rejected SEL (R130). The argument numbers the draws, so that two draws are unrelated. Log 3. -/
opaque Config.freeMux : Nat → MuxCode

/-- Where a record stands in the grammar of 30_encoding.md R91; a frame place knows the W4 bit of its family (R92). -/
inductive Place where
  | hdr
  | fam
  | stg
  | frm (w4 : Bool)
  | endRec
deriving DecidableEq, Repr

/-- The reasons for which a store is refused, in the order of R100's table. -/
inductive RefuseReason where
  | badTag
  | reservedBits
  | reservedFid
  | reservedKind
  | delayWithoutEnable
  | tooManyFamilies
  | duplicateFamily
  | noStage
  | noFrame
  | kindPattern
  | pastEnd
deriving DecidableEq, Repr

/-- The number of a family in the `FAM` record (R182). -/
def DeviceFamily.number : DeviceFamily → BitVec 3
  | .synthesizerA => 0
  | .synthesizerB => 1
  | .gainStageA => 2
  | .gainStageB => 3
  | .adc => 4

/-- The synthetic frames of R195: frame `k` of stage `j` of family `f` is `[f, j, k, 0xA5]` cut to the width. -/
def placeholderFrames (f : DeviceFamily) (width j n : Nat) : List Frame :=
  (List.range n).map fun k =>
    [f.number.setWidth 8, BitVec.ofNat 8 j, BitVec.ofNat 8 k, (0xA5 : Byte)].take width

/-- One row of R195's table. -/
def placeholderEntry (f : DeviceFamily) (mux : MuxCode) (width : Nat) (stages : List (StageKind × Nat × Option Millis)) :
    DeviceFamily × FamilyEntry :=
  (f, { mux := mux, width := width, line := 0, spi := { clk := 0, cpol := false, cpha := false, lsbf := false },
        stages := stages.mapIdx fun j st =>
          { kind := st.1, frames := placeholderFrames f width j st.2.1, delay := st.2.2 } })

/-- The placeholder profile `P0` (R195), the spec's own; no rule depends on it. -/
def Profile.placeholder : Profile :=
  { order :=
      [ placeholderEntry .synthesizerA 0b00 4 [(.provisionalLoad, 11, none), (.finalLoad, 8, none)],
        placeholderEntry .synthesizerB 0b00 4 [(.provisionalLoad, 12, some 1), (.finalLoad, 5, none)],
        placeholderEntry .gainStageA 0b01 3 [(.singleLoad, 2, none)],
        placeholderEntry .gainStageB 0b01 3 [(.singleLoad, 2, none)],
        placeholderEntry .adc 0b10 3 [(.singleLoad, 2, none)] ],
    ifd := none }

end Sys2Proof
end

