-- ==== Sys2Proof/Syntax.lean ====
section
/-! DEFINITION. The records of the program store, one constructor per row of spec/opcode_table.json (30_encoding.md R90).
Operands are those of R99: a delay field with its enable bit is one optional value. -/

namespace Sys2Proof

/-- A decoded record. -/
inductive Instr where
  /-- `HDR` (R93): number of families, inter-family delay. -/
  | hdr (nfam : BitVec 4) (ifd : Option Millis)
  /-- `FAM` (R94): family, mux code, 4-byte frames or 3, chip-select line, bus settings, number of stages. -/
  | fam (fid : DeviceFamily) (mux : MuxCode) (w4 : Bool) (line : BitVec 2) (spi : SpiConfig) (nstg : BitVec 4)
  /-- `STG.SINGLE` (R95): number of frames, settle delay. -/
  | stgSingle (nfrm : BitVec 8) (delay : Option Millis)
  /-- `STG.PROV` (R95). -/
  | stgProv (nfrm : BitVec 8) (delay : Option Millis)
  /-- `STG.FINAL` (R95). -/
  | stgFinal (nfrm : BitVec 8) (delay : Option Millis)
  /-- `FRM3` (R97): three bytes, `b0` sent first. -/
  | frm3 (b0 b1 b2 : Byte)
  /-- `FRM4` (R96): four bytes, `b0` sent first. -/
  | frm4 (b0 b1 b2 b3 : Byte)
  /-- `END` (R98). -/
  | endRec
deriving DecidableEq, Repr

/-- The place of the grammar in which a record may stand (R91, R103). -/
def Instr.place : Instr → Place
  | .hdr _ _ => .hdr
  | .fam _ _ _ _ _ _ => .fam
  | .stgSingle _ _ => .stg
  | .stgProv _ _ => .stg
  | .stgFinal _ _ => .stg
  | .frm3 _ _ _ => .frm false
  | .frm4 _ _ _ _ => .frm true
  | .endRec => .endRec

end Sys2Proof
end

