-- ==== Sys2Proof/WellFormed.lean ====
section
/-! DEFINITION. Well-formedness of a record (the count checks of 30_encoding.md R100 that one word can meet) and of a profile
(42_program_table.md R186 to R189), and what the source fixes of the constants (R10, R194). All decidable. -/

namespace Sys2Proof

/-- At most five families (R93, R100 check 6). -/
def Instr.familiesOk : Instr → Bool
  | .hdr nfam _ => decide (nfam.toNat ≤ 5)
  | _ => true

/-- At least one stage (R94, R100 check 8). -/
def Instr.stagesOk : Instr → Bool
  | .fam _ _ _ _ _ nstg => decide (nstg ≠ 0)
  | _ => true

/-- At least one frame (R95, R100 check 9). -/
def Instr.framesOk : Instr → Bool
  | .stgSingle nfrm _ => decide (nfrm ≠ 0)
  | .stgProv nfrm _ => decide (nfrm ≠ 0)
  | .stgFinal nfrm _ => decide (nfrm ≠ 0)
  | _ => true

/-- A record with legal counts. Its other fields are legal by their types. -/
def Instr.wellFormed (i : Instr) : Bool := i.familiesOk && i.stagesOk && i.framesOk

/-- `OrderOk` (R186): no family twice. -/
def Profile.orderOk (p : Profile) : Bool := decide ((p.order.map Prod.fst).Nodup)

/-- Every frame has the family's width (R187). -/
def FamilyEntry.widthOk (e : FamilyEntry) : Bool :=
  (e.width == 3 || e.width == 4) && e.stages.all fun st => st.frames.all fun f => f.length == e.width

/-- `WidthOk` (R187). -/
def Profile.widthOk (p : Profile) : Bool := p.order.all fun fe => fe.2.widthOk

/-- 1 to 255 frames (R188). -/
def ProgramStage.countsOk (st : ProgramStage) : Bool := decide (1 ≤ st.frames.length ∧ st.frames.length ≤ 255)

/-- 1 to 15 stages, each with 1 to 255 frames (R188). -/
def FamilyEntry.countsOk (e : FamilyEntry) : Bool :=
  decide (1 ≤ e.stages.length ∧ e.stages.length ≤ 15) && e.stages.all ProgramStage.countsOk

/-- `CountsOk` (R188). The ranges of delays and lines are those of their types. -/
def Profile.countsOk (p : Profile) : Bool := p.order.all fun fe => fe.2.countsOk

/-- The kind that stage `j` of a family with `n` stages must have (R189). -/
def expectedKind (n j : Nat) : StageKind :=
  if n = 1 then .singleLoad else if j + 1 = n then .finalLoad else .provisionalLoad

/-- The kinds of one family's stages (R189). -/
def FamilyEntry.kindsOk (e : FamilyEntry) : Bool :=
  e.stages.map ProgramStage.kind == (List.range e.stages.length).map (expectedKind e.stages.length)

/-- `KindPattern` (R189). -/
def Profile.kindPattern (p : Profile) : Bool := p.order.all fun fe => fe.2.kindsOk

/-- A profile that has runs (R186 to R189). -/
def Profile.wellFormed (p : Profile) : Bool := p.orderOk && p.widthOk && p.countsOk && p.kindPattern

/-- What R194 fixes for one family: frames per stage, and the delay after stage 0. -/
def FamilyEntry.meetsSource (f : DeviceFamily) (e : FamilyEntry) : Bool :=
  match f, e.stages with
  | .synthesizerA, [s0, s1] =>
      s0.frames.length == 11 && s1.frames.length == 8 && decide (s0.delay = none ∨ s0.delay = some 0)
  | .synthesizerB, [s0, s1] =>
      s0.frames.length == 12 && s1.frames.length == 5 &&
        (match s0.delay with
         | some d => decide (1 ≤ d.toNat)
         | none => false)
  | .synthesizerA, _ => false
  | .synthesizerB, _ => false
  | .gainStageA, _ => true
  | .gainStageB, _ => true
  | .adc, _ => true

/-- The constants the source fixes and a table may not vary (R10, R194). No rule of the core depends on it. -/
def Profile.meetsSource (p : Profile) : Bool := p.order.all fun fe => fe.2.meetsSource fe.1

end Sys2Proof
end

