-- ==== Sys2Proof/Decode.lean ====
section
/-! DEFINITION. The binary form of the program store, 30_encoding.md: fields, the decoder of one record by its place, the
encoder, the addresses of the records (R104), the check of a whole store (R100), and store and profile into each other
(R99, R102). A store is read through a function `rd` from word address to word. -/

namespace Sys2Proof

/-! ### Fields -/

/-- `w[lo+len-1 : lo]` (R11). -/
def slice (w : Word) (lo len : Nat) : BitVec len := w.extractLsb' lo len

/-- `w[n]` (R11). -/
def bitOf (w : Word) (n : Nat) : Bool := w.getLsbD n

def tagOf (w : Word) : BitVec 4 := slice w 28 4

/-- An optional delay from its enable bit and its value (R99). -/
def delayOf (en : Bool) (ms : Millis) : Option Millis := if en then some ms else none

def hdrNfam (w : Word) : BitVec 4 := slice w 24 4
def hdrZero (w : Word) : BitVec 7 := slice w 16 7
def hdrIfdEn (w : Word) : Bool := bitOf w 23
def hdrIfdMs (w : Word) : Millis := slice w 0 16
def hdrIfd (w : Word) : Option Millis := delayOf (hdrIfdEn w) (hdrIfdMs w)

def famFid (w : Word) : BitVec 3 := slice w 25 3
def famMux (w : Word) : MuxCode := slice w 23 2
def famW4 (w : Word) : Bool := bitOf w 22
def famLine (w : Word) : BitVec 2 := slice w 20 2
def famSpi (w : Word) : SpiConfig :=
  { clk := slice w 8 8, cpol := bitOf w 19, cpha := bitOf w 18, lsbf := bitOf w 17 }
def famNstg (w : Word) : BitVec 4 := slice w 0 4

def stgKind (w : Word) : BitVec 2 := slice w 26 2
def stgDlyEn (w : Word) : Bool := bitOf w 25
def stgNfrm (w : Word) : BitVec 8 := slice w 16 8
def stgDlyMs (w : Word) : Millis := slice w 0 16
def stgDelay (w : Word) : Option Millis := delayOf (stgDlyEn w) (stgDlyMs w)

/-- Byte `n` of a frame word, `w[31-8n : 24-8n]` (R67). -/
def frameByte (w : Word) (n : Nat) : Byte := slice w (24 - 8 * n) 8

/-- The bytes of a frame word, in the order they are sent (R144): three, or four under W4. -/
def frameBytes (w4 : Bool) (w : Word) : Frame :=
  if w4 then [frameByte w 0, frameByte w 1, frameByte w 2, frameByte w 3]
  else [frameByte w 0, frameByte w 1, frameByte w 2]

/-! ### Codes -/

/-- FID to family; 5 to 7 are reserved (R94). -/
def familyOfCode (c : BitVec 3) : Option DeviceFamily :=
  if c = 0 then some .synthesizerA
  else if c = 1 then some .synthesizerB
  else if c = 2 then some .gainStageA
  else if c = 3 then some .gainStageB
  else if c = 4 then some .adc
  else none

/-- KIND to stage kind; 3 is reserved (R95). -/
def kindOfCode (c : BitVec 2) : Option StageKind :=
  if c = 0 then some .singleLoad
  else if c = 1 then some .provisionalLoad
  else if c = 2 then some .finalLoad
  else none

/-- The stage record of a kind. -/
def stageRecord (kind : StageKind) (nfrm : BitVec 8) (delay : Option Millis) : Instr :=
  match kind with
  | .singleLoad => .stgSingle nfrm delay
  | .provisionalLoad => .stgProv nfrm delay
  | .finalLoad => .stgFinal nfrm delay

/-! ### Decoding one word by its place (R92 to R100, checks 1 to 5) -/

def decodeHdr (w : Word) : Except RefuseReason Instr :=
  if tagOf w ≠ 1 then .error .badTag
  else if hdrZero w ≠ 0 then .error .reservedBits
  else if hdrIfdEn w = false ∧ hdrIfdMs w ≠ 0 then .error .delayWithoutEnable
  else .ok (.hdr (hdrNfam w) (hdrIfd w))

def decodeFam (w : Word) : Except RefuseReason Instr :=
  if tagOf w ≠ 2 then .error .badTag
  else if bitOf w 16 = true ∨ slice w 4 4 ≠ 0 then .error .reservedBits
  else match familyOfCode (famFid w) with
    | none => .error .reservedFid
    | some f => .ok (.fam f (famMux w) (famW4 w) (famLine w) (famSpi w) (famNstg w))

def decodeStg (w : Word) : Except RefuseReason Instr :=
  if tagOf w ≠ 3 then .error .badTag
  else if bitOf w 24 = true then .error .reservedBits
  else match kindOfCode (stgKind w) with
    | none => .error .reservedKind
    | some kd =>
      if stgDlyEn w = false ∧ stgDlyMs w ≠ 0 then .error .delayWithoutEnable
      else .ok (stageRecord kd (stgNfrm w) (stgDelay w))

/-- A frame word: every word is a legal `FRM4`, a `FRM3` has a zero low byte (R96, R97). -/
def decodeFrm (w4 : Bool) (w : Word) : Except RefuseReason Instr :=
  if w4 then .ok (.frm4 (frameByte w 0) (frameByte w 1) (frameByte w 2) (frameByte w 3))
  else if frameByte w 3 ≠ 0 then .error .reservedBits
  else .ok (.frm3 (frameByte w 0) (frameByte w 1) (frameByte w 2))

def decodeEnd (w : Word) : Except RefuseReason Instr :=
  if w = 0xF0000000 then .ok .endRec else .error .badTag

/-- The record that word `w` is in place `p`, or why it is refused. Total. -/
def decodeAt (p : Place) (w : Word) : Except RefuseReason Instr :=
  match p with
  | .hdr => decodeHdr w
  | .fam => decodeFam w
  | .stg => decodeStg w
  | .frm w4 => decodeFrm w4 w
  | .endRec => decodeEnd w

/-! ### Encoding (R93 to R98, R102) -/

/-- Enable bit and value of an optional delay: a disabled delay field is 0 (R102). -/
def delayEn (d : Option Millis) : BitVec 1 := BitVec.ofBool d.isSome
def delayMs (d : Option Millis) : Millis := d.getD 0

def encodeHdr (nfam : BitVec 4) (ifd : Option Millis) : Word :=
  (0b0001#4 ++ nfam ++ delayEn ifd ++ 0#7 ++ delayMs ifd : BitVec 32)

def encodeFam (fid : DeviceFamily) (mux : MuxCode) (w4 : Bool) (line : BitVec 2) (spi : SpiConfig) (nstg : BitVec 4) : Word :=
  (0b0010#4 ++ fid.number ++ mux ++ BitVec.ofBool w4 ++ line ++ BitVec.ofBool spi.cpol ++ BitVec.ofBool spi.cpha
    ++ BitVec.ofBool spi.lsbf ++ 0#1 ++ spi.clk ++ 0#4 ++ nstg : BitVec 32)

def encodeStg (kind : BitVec 2) (nfrm : BitVec 8) (delay : Option Millis) : Word :=
  (0b0011#4 ++ kind ++ delayEn delay ++ 0#1 ++ nfrm ++ delayMs delay : BitVec 32)

/-- The word of a record. -/
def encode : Instr → Word
  | .hdr nfam ifd => encodeHdr nfam ifd
  | .fam fid mux w4 line spi nstg => encodeFam fid mux w4 line spi nstg
  | .stgSingle nfrm delay => encodeStg 0 nfrm delay
  | .stgProv nfrm delay => encodeStg 1 nfrm delay
  | .stgFinal nfrm delay => encodeStg 2 nfrm delay
  | .frm3 b0 b1 b2 => (b0 ++ b1 ++ b2 ++ 0#8 : BitVec 32)
  | .frm4 b0 b1 b2 b3 => (b0 ++ b1 ++ b2 ++ b3 : BitVec 32)
  | .endRec => 0xF0000000

/-- Mask and match of R103. -/
def maskOf : Instr → Word × Word
  | .hdr _ _ => (0xF07F0000, 0x10000000)
  | .fam _ _ _ _ _ _ => (0xF00100F0, 0x20000000)
  | .stgSingle _ _ => (0xFD000000, 0x30000000)
  | .stgProv _ _ => (0xFD000000, 0x34000000)
  | .stgFinal _ _ => (0xFD000000, 0x38000000)
  | .frm3 _ _ _ => (0x000000FF, 0x00000000)
  | .frm4 _ _ _ _ => (0x00000000, 0x00000000)
  | .endRec => (0xFFFFFFFF, 0xF0000000)

/-! ### A word whose place is not given

The table's rows overlap (a frame word carries no tag, R92), so a lone word does not say its place. The order is: the places
whose records carry a tag, where the word is legal there; then FRM3; then FRM4, which every word fits. Log 16. -/

def legalIn (p : Place) (w : Word) : Bool :=
  match decodeAt p w with
  | .ok _ => true
  | .error _ => false

def tablePlace (w : Word) : Place :=
  if legalIn .hdr w then .hdr
  else if legalIn .fam w then .fam
  else if legalIn .stg w then .stg
  else if legalIn .endRec w then .endRec
  else if legalIn (.frm false) w then .frm false
  else .frm true

/-- The record read from the 32-bit table word `w`; no record has another length (R90). -/
def decodeTableWord (nbits w : Nat) : Option Instr :=
  if nbits = 32 ∧ w < 2 ^ 32 then (decodeAt (tablePlace (BitVec.ofNat 32 w)) (BitVec.ofNat 32 w)).toOption else none

/-! ### Addresses (R104) -/

/-- Number of families of the store (NORD, R140). -/
def storeNord (rd : Nat → Word) : Nat := (hdrNfam (rd 0)).toNat

/-- The address after the stage record at `a` and its frames. -/
def afterStage (rd : Nat → Word) (a : Nat) : Nat := a + 1 + (stgNfrm (rd a)).toNat

/-- The address of stage `j`, the first stage standing at `a`. -/
def stageFrom (rd : Nat → Word) (a : Nat) : Nat → Nat
  | 0 => a
  | j + 1 => afterStage rd (stageFrom rd a j)

/-- The address after the family record at `a` with all its stages. -/
def afterFamily (rd : Nat → Word) (a : Nat) : Nat := stageFrom rd (a + 1) (famNstg (rd a)).toNat

/-- `base(i)`: the address of the `FAM` of family index `i`. -/
def famAddr (rd : Nat → Word) : Nat → Nat
  | 0 => 1
  | i + 1 => afterFamily rd (famAddr rd i)

/-- The address of the `STG` of stage `(i, j)`. -/
def stgAddr (rd : Nat → Word) (i j : Nat) : Nat := stageFrom rd (famAddr rd i + 1) j

/-- The address of frame `(i, j, k)`. -/
def frmAddr (rd : Nat → Word) (i j k : Nat) : Nat := stgAddr rd i j + 1 + k

/-- The address of `END`: `base(NORD)`. -/
def endAddr (rd : Nat → Word) : Nat := famAddr rd (storeNord rd)

/-! ### Look-ups in a store (R99, R181) -/

def storeIfd (rd : Nat → Word) : Option Millis := hdrIfd (rd 0)
def storeFam (rd : Nat → Word) (i : Nat) : Word := rd (famAddr rd i)
def storeNstg (rd : Nat → Word) (i : Nat) : Nat := (famNstg (storeFam rd i)).toNat
def storeStg (rd : Nat → Word) (i j : Nat) : Word := rd (stgAddr rd i j)
def storeNfrm (rd : Nat → Word) (i j : Nat) : Nat := (stgNfrm (storeStg rd i j)).toNat
def storeDelay (rd : Nat → Word) (i j : Nat) : Option Millis := stgDelay (storeStg rd i j)
def storeFrame (rd : Nat → Word) (i j k : Nat) : Frame :=
  frameBytes (famW4 (storeFam rd i)) (rd (frmAddr rd i j k))

/-! ### Checking a store (R100)

Read in store order; the first address with a defect is named, and there the first reason in R100's order. Log 8. -/

/-- Why the word in place `p` is refused by itself, if it is. -/
def wordCheck (p : Place) (w : Word) : Option RefuseReason :=
  match decodeAt p w with
  | .ok _ => none
  | .error r => some r

/-- `none` where `b` holds, else the reason. -/
def orReason (b : Bool) (r : RefuseReason) : Option RefuseReason := if b then none else some r

def hdrCheck (rd : Nat → Word) : Option RefuseReason :=
  (wordCheck .hdr (rd 0)).or (orReason (decide (storeNord rd ≤ 5)) .tooManyFamilies)

def famCheck (rd : Nat → Word) (i : Nat) : Option RefuseReason :=
  ((wordCheck .fam (storeFam rd i)).or
    (orReason ((List.range i).all fun x => famFid (storeFam rd x) != famFid (storeFam rd i)) .duplicateFamily)).or
    (orReason (decide (1 ≤ storeNstg rd i)) .noStage)

def stgCheck (rd : Nat → Word) (i j : Nat) : Option RefuseReason :=
  ((wordCheck .stg (storeStg rd i j)).or
    (orReason (decide (1 ≤ storeNfrm rd i j)) .noFrame)).or
    (orReason (kindOfCode (stgKind (storeStg rd i j)) == some (expectedKind (storeNstg rd i) j)) .kindPattern)

def frmCheck (rd : Nat → Word) (i j k : Nat) : Option RefuseReason :=
  wordCheck (.frm (famW4 (storeFam rd i))) (rd (frmAddr rd i j k))

/-- The check of the word at address `a`: first that it exists (`PastEnd`), then its own. -/
def checkAt (depth a : Nat) (r : Option RefuseReason) : Option (Nat × RefuseReason) :=
  if depth ≤ a then some (a, .pastEnd) else r.map fun x => (a, x)

def checkStage (rd : Nat → Word) (depth i j : Nat) : Option (Nat × RefuseReason) :=
  (checkAt depth (stgAddr rd i j) (stgCheck rd i j)).or
    ((List.range (storeNfrm rd i j)).findSome? fun k => checkAt depth (frmAddr rd i j k) (frmCheck rd i j k))

def checkFamily (rd : Nat → Word) (depth i : Nat) : Option (Nat × RefuseReason) :=
  (checkAt depth (famAddr rd i) (famCheck rd i)).or
    ((List.range (storeNstg rd i)).findSome? fun j => checkStage rd depth i j)

/-- The first defect of the store of `depth` words, or `none` where the store is accepted. -/
def storeCheck (rd : Nat → Word) (depth : Nat) : Option (Nat × RefuseReason) :=
  ((checkAt depth 0 (hdrCheck rd)).or
    ((List.range (storeNord rd)).findSome? fun i => checkFamily rd depth i)).or
    (checkAt depth (endAddr rd) (wordCheck .endRec (rd (endAddr rd))))

/-! ### Store to profile and back (R99, R102) -/

def stageOf (rd : Nat → Word) (i j : Nat) : ProgramStage :=
  { kind := (kindOfCode (stgKind (storeStg rd i j))).getD .singleLoad
    frames := (List.range (storeNfrm rd i j)).map (storeFrame rd i j)
    delay := storeDelay rd i j }

def entryOf (rd : Nat → Word) (i : Nat) : FamilyEntry :=
  { mux := famMux (storeFam rd i)
    width := if famW4 (storeFam rd i) then 4 else 3
    line := famLine (storeFam rd i)
    spi := famSpi (storeFam rd i)
    stages := (List.range (storeNstg rd i)).map (stageOf rd i) }

/-- The profile that the fields of a store spell (R99). -/
def profileOf (rd : Nat → Word) : Profile :=
  { order := (List.range (storeNord rd)).map fun i =>
      ((familyOfCode (famFid (storeFam rd i))).getD .synthesizerA, entryOf rd i)
    ifd := storeIfd rd }

/-- The decoder of R100: a profile, or the address and the reason of the refusal. Total. -/
def decodeStore (rd : Nat → Word) (depth : Nat) : Except (Nat × RefuseReason) Profile :=
  match storeCheck rd depth with
  | some e => .error e
  | none => .ok (profileOf rd)

/-- The word of a frame of 3 or 4 bytes (R96, R97). Another length is ill-formed (R187) and has no word in the spec; the 0 there
is a DESIGN CHOICE, log 21. -/
def frameWord : Frame → Word
  | [b0, b1, b2] => encode (.frm3 b0 b1 b2)
  | [b0, b1, b2, b3] => encode (.frm4 b0 b1 b2 b3)
  | _ => 0

def stageWords (st : ProgramStage) : List Word :=
  encode (stageRecord st.kind (BitVec.ofNat 8 st.frames.length) st.delay) :: st.frames.map frameWord

def familyWords (f : DeviceFamily) (e : FamilyEntry) : List Word :=
  encode (.fam f e.mux (e.width == 4) e.line e.spi (BitVec.ofNat 4 e.stages.length)) :: e.stages.flatMap stageWords

/-- `encode(P)` of R102: HDR, the families, END. The spec defines it for well-formed profiles only. What it gives for another
(counts cut to their fields, a width that is not 4 as W4 = 0, a frame word by the frame's own length) is a DESIGN CHOICE,
log 21; `buildStore` refuses those. -/
def encodeProfile (p : Profile) : List Word :=
  encode (.hdr (BitVec.ofNat 4 p.order.length) p.ifd)
    :: (p.order.flatMap fun fe => familyWords fe.1 fe.2) ++ [encode .endRec]

/-- The store of a profile for hardware of `depth` words. An ill-formed profile "is refused before any run" (R68, R187), and so
is one that does not fit (R102). -/
def buildStore (p : Profile) (depth : Nat) : Option (List Word) :=
  if p.wellFormed = true ∧ (encodeProfile p).length ≤ depth then some (encodeProfile p) else none

/-- The store that holds the words of a list from address 0. -/
def readList (ws : List Word) (a : Nat) : Word := ws.getD a 0

end Sys2Proof
end

