-- ==== Sys2Proof/Machine/State.lean ====
section
/-! DEFINITION. The state of the machine (10_state.md R37), the bookkeeping the spec gives the model (R33, R34), the constants
it gives as parameters (R32), the inputs of a step, and the reasons for which a step has no next state. -/

namespace Sys2Proof.Machine

/-- The ten phases (R22, R23). Codes 9 to 14 are never held. -/
inductive Phase where
  | idle
  | selecting
  | acquiring
  | configuring
  | framing
  | releasing
  | settling
  | fsettling
  | done
  | fatal
deriving DecidableEq, Repr

/-- `S.cause` (R29): none, or one of the three fatal causes (R230). -/
inductive Cause where
  | noCause
  | transportFailure
  | selectorFailure
  | timingFailure
deriving DecidableEq, Repr

/-- A collaborator's response to the outstanding operation, with the time `dt` in ms the operation took (R33, R34). -/
inductive Response where
  /-- SEL, CFG, XFER and REL done. -/
  | ok (dt : Nat)
  /-- ACQ granted. -/
  | granted (dt : Nat)
  /-- SEL rejected by the GPIO platform. -/
  | rejected (dt : Nat)
  /-- XFER or SLP failed. -/
  | fail (dt : Nat)
  /-- SLP over. -/
  | elapsed (dt : Nat)
deriving DecidableEq, Repr

/-- The response as an event records it (R33). -/
inductive Answer where
  | ok
  | rejected
  | fail
  | elapsed
deriving DecidableEq, Repr

/-- An event record (R33). -/
inductive Event where
  | sel (code : MuxCode) (r : Answer)
  | acq
  | cfg (spi : SpiConfig)
  | xfer (line : BitVec 2) (bytes : Frame) (r : Answer)
  | rel
  | slp (d : Millis) (r : Answer)
deriving DecidableEq, Repr

/-- An event with the time at which its response arrived (R33). -/
structure TraceEntry where
  event : Event
  time  : Nat
deriving DecidableEq, Repr

/-- A request of the core to a collaborator (R12 `req`, R22). -/
inductive Operation where
  | sel (code : MuxCode)
  | acq
  | cfg (spi : SpiConfig)
  | xfer (line : BitVec 2) (bytes : Frame)
  | rel
  | slp (d : Millis)
deriving DecidableEq, Repr

/-- What arrives from outside in one step: the two inputs that are not responses (R156), and at most one response (R242). -/
structure Arrival where
  reset : Bool
  start : Bool
  resp  : Option Response
deriving DecidableEq, Repr

/-- A step in which nothing arrives. -/
def Arrival.nothing : Arrival := { reset := false, start := false, resp := none }

/-- The program store: its bytes, word `a` at addresses `4a` to `4a+3` with byte 0 (bits [31:24]) first. Canonical: addresses
strictly rising, no entry equal to what an unlisted address reads as. Log 4. -/
abbrev Memory := List Host.Cell

/-- Why the machine stops. -/
inductive Fault where
  /-- Raised by the fetch when the address of the record is at or above ROM_WORDS: no such word exists (R62). Safe: a store
  that the check of R100 accepts has no such record, so no run from reset ends so. -/
  | noSuchWord (address : Nat)
deriving DecidableEq, Repr

/-- Why a step has no meaning. -/
inductive Refusal where
  /-- Raised by exec's arms for an instruction without a meaning. Safe. No arm is left so. -/
  | notModelled (mnemonic : String)
  /-- Raised by START when the store is refused, and by the fetch when the word there is no record of its place: "A refused
  store has no run" (R100, R244). Safe. -/
  | storeRefused (address : Nat) (reason : RefuseReason)
  /-- Raised by an operation when the response is one its collaborator may not give: of another operation, `rejected` where
  the selector cannot fail (R130), or `elapsed` before the delay is over (R213: "a model does not admit it"). Safe. Log 9. -/
  | responseNotAdmitted (phase : Phase) (response : Response)
  /-- Raised by a meaning applied in a phase that is not its record's; the fetch never does so. Safe. Log 11. -/
  | outOfPlace (phase : Phase)
  /-- Raised by SLP in a settle phase whose record declares no delay; those phases are entered only with one (R146, R148).
  Safe. Log 11. -/
  | noDelayDeclared (phase : Phase)
deriving DecidableEq, Repr

/-- The state of the core. `phase` to `cause` are the spec's 24 bits (R37). -/
structure CoreState where
  phase    : Phase
  i        : BitVec 3
  j        : BitVec 4
  k        : BitVec 8
  mux      : MuxCode
  busOwned : Bool
  cause    : Cause
  /-- Bookkeeping: the events, oldest first (R33). -/
  trace    : List TraceEntry
  /-- Bookkeeping: the time in ms (R34). -/
  now      : Nat
  /-- The model's own: the number of free selector values drawn. Log 3. -/
  draws    : Nat
deriving DecidableEq, Repr

/-- What is constant for the life of the hardware: parameters of the step relation and no state of the core (R32, R61). -/
structure Parameters where
  /-- The build parameters. -/
  cfg : Config
  /-- The content of the program store. -/
  rom : Memory
deriving DecidableEq, Repr

/-- What the host's interface runs: the core's state, bundled with the parameters and the inputs that the step relation
(`coreStep`) takes beside it. Log 1, log 6. -/
structure State extends CoreState, Parameters where
  /-- What still arrives, one entry a step, oldest first. Log 1. -/
  arrivals : List Arrival
deriving DecidableEq, Repr

/-- What a meaning or a step answers. -/
abbrev Result := Host.Outcome State Fault Refusal

/-- The core right after reset (R39). The selector lines hold a free value (R41). -/
def CoreState.reset : CoreState :=
  { phase := .idle, i := 0, j := 0, k := 0, mux := Config.freeMux 0, busOwned := false, cause := .noCause
    trace := [], now := 0, draws := 1 }

/-- The core right after reset on hardware with any parameters; nothing arrives. -/
def State.resetWith (p : Parameters) : State :=
  { toCoreState := CoreState.reset, toParameters := p, arrivals := [] }

/-- Right after reset on the hardware that the host's interface starts: the spec's default parameters (R9), nothing in the
store. Log 6. -/
def State.reset : State := State.resetWith { cfg := Config.default, rom := [] }

end Sys2Proof.Machine
end

