-- ==== Sys2Proof/Machine/Memory.lean ====
section
/-! DEFINITION. The program store as memory: reading, and loading from outside (the core never writes it, 20_memory.md R61,
R78). -/

namespace Sys2Proof.Machine

/-- What a byte that nothing was loaded into reads as. DESIGN CHOICE, log 5. -/
def Memory.unlisted (_ : Nat) : Byte := 0

/-- The canonical form: addresses strictly rising, no entry that an unlisted address would read as. -/
def Memory.wf : Memory → Bool
  | [] => true
  | (a, v) :: m => decide (v ≠ Memory.unlisted a) && (m.all fun c => decide (a < c.1)) && Memory.wf m

def Memory.read : Memory → Nat → Byte
  | [], a => Memory.unlisted a
  | (b, v) :: m, a => if b = a then v else Memory.read m a

/-- Put `v` at `a`, keeping the canonical form. -/
def Memory.write : Memory → Nat → Byte → Memory
  | [], a, v => if v = Memory.unlisted a then [] else [(a, v)]
  | (b, x) :: m, a, v =>
    if a < b then (if v = Memory.unlisted a then (b, x) :: m else (a, v) :: (b, x) :: m)
    else if a = b then (if v = Memory.unlisted a then m else (a, v) :: m)
    else (b, x) :: Memory.write m a v

/-- `RomRead(a)` (R12): the word at word address `a`; byte 0 is bits [31:24] (R67). -/
def Memory.readWord (m : Memory) (a : Nat) : Word :=
  (m.read (4 * a) ++ m.read (4 * a + 1) ++ m.read (4 * a + 2) ++ m.read (4 * a + 3) : BitVec 32)

def Memory.writeWord (m : Memory) (a : Nat) (w : Word) : Memory :=
  (((m.write (4 * a) (frameByte w 0)).write (4 * a + 1) (frameByte w 1)).write (4 * a + 2) (frameByte w 2)).write
    (4 * a + 3) (frameByte w 3)

/-- The words of a list at word addresses `a`, `a+1`, … -/
def Memory.loadWords (m : Memory) (a : Nat) : List Word → Memory
  | [] => m
  | w :: ws => Memory.loadWords (m.writeWord a w) (a + 1) ws

/-- A store built outside and put in place before reset is released (R275 item 4). Log 15. -/
def State.loadStore (s : State) (ws : List Word) : State := { s with rom := s.rom.loadWords 0 ws }

end Sys2Proof.Machine
end

