-- ==== Sys2Proof/Machine/Operands.lean ====
section
/-! DEFINITION. Operands: the look-ups of 42_program_table.md R181 at the machine's position, read from the program store at
the addresses of 30_encoding.md R104; and the position's own fetch address. -/

namespace Sys2Proof.Machine

/-- The word of the store at a word address. -/
def State.word (s : State) (a : Nat) : Word := s.rom.readWord a

/-- NORD. -/
def State.nord (s : State) : Nat := storeNord s.word
/-- NSTG(S.i). -/
def State.nstg (s : State) : Nat := storeNstg s.word s.i.toNat
/-- NFRM(S.i, S.j). -/
def State.nfrm (s : State) : Nat := storeNfrm s.word s.i.toNat s.j.toNat
/-- P.ifd. -/
def State.ifd (s : State) : Option Millis := storeIfd s.word
/-- stg(S.i, S.j).delay. -/
def State.delay (s : State) : Option Millis := storeDelay s.word s.i.toNat s.j.toNat
/-- F(S.i).mux. -/
def State.famMux (s : State) : MuxCode := Sys2Proof.famMux (storeFam s.word s.i.toNat)
/-- F(S.i).line. -/
def State.famLine (s : State) : BitVec 2 := Sys2Proof.famLine (storeFam s.word s.i.toNat)
/-- F(S.i).spi. -/
def State.famSpi (s : State) : SpiConfig := Sys2Proof.famSpi (storeFam s.word s.i.toNat)
/-- W4 of F(S.i). -/
def State.famW4 (s : State) : Bool := Sys2Proof.famW4 (storeFam s.word s.i.toNat)
/-- frm(S.i, S.j, S.k). -/
def State.frame (s : State) : Frame := storeFrame s.word s.i.toNat s.j.toNat s.k.toNat

/-- The place of the record that the phase works on (R22, and the `Encoding` line of each operation's rule); none in FATAL.
DEDUCED, log 17. -/
def State.place (s : State) : Option Place :=
  match s.phase with
  | .idle => some .hdr
  | .selecting => some .fam
  | .acquiring => some .stg
  | .configuring => some .stg
  | .framing => some (.frm s.famW4)
  | .releasing => some .stg
  | .settling => some .stg
  | .fsettling => some .hdr
  | .done => some .endRec
  | .fatal => none

/-- The fetch address `pp`, a function of phase and position (R21, R104). -/
def State.pp (s : State) : Nat :=
  match s.phase with
  | .idle => 0
  | .selecting => famAddr s.word s.i.toNat
  | .acquiring => stgAddr s.word s.i.toNat s.j.toNat
  | .configuring => stgAddr s.word s.i.toNat s.j.toNat
  | .framing => frmAddr s.word s.i.toNat s.j.toNat s.k.toNat
  | .releasing => stgAddr s.word s.i.toNat s.j.toNat
  | .settling => stgAddr s.word s.i.toNat s.j.toNat
  | .fsettling => 0
  | .done => endAddr s.word
  | .fatal => 0

end Sys2Proof.Machine
end

