-- ==== Sys2Proof/Machine/Flags.lean ====
section
/-! DEFINITION. What the outside can see of the core: the outputs `done` and `fatal` (10_state.md R30), the STATUS view (R31)
and the outstanding operation (R22, R36). None is storage. -/

namespace Sys2Proof.Machine

/-- The 4-bit codes of R22. -/
def Phase.code : Phase → BitVec 4
  | .idle => 0
  | .selecting => 1
  | .acquiring => 2
  | .configuring => 3
  | .framing => 4
  | .releasing => 5
  | .settling => 6
  | .fsettling => 7
  | .done => 8
  | .fatal => 15

/-- The 2-bit codes of R29. -/
def Cause.code : Cause → BitVec 2
  | .noCause => 0
  | .transportFailure => 1
  | .selectorFailure => 2
  | .timingFailure => 3

/-- `done` (R30). -/
def State.done (s : State) : Bool := decide (s.phase = .done)

/-- `fatal` (R30). -/
def State.fatal (s : State) : Bool := decide (s.phase = .fatal)

/-- STATUS (R31): zero, K, J, I, MUX, OWN, CAUSE, PHASE from the top. -/
def State.status (s : State) : Word :=
  (0#8 ++ s.k ++ s.j ++ s.i ++ s.mux ++ BitVec.ofBool s.busOwned ++ s.cause.code ++ s.phase.code : BitVec 32)

/-- The request that the phase has outstanding, with its payload (R22). -/
def State.outstanding (s : State) : Option Operation :=
  match s.phase with
  | .idle => none
  | .selecting => some (.sel s.famMux)
  | .acquiring => some .acq
  | .configuring => some (.cfg s.famSpi)
  | .framing => some (.xfer s.famLine s.frame)
  | .releasing => some .rel
  | .settling => s.delay.map .slp
  | .fsettling => s.ifd.map .slp
  | .done => none
  | .fatal => none

/-- The operation an event records. -/
def Event.operation : Event → Operation
  | .sel code _ => .sel code
  | .acq => .acq
  | .cfg spi => .cfg spi
  | .xfer line bytes _ => .xfer line bytes
  | .rel => .rel
  | .slp d _ => .slp d

end Sys2Proof.Machine
end

