-- ==== Sys2Proof/Machine/Ops.lean ====
section
/-! DEFINITION. The shared operations: taking an input, recording an event, entering FATAL (60_exceptions.md R234) and leaving
it by reset (70_reset_and_hazards.md R270), and the moves of the position (41_sequencer.md R146 to R149). -/

namespace Sys2Proof.Machine

/-! ### Inputs -/

/-- What arrives in this step; nothing once the list is empty. Log 2. -/
def State.arrival (s : State) : Arrival := s.arrivals.headD Arrival.nothing

/-- The step's arrival is used up. -/
def State.consume (s : State) : State := { s with arrivals := s.arrivals.tail }

/-- Wait for the response of the outstanding operation: without one the core stays as it is (R13, R286). -/
def awaitResponse (s : State) (k : Response → Result) : Result :=
  match s.arrival.resp with
  | none => .next s.consume
  | some r => k r

/-- The response is not one that the collaborator may give. Log 9. -/
def notAdmitted (s : State) (r : Response) : Result := .refused (.responseNotAdmitted s.phase r)

/-- A meaning applies only in its record's phase. Log 11. -/
def inPhase (p : Phase) (s : State) (r : Result) : Result :=
  if s.phase = p then r else .refused (.outOfPlace s.phase)

/-! ### Bookkeeping -/

/-- `emit e` with `now <- now + dt` (R12, R33, R34): the record carries the time at which the response arrived. -/
def State.emit (s : State) (e : Event) (dt : Nat) : State :=
  { s with trace := s.trace ++ [{ event := e, time := s.now + dt }], now := s.now + dt }

/-- The selector lines become unspecified (R130, R270): a fresh free value. Log 3. -/
def State.loseMux (s : State) : State := { s with mux := Config.freeMux s.draws, draws := s.draws + 1 }

/-! ### Fatal entry and reset -/

/-- `raise Fatal(cause)` (R234). Position, bus and lines stay as they are. -/
def raiseFatal (c : Cause) (s : State) : State := { s with cause := c, phase := .fatal }

/-- R236: with RELEASE_ON_ABORT one `Rel` follows a failed XFER and the bus is free; without it nothing happens. Log 13. -/
def releaseOnAbort (s : State) : State :=
  if s.cfg.releaseOnAbort then { s.emit .rel 0 with busOwned := false } else s

/-- RESET (R270), the only way out of DONE and FATAL (R239, R271). -/
def resetCore (s : State) : State :=
  { s.loseMux with phase := .idle, i := 0, j := 0, k := 0, busOwned := false, cause := .noCause, trace := [] }

/-! ### Moves of the position -/

/-- `next_family` (R149). -/
def nextFamily (s : State) : State := { s with i := s.i + 1, j := 0, k := 0, phase := .selecting }

/-- `family_end` (R148). -/
def familyEnd (s : State) : State :=
  if s.i.toNat + 1 < s.nord then
    match s.ifd with
    | some _ => { s with phase := .fsettling }
    | none => nextFamily s
  else { s with phase := .done }

/-- `next_stage` (R147). -/
def nextStage (s : State) : State :=
  if s.j.toNat + 1 < s.nstg then { s with j := s.j + 1, k := 0, phase := .acquiring } else familyEnd s

/-- `stage_end` (R146), the stage's declared delay given. -/
def stageEnd (delay : Option Millis) (s : State) : State :=
  match delay with
  | some _ => { s with phase := .settling }
  | none => nextStage s

end Sys2Proof.Machine
end

