-- ==== Sys2Proof/Machine/DelayGate.lean ====
section
/-! DEFINITION. The delay gate, 43_delay_gate.md: SLP after a stage (R210) and between families (R218). -/

namespace Sys2Proof.Machine

/-- SLP(d). `elapsed(dt)` is admitted only with `dt` at least `d` (R213); then the position moves on by `after`. A failure is
fatal and not retried (R216). -/
def slp (d : Millis) (after : State → State) (s : State) : Result :=
  awaitResponse s fun r =>
    match r with
    | .elapsed dt =>
      if d.toNat ≤ dt then .next (after (s.consume.emit (.slp d .elapsed) dt)) else notAdmitted s r
    | .fail dt => .next (raiseFatal .timingFailure (s.consume.emit (.slp d .fail) dt))
    | .ok _ => notAdmitted s r
    | .granted _ => notAdmitted s r
    | .rejected _ => notAdmitted s r

/-- SLP of an optional delay: a settle phase is entered only with one declared (R146, R148). -/
def slpDeclared (d : Option Millis) (after : State → State) (s : State) : Result :=
  match d with
  | some ms => slp ms after s
  | none => .refused (.noDelayDeclared s.phase)

end Sys2Proof.Machine
end

