-- ==== Sys2Proof/Machine/Selector.lean ====
section
/-! DEFINITION. The Device Selector, 40_selector.md: the operation SEL (R130) and the meaning of the record FAM. -/

namespace Sys2Proof.Machine

/-- SEL(code) (R130): one write of both lines, always issued whatever they hold (R134, R135). After a rejection, possible where
SELECTOR_CAN_FAIL, the lines are unspecified and the run is over. -/
def sel (code : MuxCode) (s : State) : Result :=
  awaitResponse s fun r =>
    match r with
    | .ok dt =>
      .next { s.consume.emit (.sel code .ok) dt with mux := code, j := 0, k := 0, phase := .acquiring }
    | .rejected dt =>
      if s.cfg.selectorCanFail then
        .next (raiseFatal .selectorFailure (s.consume.emit (.sel code .rejected) dt).loseMux)
      else notAdmitted s r
    | .granted _ => notAdmitted s r
    | .fail _ => notAdmitted s r
    | .elapsed _ => notAdmitted s r

/-- `FAM`: the family's SEL (R130). -/
def execFam (_fid : DeviceFamily) (mux : MuxCode) (_w4 : Bool) (_line : BitVec 2) (_spi : SpiConfig) (_nstg : BitVec 4)
    (s : State) : Result :=
  inPhase .selecting s (sel mux s)

end Sys2Proof.Machine
end

