-- ==== Sys2Proof/Machine/Sequencer.lean ====
section
/-! DEFINITION. The Bring-up Sequencer, 41_sequencer.md: START (R140), ACQ (R142), CFG (R143), XFER (R144), REL (R145), and the
meanings of the records HDR, STG.*, FRM3, FRM4 and END. -/

namespace Sys2Proof.Machine

/-- START (R140), taken on the input `start`: the store is checked before the run (R100), then the run begins, or is over at
once with an empty order. Without `start` the core waits; a response that comes in IDLE is late and dropped (R270). -/
def startRun (nfam : BitVec 4) (s : State) : Result :=
  if s.arrival.start then
    match storeCheck s.word s.cfg.romWords with
    | some (a, r) => .refused (.storeRefused a r)
    | none =>
      if nfam = 0 then .next { s.consume with phase := .done }
      else .next { s.consume with i := 0, j := 0, k := 0, phase := .selecting }
  else .next s.consume

/-- ACQ (R142). -/
def acq (s : State) : Result :=
  awaitResponse s fun r =>
    match r with
    | .granted dt => .next { s.consume.emit .acq dt with busOwned := true, phase := .configuring }
    | .ok _ => notAdmitted s r
    | .rejected _ => notAdmitted s r
    | .fail _ => notAdmitted s r
    | .elapsed _ => notAdmitted s r

/-- CFG (R143). -/
def configure (spi : SpiConfig) (s : State) : Result :=
  awaitResponse s fun r =>
    match r with
    | .ok dt => .next { s.consume.emit (.cfg spi) dt with phase := .framing }
    | .granted _ => notAdmitted s r
    | .rejected _ => notAdmitted s r
    | .fail _ => notAdmitted s r
    | .elapsed _ => notAdmitted s r

/-- After a frame is sent (R144): in PerStage mode the next frame while there is one, else RELEASING. -/
def afterFrame (s : State) : State :=
  if s.cfg.acqMode = .perStage ∧ s.k.toNat + 1 < s.nfrm then { s with k := s.k + 1 } else { s with phase := .releasing }

/-- XFER(line, bytes) (R144). -/
def xfer (bytes : Frame) (s : State) : Result :=
  awaitResponse s fun r =>
    match r with
    | .ok dt => .next (afterFrame (s.consume.emit (.xfer s.famLine bytes .ok) dt))
    | .fail dt =>
      .next (raiseFatal .transportFailure (releaseOnAbort (s.consume.emit (.xfer s.famLine bytes .fail) dt)))
    | .granted _ => notAdmitted s r
    | .rejected _ => notAdmitted s r
    | .elapsed _ => notAdmitted s r

/-- After a release (R145): in PerFrame mode the next frame while there is one (R151), else `stage_end`. -/
def afterRelease (nfrm : BitVec 8) (delay : Option Millis) (s : State) : State :=
  if s.cfg.acqMode = .perFrame ∧ s.k.toNat + 1 < nfrm.toNat then { s with k := s.k + 1, phase := .acquiring }
  else stageEnd delay s

/-- REL (R145). -/
def rel (nfrm : BitVec 8) (delay : Option Millis) (s : State) : Result :=
  awaitResponse s fun r =>
    match r with
    | .ok dt => .next (afterRelease nfrm delay { s.consume.emit .rel dt with busOwned := false })
    | .granted _ => notAdmitted s r
    | .rejected _ => notAdmitted s r
    | .fail _ => notAdmitted s r
    | .elapsed _ => notAdmitted s r

/-- What a stage record does, phase by phase (R141). The kind plays no part. -/
def runStage (nfrm : BitVec 8) (delay : Option Millis) (s : State) : Result :=
  match s.phase with
  | .acquiring => acq s
  | .configuring => configure s.famSpi s
  | .releasing => rel nfrm delay s
  | .settling => slpDeclared delay nextStage s
  | .idle => .refused (.outOfPlace s.phase)
  | .selecting => .refused (.outOfPlace s.phase)
  | .framing => .refused (.outOfPlace s.phase)
  | .fsettling => .refused (.outOfPlace s.phase)
  | .done => .refused (.outOfPlace s.phase)
  | .fatal => .refused (.outOfPlace s.phase)

/-- `HDR`: START in IDLE (R140), SLP between families in FSETTLING (R218). -/
def execHdr (nfam : BitVec 4) (ifd : Option Millis) (s : State) : Result :=
  match s.phase with
  | .idle => startRun nfam s
  | .fsettling => slpDeclared ifd nextFamily s
  | .selecting => .refused (.outOfPlace s.phase)
  | .acquiring => .refused (.outOfPlace s.phase)
  | .configuring => .refused (.outOfPlace s.phase)
  | .framing => .refused (.outOfPlace s.phase)
  | .releasing => .refused (.outOfPlace s.phase)
  | .settling => .refused (.outOfPlace s.phase)
  | .done => .refused (.outOfPlace s.phase)
  | .fatal => .refused (.outOfPlace s.phase)

/-- `STG.SINGLE` (R141). -/
def execStgSingle (nfrm : BitVec 8) (delay : Option Millis) (s : State) : Result := runStage nfrm delay s

/-- `STG.PROV` (R141). -/
def execStgProv (nfrm : BitVec 8) (delay : Option Millis) (s : State) : Result := runStage nfrm delay s

/-- `STG.FINAL` (R141). -/
def execStgFinal (nfrm : BitVec 8) (delay : Option Millis) (s : State) : Result := runStage nfrm delay s

/-- `FRM3` (R144): byte 0 first. -/
def execFrm3 (b0 b1 b2 : Byte) (s : State) : Result := inPhase .framing s (xfer [b0, b1, b2] s)

/-- `FRM4` (R144): byte 0 first. -/
def execFrm4 (b0 b1 b2 b3 : Byte) (s : State) : Result := inPhase .framing s (xfer [b0, b1, b2, b3] s)

/-- `END` (R150): the run is over; the core issues nothing and holds everything, whatever arrives but reset. -/
def execEnd (s : State) : Result := inPhase .done s (.next s.consume)

end Sys2Proof.Machine
end

