-- ==== Sys2Proof/Machine/Dispatch.lean ====
section
/-! DEFINITION. One arm per record of spec/opcode_table.json. -/

namespace Sys2Proof.Machine

def exec (i : Instr) (s : State) : Host.Outcome State Fault Refusal :=
  match i with
  | .hdr nfam ifd => Sys2Proof.Machine.execHdr nfam ifd s
  | .fam fid mux w4 line spi nstg => Sys2Proof.Machine.execFam fid mux w4 line spi nstg s
  | .stgSingle nfrm delay => Sys2Proof.Machine.execStgSingle nfrm delay s
  | .stgProv nfrm delay => Sys2Proof.Machine.execStgProv nfrm delay s
  | .stgFinal nfrm delay => Sys2Proof.Machine.execStgFinal nfrm delay s
  | .frm3 b0 b1 b2 => Sys2Proof.Machine.execFrm3 b0 b1 b2 s
  | .frm4 b0 b1 b2 b3 => Sys2Proof.Machine.execFrm4 b0 b1 b2 b3 s
  | .endRec => Sys2Proof.Machine.execEnd s

end Sys2Proof.Machine
end

