-- ==== Sys2Proof/Machine/Fetch.lean ====
section
/-! DEFINITION. From a state to the record it works on: reset and the phases without a record, the fetch at `pp`
(30_encoding.md R104, 41_sequencer.md R155), the decoding by place; and the placing of one word where the next step fetches
it. -/

namespace Sys2Proof.Machine

/-- In IDLE nothing is fetched before `start` (R40, R286). -/
def State.waitsForStart (s : State) : Bool := decide (s.phase = .idle) && !s.arrival.start

/-- One step around the meaning `run` of the fetched record. Reset wins over all that arrives with it (R243); in FATAL nothing
is issued (R235). -/
def cycle (run : Instr → State → Result) (s : State) : Result :=
  if s.arrival.reset then .next (resetCore s.consume)
  else
    match s.place with
    | none => .next s.consume
    | some p =>
      if s.waitsForStart then .next s.consume
      else if s.cfg.romWords ≤ s.pp then .fault (.noSuchWord s.pp)
      else
        match decodeAt p (s.word s.pp) with
        | .error r => .refused (.storeRefused s.pp r)
        | .ok i => run i s

/-! ### Placing a word (log 15) -/

/-- A family of one stage of one frame of three zero bytes, for the store behind a HDR. -/
def smallFamily (f : DeviceFamily) : List Word :=
  [encode (.fam f 0 false 0 { clk := 0, cpol := false, cpha := false, lsbf := false } 1), encode (.stgSingle 1 none),
   encode (.frm3 0 0 0)]

/-- The words of a store in which `w` stands in place `p`, as far as the record's step reads it. -/
def storeAround (p : Place) (w : Word) : List Word :=
  match p with
  | .hdr =>
    w :: ([.synthesizerA, .synthesizerB, .gainStageA, .gainStageB, .adc].take (hdrNfam w).toNat).flatMap smallFamily
      ++ [encode .endRec]
  | .fam => [encode (.hdr 1 none), w]
  | .stg =>
    [encode (.hdr 1 none),
     encode (.fam .synthesizerA 0 false 0 { clk := 0, cpol := false, cpha := false, lsbf := false } 1), w]
  | .frm w4 =>
    [encode (.hdr 1 none),
     encode (.fam .synthesizerA 0 w4 0 { clk := 0, cpol := false, cpha := false, lsbf := false } 1),
     encode (.stgSingle 1 none), w]
  | .endRec => [encode (.hdr 0 none), w]

/-- The phase in which the record of place `p` is executed first. -/
def firstPhase : Place → Phase
  | .hdr => .idle
  | .fam => .selecting
  | .stg => .acquiring
  | .frm _ => .framing
  | .endRec => .done

/-- What must arrive for the record's step to be taken and not waited for. -/
def firstArrival : Place → Arrival
  | .hdr => { reset := false, start := true, resp := none }
  | .fam => { reset := false, start := false, resp := some (.ok 0) }
  | .stg => { reset := false, start := false, resp := some (.granted 0) }
  | .frm _ => { reset := false, start := false, resp := some (.ok 0) }
  | .endRec => Arrival.nothing

/-- `s` about to execute `w` in place `p`, at position (0, 0, 0), as its next step. -/
def placeWord (s : State) (p : Place) (w : Word) : State :=
  { s.loadStore (storeAround p w) with
      phase := firstPhase p, i := 0, j := 0, k := 0
      busOwned := decide (firstPhase p = .framing), cause := .noCause
      arrivals := firstArrival p :: s.arrivals }

end Sys2Proof.Machine
end

