-- ==== Sys2Proof/Machine/Step.lean ====
section
/-! DEFINITION. The step of the machine. -/

namespace Sys2Proof.Machine

/-- One step (00_scope.md R13): the operation of the phase, its response, the new state, in one. The parameters and the inputs
are arguments, no part of the state (R32, R61). -/
def coreStep (p : Parameters) (a : Arrival) (c : CoreState) : Host.Outcome CoreState Fault Refusal :=
  match cycle exec { toCoreState := c, toParameters := p, arrivals := [a] } with
  | .next t => .next t.toCoreState
  | .fault f => .fault f
  | .refused r => .refused r

/-- The step of the host's interface, which has no argument but the state: `coreStep` on the bundle's parameters and its next
arrival. The parameters stay, the arrival is used up. Log 1, log 6. -/
def step (s : State) : Host.Outcome State Fault Refusal :=
  match coreStep s.toParameters s.arrival s.toCoreState with
  | .next c => .next { toCoreState := c, toParameters := s.toParameters, arrivals := s.arrivals.tail }
  | .fault f => .fault f
  | .refused r => .refused r

/-- `s` with the 32-bit table word `w` where its next step fetches. Every record is one word, so a shorter `nbits` leaves the
bits above it zero. -/
def State.withFetchWord (s : State) (nbits w : Nat) : State :=
  placeWord s (tablePlace (BitVec.ofNat 32 (w % 2 ^ nbits))) (BitVec.ofNat 32 (w % 2 ^ nbits))

end Sys2Proof.Machine
end

