-- ==== Sys2Proof/Safety.lean ====
section
/-! DEFINITION. What counts as a correct run, in the terms the statements use: the answers a collaborator may give, the
invariants of 10_state.md R38, the events a run must have produced by the time it is in a given state (41_sequencer.md R152),
the time it must have let pass (R159, R219), the bus discipline (R160) and the untimed view of a run (R161). -/

namespace Sys2Proof.Machine

/-! ### What a response leaves -/

/-- `s` after a response that took `dt`: the arrival is used up, the clock is ahead by `dt`, and the trace has the event with
the new time (R33, R34). Written out field by field, for the statements. -/
def State.heard (s : State) (e : Event) (dt : Nat) : State :=
  { s with arrivals := s.arrivals.tail, now := s.now + dt, trace := s.trace ++ [{ event := e, time := s.now + dt }] }

/-- `s` with its arrival used up and nothing else changed: the core waits. -/
def State.waited (s : State) : State := { s with arrivals := s.arrivals.tail }

/-! ### Outcome of a run -/

/-- A bring-up is complete exactly in DONE (R150, R287). FATAL is a failed run and never counts as ended (R238). -/
def State.completed (s : State) : Prop := s.phase = .done

/-! ### Admissible answers -/

/-- The responses a collaborator may give to an operation (the `case resp of` of R130, R142 to R145, R210, R218; R213). -/
def Operation.admits (cfg : Config) : Operation → Response → Bool
  | .sel _, .ok _ => true
  | .sel _, .rejected _ => cfg.selectorCanFail
  | .acq, .granted _ => true
  | .cfg _, .ok _ => true
  | .xfer _ _, .ok _ => true
  | .xfer _ _, .fail _ => true
  | .rel, .ok _ => true
  | .slp d, .elapsed dt => decide (d.toNat ≤ dt)
  | .slp _, .fail _ => true
  | _, _ => false

/-- The responses that let the run go on. -/
def Response.success : Response → Bool
  | .ok _ => true
  | .granted _ => true
  | .rejected _ => false
  | .fail _ => false
  | .elapsed _ => true

/-- The time a response says the operation took (R34). -/
def Response.dt : Response → Nat
  | .ok dt => dt
  | .granted dt => dt
  | .rejected dt => dt
  | .fail dt => dt
  | .elapsed dt => dt

/-- What arrives keeps the collaborators' duties (R280): a response, where an operation is outstanding, is one it admits. -/
def State.arrivalAdmitted (s : State) : Prop :=
  ∀ r op, s.arrival.resp = some r → s.outstanding = some op → op.admits s.cfg r = true

/-- The store is one that R100 accepts. -/
def State.storeAccepted (s : State) : Prop := storeCheck s.word s.cfg.romWords = none

/-! ### Invariants -/

/-- An operation is outstanding. -/
def Phase.running : Phase → Bool
  | .idle => false
  | .selecting => true
  | .acquiring => true
  | .configuring => true
  | .framing => true
  | .releasing => true
  | .settling => true
  | .fsettling => true
  | .done => false
  | .fatal => false

/-- The core is inside a stage or its delay: the phases of R38 item 4. -/
def Phase.inStage : Phase → Bool
  | .idle => false
  | .selecting => false
  | .acquiring => true
  | .configuring => true
  | .framing => true
  | .releasing => true
  | .settling => true
  | .fsettling => false
  | .done => false
  | .fatal => false

/-- R38 item 1. -/
def State.ownershipOk (s : State) : Prop :=
  s.busOwned = true ↔
    s.phase = .configuring ∨ s.phase = .framing ∨ s.phase = .releasing ∨
      (s.phase = .fatal ∧ s.cause = .transportFailure ∧ s.cfg.releaseOnAbort = false)

/-- R38 item 2. -/
def State.causeOk (s : State) : Prop := s.cause ≠ .noCause ↔ s.phase = .fatal

/-- R38 item 3. -/
def State.positionOk (s : State) : Prop :=
  s.phase.running = true → s.i.toNat < s.nord ∧ s.j.toNat < s.nstg ∧ s.k.toNat < s.nfrm

/-- R38 item 4. -/
def State.muxOk (s : State) : Prop := s.phase.inStage = true → s.mux = s.famMux

/-- R38 item 5. -/
def State.gateOk (s : State) : Prop := s.phase = .settling ∨ s.phase = .fsettling → s.busOwned = false

/-- The position is the last one of family `S.i`. -/
def State.atFamilyEnd (s : State) : Prop := s.j.toNat + 1 = s.nstg ∧ s.k.toNat + 1 = s.nfrm

/-- Where each phase can be entered: not stated by R38 in these words, but read from R140 and R144 to R149; it makes the
invariant one that every step keeps. -/
def State.progressOk (s : State) : Prop :=
  match s.phase with
  | .idle => s.i = 0 ∧ s.j = 0 ∧ s.k = 0
  | .selecting => s.j = 0 ∧ s.k = 0
  | .acquiring => s.cfg.acqMode = .perStage → s.k = 0
  | .configuring => s.cfg.acqMode = .perStage → s.k = 0
  | .framing => True
  | .releasing => s.cfg.acqMode = .perStage → s.k.toNat + 1 = s.nfrm
  | .settling => s.delay.isSome = true ∧ s.k.toNat + 1 = s.nfrm
  | .fsettling => s.ifd.isSome = true ∧ s.i.toNat + 1 < s.nord ∧ s.atFamilyEnd
  | .done => (s.nord = 0 ∧ s.i = 0 ∧ s.j = 0 ∧ s.k = 0) ∨ (s.i.toNat + 1 = s.nord ∧ s.atFamilyEnd)
  | .fatal => True

/-- The store of a run was accepted at START (R100), and memory is canonical. -/
def State.storeOk (s : State) : Prop := (s.phase ≠ .idle → s.storeAccepted) ∧ Memory.wf s.rom = true

/-- The invariant: R38 and what makes it inductive. -/
structure State.Inv (s : State) : Prop where
  ownership : s.ownershipOk
  cause     : s.causeOk
  position  : s.positionOk
  mux       : s.muxOk
  gate      : s.gateOk
  progress  : s.progressOk
  store     : s.storeOk

/-! ### The events of a run (R152) -/

/-- SLP of a declared delay, served. -/
def slpEvents (d : Option Millis) : List Event :=
  match d with
  | some ms => [.slp ms .elapsed]
  | none => []

def selEvent (rd : Nat → Word) (i : Nat) : Event := .sel (famMux (storeFam rd i)) .ok
def cfgEvent (rd : Nat → Word) (i : Nat) : Event := .cfg (famSpi (storeFam rd i))
def xferEvent (rd : Nat → Word) (i j k : Nat) (r : Answer) : Event :=
  .xfer (famLine (storeFam rd i)) (storeFrame rd i j k) r

/-- ACQ, CFG, XFER, REL of one frame (R151). -/
def frameCycle (rd : Nat → Word) (i j k : Nat) : List Event :=
  [.acq, cfgEvent rd i, xferEvent rd i j k .ok, .rel]

/-- The first `n` transfers of a stage. -/
def xferEvents (rd : Nat → Word) (i j n : Nat) : List Event := (List.range n).map fun k => xferEvent rd i j k .ok

/-- The bus operations of a stage, without its delay (R141, R151). -/
def stageBody (mode : AcqMode) (rd : Nat → Word) (i j : Nat) : List Event :=
  match mode with
  | .perStage => [.acq, cfgEvent rd i] ++ xferEvents rd i j (storeNfrm rd i j) ++ [.rel]
  | .perFrame => (List.range (storeNfrm rd i j)).flatMap fun k => frameCycle rd i j k

def stageEvents (mode : AcqMode) (rd : Nat → Word) (i j : Nat) : List Event :=
  stageBody mode rd i j ++ slpEvents (storeDelay rd i j)

/-- The first `n` stages of family `i`, after its SEL. -/
def familyPart (mode : AcqMode) (rd : Nat → Word) (i n : Nat) : List Event :=
  selEvent rd i :: (List.range n).flatMap fun j => stageEvents mode rd i j

def familyEvents (mode : AcqMode) (rd : Nat → Word) (i : Nat) : List Event := familyPart mode rd i (storeNstg rd i)

/-- The first `n` families, each followed by the inter-family delay. -/
def familiesPart (mode : AcqMode) (rd : Nat → Word) (n : Nat) : List Event :=
  (List.range n).flatMap fun i => familyEvents mode rd i ++ slpEvents (storeIfd rd)

/-- All events of a run that reaches DONE, in order: the loop of R152. -/
def programEvents (mode : AcqMode) (rd : Nat → Word) : List Event :=
  (List.range (storeNord rd)).flatMap fun i =>
    familyEvents mode rd i ++ (if i + 1 < storeNord rd then slpEvents (storeIfd rd) else [])

/-- What a stage has produced in a phase inside it, `k` being the frame index. -/
def stagePart (mode : AcqMode) (rd : Nat → Word) (p : Phase) (i j k : Nat) : List Event :=
  match mode with
  | .perStage =>
    match p with
    | .configuring => [.acq]
    | .framing => [.acq, cfgEvent rd i] ++ xferEvents rd i j k
    | .releasing => [.acq, cfgEvent rd i] ++ xferEvents rd i j (k + 1)
    | .settling => stageBody .perStage rd i j
    | _ => []
  | .perFrame =>
    match p with
    | .settling => stageBody .perFrame rd i j
    | _ =>
      (List.range k).flatMap (fun x => frameCycle rd i j x) ++
        (match p with
         | .configuring => [.acq]
         | .framing => [.acq, cfgEvent rd i]
         | .releasing => [.acq, cfgEvent rd i, xferEvent rd i j k .ok]
         | _ => [])

/-- The untimed trace that a run must have in phase `p` at position (i, j, k), FATAL apart. -/
def eventsAt (mode : AcqMode) (rd : Nat → Word) (p : Phase) (i j k : Nat) : List Event :=
  match p with
  | .idle => []
  | .selecting => familiesPart mode rd i
  | .fsettling => familiesPart mode rd i ++ familyEvents mode rd i
  | .done => programEvents mode rd
  | _ => familiesPart mode rd i ++ familyPart mode rd i j ++ stagePart mode rd p i j k

/-- The untimed trace (R33). -/
def State.events (s : State) : List Event := s.trace.map TraceEntry.event

/-- The failing event of an operation, and with RELEASE_ON_ABORT the `Rel` after a failed transfer (R236). -/
def Operation.failure (cfg : Config) : Operation → List Event
  | .sel code => [.sel code .rejected]
  | .xfer line bytes => .xfer line bytes .fail :: (if cfg.releaseOnAbort then [.rel] else [])
  | .slp d => [.slp d .fail]
  | .acq => []
  | .cfg _ => []
  | .rel => []

/-- The cause that an operation's failure raises (R230); ACQ, CFG and REL cannot fail (R231). -/
def Operation.failureCause : Operation → Cause
  | .sel _ => .selectorFailure
  | .xfer _ _ => .transportFailure
  | .slp _ => .timingFailure
  | .acq => .noCause
  | .cfg _ => .noCause
  | .rel => .noCause

/-- The state in which the core was when it failed, at the position and on the store of `s`. -/
def State.before (s : State) (p : Phase) : State := { s with phase := p }

/-- The trace is what the program demands at this point; in FATAL, what it demanded where the core failed, and then the failure
(R162). -/
def State.traceOk (s : State) : Prop :=
  if s.phase = .fatal then
    ∃ p op, p.running = true ∧ (s.before p).outstanding = some op ∧ s.cause = op.failureCause ∧ s.cause ≠ .noCause ∧
      s.events = eventsAt s.cfg.acqMode s.word p s.i.toNat s.j.toNat s.k.toNat ++ op.failure s.cfg
  else s.events = eventsAt s.cfg.acqMode s.word s.phase s.i.toNat s.j.toNat s.k.toNat

/-- The payloads sent with response ok, in order (R157). -/
def framesSent (es : List Event) : List Frame :=
  es.filterMap fun e =>
    match e with
    | .xfer _ bytes .ok => some bytes
    | _ => none

/-- The frames of the table, by family, stage and frame (R157). -/
def tableFrames (rd : Nat → Word) : List Frame :=
  (List.range (storeNord rd)).flatMap fun i =>
    (List.range (storeNstg rd i)).flatMap fun j => (List.range (storeNfrm rd i j)).map fun k => storeFrame rd i j k

/-- The number of events of a run that satisfy `p` (R163). -/
def countEvents (p : Event → Bool) (es : List Event) : Nat := es.countP p

def Event.isSel : Event → Bool
  | .sel _ _ => true
  | _ => false
def Event.isAcq : Event → Bool
  | .acq => true
  | _ => false
def Event.isCfg : Event → Bool
  | .cfg _ => true
  | _ => false
def Event.isXfer : Event → Bool
  | .xfer _ _ _ => true
  | _ => false
def Event.isRel : Event → Bool
  | .rel => true
  | _ => false
def Event.isSlp : Event → Bool
  | .slp _ _ => true
  | _ => false

/-- The response of the event is a failure (R230). -/
def Event.failed : Event → Bool
  | .sel _ r => decide (r = .rejected)
  | .xfer _ _ r => decide (r = .fail)
  | .slp _ r => decide (r = .fail)
  | .acq => false
  | .cfg _ => false
  | .rel => false

/-- Stages of a store. -/
def stageCount (rd : Nat → Word) : Nat := ((List.range (storeNord rd)).map fun i => storeNstg rd i).sum

/-- Frames of a store. -/
def frameCount (rd : Nat → Word) : Nat := (tableFrames rd).length

/-- Stages that declare a delay. -/
def delayCount (rd : Nat → Word) : Nat :=
  ((List.range (storeNord rd)).map fun i =>
    ((List.range (storeNstg rd i)).filter fun j => (storeDelay rd i j).isSome).length).sum

/-! ### Bus discipline (R160) -/

/-- One event seen by an observer who knows whether the core owns the bus; `none` once the discipline is broken. -/
def busAfter (e : Event) (owned : Bool) : Option Bool :=
  match e with
  | .acq => if owned then none else some true
  | .rel => if owned then some false else none
  | .cfg _ => if owned then some true else none
  | .xfer _ _ _ => if owned then some true else none
  | .sel _ _ => if owned then none else some false
  | .slp _ _ => if owned then none else some false

/-- The events of a run from a free bus: `Acq` and `Rel` alternate, `Cfg` and `Xfer` inside a pair, `Sel` and `Slp` outside. -/
def busRun : List Event → Bool → Option Bool
  | [], owned => some owned
  | e :: es, owned => (busAfter e owned).bind (busRun es)

def State.busOk (s : State) : Prop := busRun s.events false = some s.busOwned

/-! ### Delays served (R159, R219) -/

/-- When the last transfer completed. -/
def lastXferTime (t : List TraceEntry) : Option Nat :=
  ((t.filter fun e =>
    match e.event with
    | .xfer _ _ _ => true
    | _ => false).getLast?).map TraceEntry.time

def msOf (d : Option Millis) : Nat := (d.map BitVec.toNat).getD 0

/-- The delay declared by the last stage of family `i`. -/
def lastDelay (rd : Nat → Word) (i : Nat) : Nat := msOf (storeDelay rd i (storeNstg rd i - 1))

/-- `size(i)` of R104: the words of family `i`. -/
def familySize (rd : Nat → Word) (i : Nat) : Nat :=
  1 + ((List.range (storeNstg rd i)).map fun j => 1 + storeNfrm rd i j).sum

/-- The time that must lie between the last transfer before stage (i, j) and its first: the delay of the stage before it, and
across a family boundary that of the last stage and the inter-family delay (R159, R219). -/
def gapBefore (rd : Nat → Word) (i j : Nat) : Nat :=
  match i, j with
  | _, j + 1 => msOf (storeDelay rd i j)
  | i + 1, 0 => lastDelay rd i + msOf (storeIfd rd)
  | 0, 0 => 0

/-- The phases between the last delay before a stage's first transfer and that transfer. -/
def Phase.beforeXfer : Phase → Bool
  | .selecting => true
  | .acquiring => true
  | .configuring => true
  | .framing => true
  | .idle => false
  | .releasing => false
  | .settling => false
  | .fsettling => false
  | .done => false
  | .fatal => false

/-- Every recorded time is past, and by the time the first transfer of a stage can be issued the declared delays have passed
since the last one. -/
structure State.delaysOk (s : State) : Prop where
  past   : ∀ e ∈ s.trace, e.time ≤ s.now
  sent   : (s.phase = .releasing ∨ s.phase = .settling ∨ s.phase = .fsettling) → (lastXferTime s.trace).isSome = true
  family : s.phase = .fsettling → ∀ t, lastXferTime s.trace = some t → t + lastDelay s.word s.i.toNat ≤ s.now
  stage  : s.phase.beforeXfer = true → s.k = 0 → ∀ t, lastXferTime s.trace = some t →
             t + gapBefore s.word s.i.toNat s.j.toNat ≤ s.now

/-! ### The untimed view (R161) -/

/-- Two responses that differ at most in the time they took. -/
def Response.sameKind : Response → Response → Bool
  | .ok _, .ok _ => true
  | .granted _, .granted _ => true
  | .rejected _, .rejected _ => true
  | .fail _, .fail _ => true
  | .elapsed _, .elapsed _ => true
  | _, _ => false

/-- Two arrivals that differ at most in the time a response took. -/
def Arrival.sameKind (a b : Arrival) : Prop :=
  a.reset = b.reset ∧ a.start = b.start ∧
    (match a.resp, b.resp with
     | none, none => True
     | some r, some r' => r.sameKind r' = true
     | _, _ => False)

/-- Two states that an observer of the untimed trace, the position and the bus cannot tell apart: same store and parameters,
but any selector lines, any clock and any times. -/
structure SameUntimed (s t : State) : Prop where
  phase    : s.phase = t.phase
  i        : s.i = t.i
  j        : s.j = t.j
  k        : s.k = t.k
  busOwned : s.busOwned = t.busOwned
  cause    : s.cause = t.cause
  cfg      : s.cfg = t.cfg
  rom      : s.rom = t.rom
  events   : s.events = t.events

/-- Lexicographic order of positions (R21). -/
def State.posLe (s t : State) : Prop :=
  s.i.toNat < t.i.toNat ∨
    (s.i = t.i ∧ (s.j.toNat < t.j.toNat ∨ (s.j = t.j ∧ s.k.toNat ≤ t.k.toNat)))

end Sys2Proof.Machine
end

