-- ==== Sys2Proof/Certificates/Slice0/Obligations.lean ====
section
/-! DEFINITION. The statements for the provers. Each docstring names the rule of spec/ it comes from; where a clause rests on a
decision of the spec (Dn of 92_eei_decisions.md) or on a log entry of the model, it says so. -/

open Sys2Proof Sys2Proof.Machine

/-! ## Encoding -/

/-- R102 for one record: decoding a record's word in the record's place gives the record back, every operand at every value.
The layout is the spec's decision D14. -/
def Obligations.DecodeOfEncodeIsTheRecord : Prop :=
  ∀ i : Instr, i.wellFormed = true → decodeAt i.place (encode i) = .ok i

/-- R102, the other direction, for one record: an accepted word is the encoding of what it decodes to, in its place. D14. -/
def Obligations.DecodedWordIsTheEncoding : Prop :=
  ∀ (p : Place) (w : Word) (i : Instr), decodeAt p w = .ok i → i.place = p ∧ encode i = w

/-- Words written out bit by bit from R93 to R98, one of each record at least. D14. -/
def Obligations.WordsOfTheSpecDecodeAsWritten : Prop :=
  decodeAt .hdr 0b00010010100000000000000000000101#32 = .ok (.hdr 2 (some 5)) ∧
  decodeAt .fam 0b00101001101110001111111100001111#32 =
    .ok (.fam .adc 0b11 false 3 { clk := 255, cpol := true, cpha := false, lsbf := false } 15) ∧
  decodeAt .stg 0b00110000000000100000000000000000#32 = .ok (.stgSingle 2 none) ∧
  decodeAt .stg 0b00110110000011000000000000000001#32 = .ok (.stgProv 12 (some 1)) ∧
  decodeAt .stg 0b00111010111111111111111111111111#32 = .ok (.stgFinal 255 (some 65535)) ∧
  decodeAt (.frm false) 0b00010000001111110000000000000000#32 = .ok (.frm3 0x10 0x3F 0x00) ∧
  decodeAt (.frm true) 0b00000000010110000000000000000101#32 = .ok (.frm4 0x00 0x58 0x00 0x05) ∧
  decodeAt .endRec 0b11110000000000000000000000000000#32 = .ok .endRec

/-- R102: "For every well-formed profile `P` that fits in `ROM_WORDS`, `decode(encode(P)) = P`". D14. -/
def Obligations.EncodedProfileIsDecodedBack : Prop :=
  ∀ (p : Profile) (depth : Nat), p.wellFormed = true → (encodeProfile p).length ≤ depth →
    decodeStore (readList (encodeProfile p)) depth = .ok p

/-- R102: for every store the decoder accepts, `encode(decode(s))` equals `s` on the words the grammar reads. D14. -/
def Obligations.AcceptedStoreIsTheEncodingOfItsProfile : Prop :=
  ∀ (rd : Nat → Word) (depth : Nat) (p : Profile), decodeStore rd depth = .ok p →
    (encodeProfile p).length = endAddr rd + 1 ∧ ∀ a ≤ endAddr rd, readList (encodeProfile p) a = rd a

/-- R100: checks 6 to 10 are R186 to R189 met at the binary level, so an accepted store spells a well-formed profile. D14. -/
def Obligations.AcceptedStoreSpellsAWellFormedProfile : Prop :=
  ∀ (rd : Nat → Word) (depth : Nat) (p : Profile), decodeStore rd depth = .ok p → p.wellFormed = true

/-- R104: base, stage, frame and END addresses as the sums of sizes the rule gives. -/
def Obligations.RecordAddressesAreSumsOfSizes : Prop :=
  ∀ rd : Nat → Word,
    (∀ i, famAddr rd i = 1 + ((List.range i).map (familySize rd)).sum) ∧
    (∀ i j, stgAddr rd i j = famAddr rd i + 1 + ((List.range j).map fun y => 1 + storeNfrm rd i y).sum) ∧
    (∀ i j k, frmAddr rd i j k = stgAddr rd i j + 1 + k) ∧
    endAddr rd = famAddr rd (storeNord rd)

/-- R91: words after END are not read and their content is irrelevant. D14. -/
def Obligations.WordsAfterEndPlayNoPart : Prop :=
  ∀ (rd rd' : Nat → Word) (depth : Nat), storeCheck rd depth = none → (∀ a ≤ endAddr rd, rd' a = rd a) →
    decodeStore rd' depth = decodeStore rd depth

/-! ## Reset and start -/

/-- R39, R40: the state after reset, on hardware with any parameters (R32). The clock's 0 is the model's choice (log 14); the
selector lines are unspecified (R41) and nothing is said of them. D25. -/
def Obligations.ResetStateIsIdleAtTheFirstPosition : Prop :=
  (∀ p : Parameters,
    (State.resetWith p).phase = .idle ∧ (State.resetWith p).i = 0 ∧ (State.resetWith p).j = 0 ∧ (State.resetWith p).k = 0 ∧
    (State.resetWith p).busOwned = false ∧ (State.resetWith p).cause = .noCause ∧ (State.resetWith p).done = false ∧
    (State.resetWith p).fatal = false ∧ (State.resetWith p).trace = [] ∧ (State.resetWith p).toParameters = p) ∧
  ∃ p : Parameters, State.reset = State.resetWith p

/-- R270, R243: reset acts in any phase, on any store, whatever arrives with it; the position, the bus, the cause and the trace
are cleared, the clock, the store and the parameters are not touched, the lines are unspecified. D25, D26. -/
def Obligations.ResetWinsOverEverything : Prop :=
  ∀ s : State, s.arrival.reset = true → ∃ t, step s = .next t ∧
    t.phase = .idle ∧ t.i = 0 ∧ t.j = 0 ∧ t.k = 0 ∧ t.busOwned = false ∧ t.cause = .noCause ∧ t.trace = [] ∧
    t.now = s.now ∧ t.cfg = s.cfg ∧ t.rom = s.rom ∧ t.arrivals = s.arrivals.tail

/-- R271: "Reset is the only way out of DONE and FATAL and the only way to run bring-up a second time. After reset the core
waits in IDLE for `start`". -/
def Obligations.ResetIsTheOnlyWayOutOfDoneAndFatal : Prop :=
  (∀ s t : State, (s.phase = .done ∨ s.phase = .fatal) → step s = .next t → t.phase ≠ s.phase →
    s.arrival.reset = true ∧ t.phase = .idle) ∧
  (∀ s t : State, step s = .next t → t.phase = .idle → s.phase ≠ .idle → s.arrival.reset = true) ∧
  (∀ s : State, s.arrival.reset = true → ∃ t, step s = .next t ∧ t.phase = .idle) ∧
  (∀ s t : State, s.phase = .idle → s.arrival.start = false → step s = .next t → t.phase = .idle) ∧
  (∀ s t : State, s.phase = .idle → s.arrival.start = true → s.arrival.reset = false → step s = .next t →
    t.phase = .selecting ∨ t.phase = .done)

/-- R140 (START): HDR in IDLE on `start`, the store accepted. D2, D3; the check at START is log 8. -/
def Obligations.HdrStartsTheRun : Prop :=
  ∀ (n : BitVec 4) (d : Option Millis) (s : State), s.phase = .idle → s.arrival.start = true → s.storeAccepted →
    exec (.hdr n d) s =
      .next (if n = 0 then { s.waited with phase := .done }
             else { s.waited with i := 0, j := 0, k := 0, phase := .selecting })

/-- R140 (a): without `start` HDR leaves the core in IDLE for ever, with no event. -/
def Obligations.HdrWaitsForStart : Prop :=
  ∀ (n : BitVec 4) (d : Option Millis) (s : State), s.phase = .idle → s.arrival.start = false →
    exec (.hdr n d) s = .next s.waited

/-- R100, R244: a refused store has no run, and the refusal names the address and the reason. D14, D16; that the check is made
at START is the model's reading (log 8). -/
def Obligations.RefusedStoreHasNoRun : Prop :=
  ∀ (n : BitVec 4) (d : Option Millis) (s : State) (a : Nat) (r : RefuseReason), s.phase = .idle →
    s.arrival.start = true → storeCheck s.word s.cfg.romWords = some (a, r) →
    exec (.hdr n d) s = .refused (.storeRefused a r)

/-- R140 (b), (c), R243: `start` outside IDLE changes nothing, whatever arrives with it. D2. -/
def Obligations.StartIsIgnoredOutsideIdle : Prop :=
  ∀ (s : State) (a : Arrival) (rest : List Arrival), s.phase ≠ .idle → s.arrivals = a :: rest →
    step s = step { s with arrivals := { a with start := false } :: rest }

/-! ## The Device Selector -/

/-- R130: FAM in SELECTING, response ok. D22, D24. -/
def Obligations.FamWritesBothLines : Prop :=
  ∀ (f : DeviceFamily) (m : MuxCode) (w4 : Bool) (l : BitVec 2) (sp : SpiConfig) (n : BitVec 4) (s : State) (dt : Nat),
    s.phase = .selecting → s.arrival.resp = some (.ok dt) →
    exec (.fam f m w4 l sp n) s =
      .next { s.heard (.sel m .ok) dt with mux := m, j := 0, k := 0, phase := .acquiring }

/-- R130, R234: a rejected SEL. The lines hold a free value and nothing is said of them. Where the selector cannot fail the
response does not exist and is not admitted (log 9). D22, D24. -/
def Obligations.RejectedSelIsFatal : Prop :=
  ∀ (f : DeviceFamily) (m : MuxCode) (w4 : Bool) (l : BitVec 2) (sp : SpiConfig) (n : BitVec 4) (s : State) (dt : Nat),
    s.phase = .selecting → s.arrival.resp = some (.rejected dt) →
    (s.cfg.selectorCanFail = true → ∃ t, exec (.fam f m w4 l sp n) s = .next t ∧
      t.phase = .fatal ∧ t.cause = .selectorFailure ∧ t.i = s.i ∧ t.j = s.j ∧ t.k = s.k ∧ t.busOwned = s.busOwned ∧
      t.trace = (s.heard (.sel m .rejected) dt).trace ∧ t.now = s.now + dt ∧ t.cfg = s.cfg ∧ t.rom = s.rom ∧
      t.arrivals = s.arrivals.tail) ∧
    (s.cfg.selectorCanFail = false →
      exec (.fam f m w4 l sp n) s = .refused (.responseNotAdmitted .selecting (.rejected dt)))

/-- R135: the lines change only in a SEL or a reset. -/
def Obligations.LinesChangeOnlyBySelOrReset : Prop :=
  ∀ s t : State, step s = .next t → t.mux ≠ s.mux → s.arrival.reset = true ∨ s.phase = .selecting

/-! ## The Bring-up Sequencer -/

/-- R142 (ACQ): a stage record of any kind in ACQUIRING, the bus granted. -/
def Obligations.StageAcquiresTheBus : Prop :=
  ∀ (i : Instr) (n : BitVec 8) (d : Option Millis) (s : State) (dt : Nat),
    i = .stgSingle n d ∨ i = .stgProv n d ∨ i = .stgFinal n d →
    s.phase = .acquiring → s.arrival.resp = some (.granted dt) →
    exec i s = .next { s.heard .acq dt with busOwned := true, phase := .configuring }

/-- R143 (CFG): the family's four values are passed through. D8, D10. -/
def Obligations.StageConfiguresTheBus : Prop :=
  ∀ (i : Instr) (n : BitVec 8) (d : Option Millis) (s : State) (dt : Nat),
    i = .stgSingle n d ∨ i = .stgProv n d ∨ i = .stgFinal n d →
    s.phase = .configuring → s.arrival.resp = some (.ok dt) →
    exec i s = .next { s.heard (.cfg (famSpi (storeFam s.word s.i.toNat))) dt with phase := .framing }

/-- R145 to R149, R151 (REL and the moves of the position). The delay and the frame count are the record's; the other counts
and the inter-family delay are the store's. D9, D18. -/
def Obligations.StageReleasesTheBusAndMovesOn : Prop :=
  ∀ (i : Instr) (n : BitVec 8) (d : Option Millis) (s : State) (dt : Nat),
    i = .stgSingle n d ∨ i = .stgProv n d ∨ i = .stgFinal n d →
    s.phase = .releasing → s.arrival.resp = some (.ok dt) →
    exec i s = .next
      (if s.cfg.acqMode = .perFrame ∧ s.k.toNat + 1 < n.toNat then
        { s.heard .rel dt with busOwned := false, k := s.k + 1, phase := .acquiring }
      else if d ≠ none then { s.heard .rel dt with busOwned := false, phase := .settling }
      else if s.j.toNat + 1 < storeNstg s.word s.i.toNat then
        { s.heard .rel dt with busOwned := false, j := s.j + 1, k := 0, phase := .acquiring }
      else if storeNord s.word ≤ s.i.toNat + 1 then { s.heard .rel dt with busOwned := false, phase := .done }
      else if storeIfd s.word ≠ none then { s.heard .rel dt with busOwned := false, phase := .fsettling }
      else { s.heard .rel dt with busOwned := false, i := s.i + 1, j := 0, k := 0, phase := .selecting })

/-- R210, R147 to R149 (SLP after a stage, over in time). D13, D27. -/
def Obligations.StageServesItsDelayAndMovesOn : Prop :=
  ∀ (i : Instr) (n : BitVec 8) (ms : Millis) (s : State) (dt : Nat),
    i = .stgSingle n (some ms) ∨ i = .stgProv n (some ms) ∨ i = .stgFinal n (some ms) →
    s.phase = .settling → s.arrival.resp = some (.elapsed dt) → ms.toNat ≤ dt →
    exec i s = .next
      (if s.j.toNat + 1 < storeNstg s.word s.i.toNat then
        { s.heard (.slp ms .elapsed) dt with j := s.j + 1, k := 0, phase := .acquiring }
      else if storeNord s.word ≤ s.i.toNat + 1 then { s.heard (.slp ms .elapsed) dt with phase := .done }
      else if storeIfd s.word ≠ none then { s.heard (.slp ms .elapsed) dt with phase := .fsettling }
      else { s.heard (.slp ms .elapsed) dt with i := s.i + 1, j := 0, k := 0, phase := .selecting })

/-- R218, R149 (SLP between families, over in time). D18, D27. -/
def Obligations.HdrServesTheInterFamilyDelay : Prop :=
  ∀ (n : BitVec 4) (ms : Millis) (s : State) (dt : Nat),
    s.phase = .fsettling → s.arrival.resp = some (.elapsed dt) → ms.toNat ≤ dt →
    exec (.hdr n (some ms)) s =
      .next { s.heard (.slp ms .elapsed) dt with i := s.i + 1, j := 0, k := 0, phase := .selecting }

/-- R210, R218, R216, R234: a failed delay is a TimingFailure and nothing more follows. D21, D22, D27. -/
def Obligations.FailedDelayIsFatal : Prop :=
  ∀ (i : Instr) (ms : Millis) (s : State) (dt : Nat), s.arrival.resp = some (.fail dt) →
    (s.phase = .settling ∧ ∃ n, i = .stgSingle n (some ms) ∨ i = .stgProv n (some ms) ∨ i = .stgFinal n (some ms)) ∨
      (s.phase = .fsettling ∧ ∃ n, i = .hdr n (some ms)) →
    exec i s = .next { s.heard (.slp ms .fail) dt with cause := .timingFailure, phase := .fatal }

/-- R213: `elapsed` before the delay is over is no response the Timing collaborator may give, "a model does not admit it". D27;
that it is refused is log 9. -/
def Obligations.EarlyElapsedIsNotAdmitted : Prop :=
  ∀ (i : Instr) (ms : Millis) (s : State) (dt : Nat), s.arrival.resp = some (.elapsed dt) → dt < ms.toNat →
    (s.phase = .settling ∧ ∃ n, i = .stgSingle n (some ms) ∨ i = .stgProv n (some ms) ∨ i = .stgFinal n (some ms)) ∨
      (s.phase = .fsettling ∧ ∃ n, i = .hdr n (some ms)) →
    exec i s = .refused (.responseNotAdmitted s.phase (.elapsed dt))

/-- R144 (XFER): one transaction per frame record, byte 0 first, on the family's line; then the next frame in PerStage mode
while there is one, else RELEASING. D11, D12. -/
def Obligations.FrameIsSentAsOneTransaction : Prop :=
  ∀ (i : Instr) (b0 b1 b2 b3 : Byte) (bytes : Frame) (s : State) (dt : Nat),
    (i = .frm3 b0 b1 b2 ∧ bytes = [b0, b1, b2]) ∨ (i = .frm4 b0 b1 b2 b3 ∧ bytes = [b0, b1, b2, b3]) →
    s.phase = .framing → s.arrival.resp = some (.ok dt) →
    exec i s = .next
      (if s.cfg.acqMode = .perStage ∧ s.k.toNat + 1 < storeNfrm s.word s.i.toNat s.j.toNat then
        { s.heard (.xfer (famLine (storeFam s.word s.i.toNat)) bytes .ok) dt with k := s.k + 1 }
      else { s.heard (.xfer (famLine (storeFam s.word s.i.toNat)) bytes .ok) dt with phase := .releasing })

/-- R144, R234, R236: a failed transfer is a TransportFailure; by default the bus stays owned, with RELEASE_ON_ABORT one `Rel`
follows and the bus is free. D21, D22; the time of that `Rel` is the model's choice (log 13) and is not stated. -/
def Obligations.FailedTransferIsFatal : Prop :=
  ∀ (i : Instr) (b0 b1 b2 b3 : Byte) (bytes : Frame) (s : State) (dt : Nat),
    (i = .frm3 b0 b1 b2 ∧ bytes = [b0, b1, b2]) ∨ (i = .frm4 b0 b1 b2 b3 ∧ bytes = [b0, b1, b2, b3]) →
    s.phase = .framing → s.arrival.resp = some (.fail dt) → ∃ t, exec i s = .next t ∧
      t.phase = .fatal ∧ t.cause = .transportFailure ∧ t.i = s.i ∧ t.j = s.j ∧ t.k = s.k ∧ t.mux = s.mux ∧
      t.cfg = s.cfg ∧ t.rom = s.rom ∧
      (s.cfg.releaseOnAbort = false → t.busOwned = s.busOwned ∧
        t.trace = (s.heard (.xfer (famLine (storeFam s.word s.i.toNat)) bytes .fail) dt).trace) ∧
      (s.cfg.releaseOnAbort = true → t.busOwned = false ∧
        t.events = s.events ++ [.xfer (famLine (storeFam s.word s.i.toNat)) bytes .fail, .rel])

/-- R150: in DONE the core issues nothing and holds everything; the record END idles. D33. -/
def Obligations.EndHoldsEverything : Prop :=
  ∀ s : State, s.phase = .done → exec .endRec s = .next s.waited

/-- R141: the kind of a stage changes nothing the sequencer does. D17. -/
def Obligations.StageKindPlaysNoPart : Prop :=
  ∀ (n : BitVec 8) (d : Option Millis) (s : State),
    exec (.stgProv n d) s = exec (.stgSingle n d) s ∧ exec (.stgFinal n d) s = exec (.stgSingle n d) s

/-- R13, R286: without a response the operation of a record stays outstanding and nothing changes. -/
def Obligations.RecordWaitsForItsResponse : Prop :=
  ∀ (i : Instr) (s : State), s.arrival.resp = none →
    ((s.phase = .selecting ∧ i.place = .fam) ∨
     ((s.phase = .acquiring ∨ s.phase = .configuring ∨ s.phase = .releasing) ∧ i.place = .stg) ∨
     (s.phase = .framing ∧ (i.place = .frm false ∨ i.place = .frm true)) ∨
     (s.phase = .settling ∧
       ∃ n ms, i = .stgSingle n (some ms) ∨ i = .stgProv n (some ms) ∨ i = .stgFinal n (some ms)) ∨
     (s.phase = .fsettling ∧ ∃ n ms, i = .hdr n (some ms))) →
    exec i s = .next s.waited

/-! ## Frames: what a record leaves unchanged -/

/-- R61, R78, R32: no record writes the program store, byte by byte, or a build parameter; each uses up one arrival (log 1). -/
def Obligations.NoRecordWritesStoreOrParameters : Prop :=
  ∀ (i : Instr) (s t : State), exec i s = .next t →
    (∀ a, Memory.read t.rom a = Memory.read s.rom a) ∧ t.rom = s.rom ∧ t.cfg = s.cfg ∧ t.arrivals = s.arrivals.tail

/-- What HDR leaves: the lines and the bus; outside a failed delay the cause. (R140, R218, R27, R28, R29) -/
def Obligations.HdrLeavesLinesAndBus : Prop :=
  ∀ (n : BitVec 4) (d : Option Millis) (s t : State), exec (.hdr n d) s = .next t →
    t.mux = s.mux ∧ t.busOwned = s.busOwned ∧ t.draws = s.draws ∧ s.trace <+: t.trace ∧
    (t.phase ≠ .fatal → t.cause = s.cause)

/-- What FAM leaves: the family index and the bus; outside a rejection the cause, and outside a grant of the lines the stage
and frame index. (R130, R28, R29) -/
def Obligations.FamLeavesFamilyIndexAndBus : Prop :=
  ∀ (f : DeviceFamily) (m : MuxCode) (w4 : Bool) (l : BitVec 2) (sp : SpiConfig) (n : BitVec 4) (s t : State),
    exec (.fam f m w4 l sp n) s = .next t →
    t.i = s.i ∧ t.busOwned = s.busOwned ∧ s.trace <+: t.trace ∧ (t.phase ≠ .fatal → t.cause = s.cause) ∧
    (t.phase ≠ .acquiring → t.j = s.j ∧ t.k = s.k) ∧ (t.phase = .selecting → t.mux = s.mux)

/-- What a stage record leaves: the lines always; the bus but in ACQ and REL; the position but after REL and SLP; outside a
failed delay the cause. (R141 to R149, R27, R28, R29) -/
def Obligations.StageLeavesLines : Prop :=
  ∀ (i : Instr) (n : BitVec 8) (d : Option Millis) (s t : State),
    i = .stgSingle n d ∨ i = .stgProv n d ∨ i = .stgFinal n d → exec i s = .next t →
    t.mux = s.mux ∧ t.draws = s.draws ∧ s.trace <+: t.trace ∧ (t.phase ≠ .fatal → t.cause = s.cause) ∧
    (s.phase = .configuring ∨ s.phase = .settling → t.busOwned = s.busOwned) ∧
    (s.phase = .acquiring ∨ s.phase = .configuring → t.i = s.i ∧ t.j = s.j ∧ t.k = s.k)

/-- What a frame record leaves: lines, family and stage index; the bus but on an abort with RELEASE_ON_ABORT; outside a failed
transfer the cause. (R144, R236, R27, R28, R29) -/
def Obligations.FrameLeavesLinesAndStage : Prop :=
  ∀ (i : Instr) (b0 b1 b2 b3 : Byte) (s t : State), i = .frm3 b0 b1 b2 ∨ i = .frm4 b0 b1 b2 b3 → exec i s = .next t →
    t.mux = s.mux ∧ t.i = s.i ∧ t.j = s.j ∧ t.draws = s.draws ∧ s.trace <+: t.trace ∧
    (t.phase ≠ .fatal → t.cause = s.cause ∧ t.busOwned = s.busOwned)

/-! ## The step -/

/-- R13, R155, R104: the step runs the record that the word at `pp` is in its place; before `start`, in FATAL and on reset
there is none. -/
def Obligations.StepRunsTheFetchedRecord : Prop :=
  (∀ (s : State) (p : Place) (i : Instr), s.arrival.reset = false → (s.phase = .idle → s.arrival.start = true) →
    s.place = some p → s.pp < s.cfg.romWords → decodeAt p (s.word s.pp) = .ok i → step s = exec i s) ∧
  (∀ s : State, s.arrival.reset = false → s.phase = .idle → s.arrival.start = false → step s = .next s.waited)

/-- No step is refused as one of a record out of its place (the model's own refusal `outOfPlace`, log 11: the spec has no such
step, since R92 decides a word's kind by its place), and none as one of a record without a meaning (`notModelled`). -/
def Obligations.StepNeverAppliesARecordOutOfPlace : Prop :=
  ∀ (s : State) (r : Refusal), step s = .refused r →
    (∀ p, r ≠ .outOfPlace p) ∧ ∀ m, r ≠ .notModelled m

/-- R13, R33, R34, R75: where a step with an operation outstanding hears a response, the one event added records that
operation, at the time of the response, and the clock is there. With RELEASE_ON_ABORT (R236, D22) the `Rel` follows a failed
transfer, and the clock is there at least; the time of that `Rel` is log 13 and is not stated. -/
def Obligations.EventOfAStepIsTheOutstandingOperation : Prop :=
  ∀ (s t : State) (r : Response), s.arrival.reset = false → s.phase.running = true → s.arrival.resp = some r →
    step s = .next t → ∃ e, s.outstanding = some e.operation ∧
      ((t.trace = s.trace ++ [{ event := e, time := s.now + r.dt }] ∧ t.now = s.now + r.dt) ∨
        (e.operation.failure s.cfg = [e, .rel] ∧ t.events = s.events ++ [e, .rel] ∧ s.now + r.dt ≤ t.now))

/-- R286: while nothing arrives that lifts a wait, a step that has a next state changes nothing. -/
def Obligations.NothingHappensWhileNothingArrives : Prop :=
  ∀ s t : State, s.arrival.reset = false → s.arrival.start = false → s.arrival.resp = none → step s = .next t →
    t = s.waited

/-- R235: FATAL is a stop. Whatever arrives but reset, for any number of steps, no operation is outstanding, no event is added
and no field changes; `fatal` is 1 and `done` is 0. The failing event is the last of the trace, or under RELEASE_ON_ABORT (R236,
D22) one `Rel` may follow it; which of the two is FailingEventIsTheLastOfTheTrace. -/
def Obligations.FatalIsAStop : Prop :=
  (∀ (s : State) (n : Nat), s.phase = .fatal → (∀ a ∈ s.arrivals.take n, a.reset = false) →
    Host.Core.run Sys2Proof.core n s = .next { s with arrivals := s.arrivals.drop n }) ∧
  (∀ s : State, s.phase = .fatal → s.outstanding = none ∧ s.fatal = true ∧ s.done = false) ∧
  (∀ s : State, s.phase = .fatal → s.traceOk →
    ∃ es e, e.failed = true ∧ (s.events = es ++ [e] ∨ (s.cfg.releaseOnAbort = true ∧ s.events = es ++ [e, .rel])))

/-- R162, R235 over a run: with RELEASE_ON_ABORT false, after a failed transfer the failing event is the last of the trace, the
core is in FATAL with cause 1 and `done` 0, and any number of further steps without reset leaves it so. -/
def Obligations.NothingFollowsAFailedTransfer : Prop :=
  ∀ (s t : State) (dt n : Nat), s.phase = .framing → s.arrival.reset = false → s.arrival.resp = some (.fail dt) →
    s.cfg.releaseOnAbort = false → step s = .next t → (∀ a ∈ t.arrivals.take n, a.reset = false) →
    Host.Core.run Sys2Proof.core n t = .next { t with arrivals := t.arrivals.drop n } ∧
    t.phase = .fatal ∧ t.cause.code = 1 ∧ t.done = false ∧
    ∃ line bytes, t.events = s.events ++ [.xfer line bytes .fail]

/-- R31: every field of the STATUS view. D28. -/
def Obligations.StatusShowsTheState : Prop :=
  ∀ s : State, slice s.status 0 4 = s.phase.code ∧ slice s.status 4 2 = s.cause.code ∧
    bitOf s.status 6 = s.busOwned ∧ slice s.status 7 2 = s.mux ∧ slice s.status 9 3 = s.i ∧
    slice s.status 12 4 = s.j ∧ slice s.status 16 8 = s.k ∧ slice s.status 24 8 = 0

/-! ## Invariants and whole runs -/

/-- R38 with what makes it inductive (`State.Inv`; the clause `progress` is read from R140 and R144 to R149, the clause `store`
is log 8): every step keeps it. -/
def Obligations.EveryStepKeepsTheInvariant : Prop :=
  ∀ s t : State, s.Inv → step s = .next t → t.Inv

/-- The invariant holds after reset on hardware with any parameters, the store in canonical form (log 4); and with any store
loaded. -/
def Obligations.ResetMeetsTheInvariant : Prop :=
  (∀ p : Parameters, Memory.wf p.rom = true → (State.resetWith p).Inv) ∧
  State.reset.Inv ∧ ∀ ws : List Word, (State.reset.loadStore ws).Inv

/-- R280, R100, R244: with an accepted store and answers that keep the collaborators' duties, a step never faults and is never
refused. -/
def Obligations.AdmittedStepsAlwaysGoOn : Prop :=
  ∀ s : State, s.Inv → s.storeAccepted → s.arrivalAdmitted → ∃ t, step s = .next t

/-- R21, R154: within a run the position only moves forward, and no counter wraps. -/
def Obligations.PositionOnlyMovesForward : Prop :=
  ∀ s t : State, s.Inv → s.arrival.reset = false → step s = .next t → s.posLe t

/-- R152, R157, R158, R162: at every point of a run the untimed trace is exactly what the loop of R152 demands, in both
ACQ modes, and after a failure that and the failing event; every step keeps it. -/
def Obligations.EveryStepKeepsTheTraceOfTheProgram : Prop :=
  (∀ s t : State, s.Inv → s.traceOk → step s = .next t → t.traceOk) ∧ ∀ p : Parameters, (State.resetWith p).traceOk

/-- R153, R157: outside FATAL the trace is a prefix of the program's events, a proper one while an operation is outstanding, and
all of it in DONE; so a run has as many events as the profile fixes. -/
def Obligations.TraceIsAPrefixOfTheProgram : Prop :=
  ∀ s : State, s.Inv → s.traceOk → s.phase ≠ .fatal →
    s.events <+: programEvents s.cfg.acqMode s.word ∧
    (s.phase.running = true → s.events.length < (programEvents s.cfg.acqMode s.word).length) ∧
    (s.phase = .done → s.events = programEvents s.cfg.acqMode s.word)

/-- R157: in a run that reaches DONE the payloads sent are the table, in table order, each once, each with response ok. -/
def Obligations.CompletedRunSentTheTableInOrder : Prop :=
  ∀ s : State, s.traceOk → s.completed →
    framesSent s.events = tableFrames s.word ∧
    ∀ line bytes r, Event.xfer line bytes r ∈ s.events → r = .ok

/-- R163: the numbers of events of a run that reaches DONE, in both ACQ modes. -/
def Obligations.CompletedRunHasTheCountedEvents : Prop :=
  ∀ s : State, s.traceOk → s.completed →
    countEvents Event.isSel s.events = s.nord ∧
    countEvents Event.isXfer s.events = frameCount s.word ∧
    countEvents Event.isSlp s.events = delayCount s.word + (if s.ifd.isSome then s.nord - 1 else 0) ∧
    countEvents Event.isAcq s.events =
      (match s.cfg.acqMode with
       | .perStage => stageCount s.word
       | .perFrame => frameCount s.word) ∧
    countEvents Event.isCfg s.events = countEvents Event.isAcq s.events ∧
    countEvents Event.isRel s.events = countEvents Event.isAcq s.events

/-- R158: whenever a step adds a transfer, the lines hold the family's code and keep it, and the last SEL before it is that
family's, with response ok. -/
def Obligations.TransferSeesItsFamilySelected : Prop :=
  ∀ (s t : State) (line : BitVec 2) (bytes : Frame) (r : Answer), s.Inv → s.traceOk → step s = .next t →
    Event.xfer line bytes r ∈ t.events.drop s.events.length →
    s.mux = famMux (storeFam s.word s.i.toNat) ∧ t.mux = s.mux ∧
    (s.events.filter Event.isSel).getLast? = some (.sel (famMux (storeFam s.word s.i.toNat)) .ok)

/-- R160: in a run that reaches DONE, `Acq` and `Rel` alternate from `Acq` on, `Cfg` and `Xfer` lie inside a pair, `Sel` and
`Slp` outside, and there are as many `Acq` as `Rel`. `busRun` reads the events one by one and fails at the first that breaks
this. The premise says only that the trace is the program's (R152), which every step keeps. -/
def Obligations.BusPairsOfACompletedRunAreBalanced : Prop :=
  ∀ s : State, s.traceOk → s.completed →
    busRun s.events false = some false ∧ countEvents Event.isAcq s.events = countEvents Event.isRel s.events

/-- R160 at every point of a run, FATAL included: `busOk` is kept by every step and holds after reset. -/
def Obligations.EveryStepKeepsTheBusDiscipline : Prop :=
  (∀ s t : State, s.Inv → s.busOk → step s = .next t → t.busOk) ∧ ∀ p : Parameters, (State.resetWith p).busOk

/-- R159, R211, R219: by the time the first transfer of a stage can be issued, the delay declared by the stage before it, and
across a family boundary also the inter-family delay, has passed since the last transfer; every step keeps it. -/
def Obligations.EveryStepServesTheDeclaredDelays : Prop :=
  (∀ s t : State, s.Inv → s.delaysOk → step s = .next t → t.delaysOk) ∧
  ∀ p : Parameters, (State.resetWith p).delaysOk

/-- R159: the first transfer of a stage comes at least the declared delay after the last transfer before it; across a family
boundary that of the last stage and the inter-family delay. -/
def Obligations.TransferComesAfterItsDelay : Prop :=
  ∀ (s t : State) (e : TraceEntry) (t1 : Nat), s.Inv → s.delaysOk → step s = .next t → s.k = 0 →
    e ∈ t.trace.drop s.trace.length → e.event.isXfer = true → lastXferTime s.trace = some t1 →
    t1 + gapBefore s.word s.i.toNat s.j.toNat ≤ e.time

/-- R161, R134: the untimed trace depends on no selector line, no clock and no duration. Two states that differ in these only,
hearing the same things but for their times, take the same step. -/
def Obligations.UntimedRunDependsOnNoTimeAndNoLine : Prop :=
  ∀ s t s' : State, SameUntimed s t → s.arrival.sameKind t.arrival → t.arrivalAdmitted → step s = .next s' →
    ∃ t', step t = .next t' ∧ SameUntimed s' t'

/-! ## Parameters and inputs -/

/-- R32, R61: the parameters and the response are arguments of the step relation `coreStep` and no state of the core. A step of
the host's interface, which takes the bundle of all three (log 1, log 6), is a step of that relation on the bundle's parameters
and its next arrival; and for the life of the hardware, in any number of steps, the parameters stay. -/
def Obligations.StepTakesParametersAndInputAsArguments : Prop :=
  (∀ (s : State) (c : CoreState), coreStep s.toParameters s.arrival s.toCoreState = .next c →
    step s = .next { toCoreState := c, toParameters := s.toParameters, arrivals := s.arrivals.tail }) ∧
  (∀ s t : State, step s = .next t → coreStep s.toParameters s.arrival s.toCoreState = .next t.toCoreState) ∧
  (∀ (n : Nat) (s t : State), Host.Core.run Sys2Proof.core n s = .next t →
    t.toParameters = s.toParameters ∧ t.arrivals = s.arrivals.drop n)

/-- R235, R236: after a failure the failing event is the last of the trace; only after a failed transfer under RELEASE_ON_ABORT
(D22) is it the last but one, and the last is `Rel`. -/
def Obligations.FailingEventIsTheLastOfTheTrace : Prop :=
  ∀ s : State, s.phase = .fatal → s.traceOk →
    (s.cfg.releaseOnAbort = false ∨ s.cause ≠ .transportFailure → ∃ es e, e.failed = true ∧ s.events = es ++ [e]) ∧
    (s.cfg.releaseOnAbort = true → s.cause = .transportFailure →
      ∃ es line bytes, s.events = es ++ [.xfer line bytes .fail, .rel])
end

