-- ==== Sys2Proof/Laws/Bits.lean ====
section
/-! SUPPORT. Fields of concatenated words, and the fields of each encoded record. -/

namespace Sys2Proof

theorem extract_low {n m : Nat} (x : BitVec n) (y : BitVec m) (lo len : Nat) (h : lo + len ≤ m) :
    (x ++ y).extractLsb' lo len = y.extractLsb' lo len := by
  ext i hi
  simp only [BitVec.getElem_extractLsb', BitVec.getLsbD_append]
  rw [if_pos]
  omega

theorem extract_high {n m : Nat} (x : BitVec n) (y : BitVec m) (lo len : Nat) (h : m ≤ lo) :
    (x ++ y).extractLsb' lo len = x.extractLsb' (lo - m) len := by
  ext i hi
  simp only [BitVec.getElem_extractLsb', BitVec.getLsbD_append]
  rw [if_neg (by omega)]
  congr 1
  omega

theorem bit_low {n m : Nat} (x : BitVec n) (y : BitVec m) (b : Nat) (h : b < m) : (x ++ y).getLsbD b = y.getLsbD b := by
  rw [BitVec.getLsbD_append, if_pos h]

theorem bit_high {n m : Nat} (x : BitVec n) (y : BitVec m) (b : Nat) (h : m ≤ b) :
    (x ++ y).getLsbD b = x.getLsbD (b - m) := by
  rw [BitVec.getLsbD_append, if_neg (by omega)]

/-! ### HDR -/

section
variable (n : BitVec 4) (d : Option Millis)

@[simp] theorem tagOf_encodeHdr : tagOf (encodeHdr n d) = 1 := by
  simp (disch := omega) only [tagOf, slice, encodeHdr, extract_high]
  simp
@[simp] theorem hdrNfam_encodeHdr : hdrNfam (encodeHdr n d) = n := by
  simp (disch := omega) only [hdrNfam, slice, encodeHdr, extract_low, extract_high]
  simp
@[simp] theorem hdrZero_encodeHdr : hdrZero (encodeHdr n d) = 0 := by
  simp (disch := omega) only [hdrZero, slice, encodeHdr, extract_low, extract_high]
  simp
@[simp] theorem hdrIfdEn_encodeHdr : hdrIfdEn (encodeHdr n d) = d.isSome := by
  simp (disch := omega) only [hdrIfdEn, bitOf, encodeHdr, delayEn, bit_low, bit_high]
  simp
@[simp] theorem hdrIfdMs_encodeHdr : hdrIfdMs (encodeHdr n d) = d.getD 0 := by
  simp (disch := omega) only [hdrIfdMs, slice, encodeHdr, delayMs, extract_low]
  simp
end

/-- An optional delay is what its enable bit and its value say. -/
@[simp] theorem delayOf_isSome_getD (d : Option Millis) : delayOf d.isSome (d.getD 0) = d := by
  cases d <;> rfl

/-! ### FAM -/

section
variable (f : DeviceFamily) (m : MuxCode) (w4 : Bool) (l : BitVec 2) (sp : SpiConfig) (n : BitVec 4)

@[simp] theorem tagOf_encodeFam : tagOf (encodeFam f m w4 l sp n) = 2 := by
  simp (disch := omega) only [tagOf, slice, encodeFam, extract_high]
  simp
@[simp] theorem famFid_encodeFam : famFid (encodeFam f m w4 l sp n) = f.number := by
  simp (disch := omega) only [famFid, slice, encodeFam, extract_low, extract_high]
  simp
@[simp] theorem famMux_encodeFam : famMux (encodeFam f m w4 l sp n) = m := by
  simp (disch := omega) only [famMux, slice, encodeFam, extract_low, extract_high]
  simp
@[simp] theorem famW4_encodeFam : famW4 (encodeFam f m w4 l sp n) = w4 := by
  simp (disch := omega) only [famW4, bitOf, encodeFam, bit_low, bit_high]
  simp
@[simp] theorem famLine_encodeFam : famLine (encodeFam f m w4 l sp n) = l := by
  simp (disch := omega) only [famLine, slice, encodeFam, extract_low, extract_high]
  simp
@[simp] theorem famSpi_encodeFam : famSpi (encodeFam f m w4 l sp n) = sp := by
  obtain ⟨c, p, h, a⟩ := sp
  simp (disch := omega) only [famSpi, slice, bitOf, encodeFam, extract_low, extract_high, bit_low, bit_high]
  simp
@[simp] theorem famNstg_encodeFam : famNstg (encodeFam f m w4 l sp n) = n := by
  simp (disch := omega) only [famNstg, slice, encodeFam, extract_low]
  simp
@[simp] theorem famZero16_encodeFam : bitOf (encodeFam f m w4 l sp n) 16 = false := by
  simp (disch := omega) only [bitOf, encodeFam, bit_low, bit_high]
  simp
@[simp] theorem famZero4_encodeFam : slice (encodeFam f m w4 l sp n) 4 4 = 0 := by
  simp (disch := omega) only [slice, encodeFam, extract_low, extract_high]
  simp
end

@[simp] theorem familyOfCode_number (f : DeviceFamily) : familyOfCode f.number = some f := by
  cases f <;> rfl

/-! ### STG -/

section
variable (kd : BitVec 2) (n : BitVec 8) (d : Option Millis)

@[simp] theorem tagOf_encodeStg : tagOf (encodeStg kd n d) = 3 := by
  simp (disch := omega) only [tagOf, slice, encodeStg, extract_high]
  simp
@[simp] theorem stgKind_encodeStg : stgKind (encodeStg kd n d) = kd := by
  simp (disch := omega) only [stgKind, slice, encodeStg, extract_low, extract_high]
  simp
@[simp] theorem stgDlyEn_encodeStg : stgDlyEn (encodeStg kd n d) = d.isSome := by
  simp (disch := omega) only [stgDlyEn, bitOf, encodeStg, delayEn, bit_low, bit_high]
  simp
@[simp] theorem stgZero_encodeStg : bitOf (encodeStg kd n d) 24 = false := by
  simp (disch := omega) only [bitOf, encodeStg, bit_low, bit_high]
  simp
@[simp] theorem stgNfrm_encodeStg : stgNfrm (encodeStg kd n d) = n := by
  simp (disch := omega) only [stgNfrm, slice, encodeStg, extract_low, extract_high]
  simp
@[simp] theorem stgDlyMs_encodeStg : stgDlyMs (encodeStg kd n d) = d.getD 0 := by
  simp (disch := omega) only [stgDlyMs, slice, encodeStg, delayMs, extract_low]
  simp
end

/-! ### Frames -/

section
variable (b0 b1 b2 b3 : Byte)

theorem frameByte_zero_append : frameByte (b0 ++ b1 ++ b2 ++ b3 : BitVec 32) 0 = b0 := by
  simp (disch := omega) only [frameByte, slice, extract_high]
  simp
theorem frameByte_one_append : frameByte (b0 ++ b1 ++ b2 ++ b3 : BitVec 32) 1 = b1 := by
  simp (disch := omega) only [frameByte, slice, extract_low, extract_high]
  simp
theorem frameByte_two_append : frameByte (b0 ++ b1 ++ b2 ++ b3 : BitVec 32) 2 = b2 := by
  simp (disch := omega) only [frameByte, slice, extract_low, extract_high]
  simp
theorem frameByte_three_append : frameByte (b0 ++ b1 ++ b2 ++ b3 : BitVec 32) 3 = b3 := by
  simp (disch := omega) only [frameByte, slice, extract_low]
  simp
end

/-- A word is its four frame bytes. -/
theorem append_frameBytes (w : Word) :
    (frameByte w 0 ++ frameByte w 1 ++ frameByte w 2 ++ frameByte w 3 : BitVec 32) = w := by
  have join (a b lo : Nat) (h : lo + b + a ≤ 32) :
      w.extractLsb' (lo + b) a ++ w.extractLsb' lo b = w.extractLsb' lo (a + b) := by
    ext i hi
    simp only [BitVec.getElem_append, BitVec.getElem_extractLsb']
    split
    · rfl
    · congr 1; omega
  have h1 : (w.extractLsb' 24 8 ++ w.extractLsb' 16 8 : BitVec 16) = w.extractLsb' 16 16 := join 8 8 16 (by omega)
  have h2 : (w.extractLsb' 16 16 ++ w.extractLsb' 8 8 : BitVec 24) = w.extractLsb' 8 24 := join 16 8 8 (by omega)
  have h3 : (w.extractLsb' 8 24 ++ w.extractLsb' 0 8 : BitVec 32) = w.extractLsb' 0 32 := join 24 8 0 (by omega)
  have h4 : w.extractLsb' 0 32 = w := by
    ext i hi
    simp
  simp only [frameByte, slice]
  exact (congrArg (fun x : BitVec 16 => (x ++ w.extractLsb' 8 8 ++ w.extractLsb' 0 8 : BitVec 32)) h1).trans
    ((congrArg (fun x : BitVec 24 => (x ++ w.extractLsb' 0 8 : BitVec 32)) h2).trans (h3.trans h4))

end Sys2Proof
end

