-- ==== Sys2Proof/Laws/State.lean ====
section
/-! SUPPORT. One lemma per field per named update of the state, so that no proof unfolds a record update; and the look-ups,
which read nothing but the store and the position. -/

namespace Sys2Proof.Machine

/-! ### consume -/

@[simp] theorem consume_phase (s : State) : (s.consume).phase = s.phase := rfl
@[simp] theorem consume_i (s : State) : (s.consume).i = s.i := rfl
@[simp] theorem consume_j (s : State) : (s.consume).j = s.j := rfl
@[simp] theorem consume_k (s : State) : (s.consume).k = s.k := rfl
@[simp] theorem consume_mux (s : State) : (s.consume).mux = s.mux := rfl
@[simp] theorem consume_busOwned (s : State) : (s.consume).busOwned = s.busOwned := rfl
@[simp] theorem consume_cause (s : State) : (s.consume).cause = s.cause := rfl
@[simp] theorem consume_trace (s : State) : (s.consume).trace = s.trace := rfl
@[simp] theorem consume_now (s : State) : (s.consume).now = s.now := rfl
@[simp] theorem consume_cfg (s : State) : (s.consume).cfg = s.cfg := rfl
@[simp] theorem consume_rom (s : State) : (s.consume).rom = s.rom := rfl
@[simp] theorem consume_arrivals (s : State) : (s.consume).arrivals = s.arrivals.tail := rfl
@[simp] theorem consume_draws (s : State) : (s.consume).draws = s.draws := rfl

/-! ### emit -/

@[simp] theorem emit_phase (s : State) (e : Event) (dt : Nat) : (s.emit e dt).phase = s.phase := rfl
@[simp] theorem emit_i (s : State) (e : Event) (dt : Nat) : (s.emit e dt).i = s.i := rfl
@[simp] theorem emit_j (s : State) (e : Event) (dt : Nat) : (s.emit e dt).j = s.j := rfl
@[simp] theorem emit_k (s : State) (e : Event) (dt : Nat) : (s.emit e dt).k = s.k := rfl
@[simp] theorem emit_mux (s : State) (e : Event) (dt : Nat) : (s.emit e dt).mux = s.mux := rfl
@[simp] theorem emit_busOwned (s : State) (e : Event) (dt : Nat) : (s.emit e dt).busOwned = s.busOwned := rfl
@[simp] theorem emit_cause (s : State) (e : Event) (dt : Nat) : (s.emit e dt).cause = s.cause := rfl
@[simp] theorem emit_trace (s : State) (e : Event) (dt : Nat) : (s.emit e dt).trace = s.trace ++ [{ event := e, time := s.now + dt }] := rfl
@[simp] theorem emit_now (s : State) (e : Event) (dt : Nat) : (s.emit e dt).now = s.now + dt := rfl
@[simp] theorem emit_cfg (s : State) (e : Event) (dt : Nat) : (s.emit e dt).cfg = s.cfg := rfl
@[simp] theorem emit_rom (s : State) (e : Event) (dt : Nat) : (s.emit e dt).rom = s.rom := rfl
@[simp] theorem emit_arrivals (s : State) (e : Event) (dt : Nat) : (s.emit e dt).arrivals = s.arrivals := rfl
@[simp] theorem emit_draws (s : State) (e : Event) (dt : Nat) : (s.emit e dt).draws = s.draws := rfl

/-! ### loseMux -/

@[simp] theorem loseMux_phase (s : State) : (s.loseMux).phase = s.phase := rfl
@[simp] theorem loseMux_i (s : State) : (s.loseMux).i = s.i := rfl
@[simp] theorem loseMux_j (s : State) : (s.loseMux).j = s.j := rfl
@[simp] theorem loseMux_k (s : State) : (s.loseMux).k = s.k := rfl
@[simp] theorem loseMux_mux (s : State) : (s.loseMux).mux = Config.freeMux s.draws := rfl
@[simp] theorem loseMux_busOwned (s : State) : (s.loseMux).busOwned = s.busOwned := rfl
@[simp] theorem loseMux_cause (s : State) : (s.loseMux).cause = s.cause := rfl
@[simp] theorem loseMux_trace (s : State) : (s.loseMux).trace = s.trace := rfl
@[simp] theorem loseMux_now (s : State) : (s.loseMux).now = s.now := rfl
@[simp] theorem loseMux_cfg (s : State) : (s.loseMux).cfg = s.cfg := rfl
@[simp] theorem loseMux_rom (s : State) : (s.loseMux).rom = s.rom := rfl
@[simp] theorem loseMux_arrivals (s : State) : (s.loseMux).arrivals = s.arrivals := rfl
@[simp] theorem loseMux_draws (s : State) : (s.loseMux).draws = s.draws + 1 := rfl

/-! ### raiseFatal -/

@[simp] theorem raiseFatal_phase (c : Cause) (s : State) : (raiseFatal c s).phase = .fatal := rfl
@[simp] theorem raiseFatal_i (c : Cause) (s : State) : (raiseFatal c s).i = s.i := rfl
@[simp] theorem raiseFatal_j (c : Cause) (s : State) : (raiseFatal c s).j = s.j := rfl
@[simp] theorem raiseFatal_k (c : Cause) (s : State) : (raiseFatal c s).k = s.k := rfl
@[simp] theorem raiseFatal_mux (c : Cause) (s : State) : (raiseFatal c s).mux = s.mux := rfl
@[simp] theorem raiseFatal_busOwned (c : Cause) (s : State) : (raiseFatal c s).busOwned = s.busOwned := rfl
@[simp] theorem raiseFatal_cause (c : Cause) (s : State) : (raiseFatal c s).cause = c := rfl
@[simp] theorem raiseFatal_trace (c : Cause) (s : State) : (raiseFatal c s).trace = s.trace := rfl
@[simp] theorem raiseFatal_now (c : Cause) (s : State) : (raiseFatal c s).now = s.now := rfl
@[simp] theorem raiseFatal_cfg (c : Cause) (s : State) : (raiseFatal c s).cfg = s.cfg := rfl
@[simp] theorem raiseFatal_rom (c : Cause) (s : State) : (raiseFatal c s).rom = s.rom := rfl
@[simp] theorem raiseFatal_arrivals (c : Cause) (s : State) : (raiseFatal c s).arrivals = s.arrivals := rfl
@[simp] theorem raiseFatal_draws (c : Cause) (s : State) : (raiseFatal c s).draws = s.draws := rfl

/-! ### resetCore -/

@[simp] theorem resetCore_phase (s : State) : (resetCore s).phase = .idle := rfl
@[simp] theorem resetCore_i (s : State) : (resetCore s).i = 0 := rfl
@[simp] theorem resetCore_j (s : State) : (resetCore s).j = 0 := rfl
@[simp] theorem resetCore_k (s : State) : (resetCore s).k = 0 := rfl
@[simp] theorem resetCore_mux (s : State) : (resetCore s).mux = Config.freeMux s.draws := rfl
@[simp] theorem resetCore_busOwned (s : State) : (resetCore s).busOwned = false := rfl
@[simp] theorem resetCore_cause (s : State) : (resetCore s).cause = .noCause := rfl
@[simp] theorem resetCore_trace (s : State) : (resetCore s).trace = [] := rfl
@[simp] theorem resetCore_now (s : State) : (resetCore s).now = s.now := rfl
@[simp] theorem resetCore_cfg (s : State) : (resetCore s).cfg = s.cfg := rfl
@[simp] theorem resetCore_rom (s : State) : (resetCore s).rom = s.rom := rfl
@[simp] theorem resetCore_arrivals (s : State) : (resetCore s).arrivals = s.arrivals := rfl
@[simp] theorem resetCore_draws (s : State) : (resetCore s).draws = s.draws + 1 := rfl

/-! ### nextFamily -/

@[simp] theorem nextFamily_phase (s : State) : (nextFamily s).phase = .selecting := rfl
@[simp] theorem nextFamily_i (s : State) : (nextFamily s).i = s.i + 1 := rfl
@[simp] theorem nextFamily_j (s : State) : (nextFamily s).j = 0 := rfl
@[simp] theorem nextFamily_k (s : State) : (nextFamily s).k = 0 := rfl
@[simp] theorem nextFamily_mux (s : State) : (nextFamily s).mux = s.mux := rfl
@[simp] theorem nextFamily_busOwned (s : State) : (nextFamily s).busOwned = s.busOwned := rfl
@[simp] theorem nextFamily_cause (s : State) : (nextFamily s).cause = s.cause := rfl
@[simp] theorem nextFamily_trace (s : State) : (nextFamily s).trace = s.trace := rfl
@[simp] theorem nextFamily_now (s : State) : (nextFamily s).now = s.now := rfl
@[simp] theorem nextFamily_cfg (s : State) : (nextFamily s).cfg = s.cfg := rfl
@[simp] theorem nextFamily_rom (s : State) : (nextFamily s).rom = s.rom := rfl
@[simp] theorem nextFamily_arrivals (s : State) : (nextFamily s).arrivals = s.arrivals := rfl
@[simp] theorem nextFamily_draws (s : State) : (nextFamily s).draws = s.draws := rfl

/-! ### loadStore -/

@[simp] theorem loadStore_phase (s : State) (ws : List Word) : (s.loadStore ws).phase = s.phase := rfl
@[simp] theorem loadStore_i (s : State) (ws : List Word) : (s.loadStore ws).i = s.i := rfl
@[simp] theorem loadStore_j (s : State) (ws : List Word) : (s.loadStore ws).j = s.j := rfl
@[simp] theorem loadStore_k (s : State) (ws : List Word) : (s.loadStore ws).k = s.k := rfl
@[simp] theorem loadStore_mux (s : State) (ws : List Word) : (s.loadStore ws).mux = s.mux := rfl
@[simp] theorem loadStore_busOwned (s : State) (ws : List Word) : (s.loadStore ws).busOwned = s.busOwned := rfl
@[simp] theorem loadStore_cause (s : State) (ws : List Word) : (s.loadStore ws).cause = s.cause := rfl
@[simp] theorem loadStore_trace (s : State) (ws : List Word) : (s.loadStore ws).trace = s.trace := rfl
@[simp] theorem loadStore_now (s : State) (ws : List Word) : (s.loadStore ws).now = s.now := rfl
@[simp] theorem loadStore_cfg (s : State) (ws : List Word) : (s.loadStore ws).cfg = s.cfg := rfl
@[simp] theorem loadStore_rom (s : State) (ws : List Word) : (s.loadStore ws).rom = s.rom.loadWords 0 ws := rfl
@[simp] theorem loadStore_arrivals (s : State) (ws : List Word) : (s.loadStore ws).arrivals = s.arrivals := rfl
@[simp] theorem loadStore_draws (s : State) (ws : List Word) : (s.loadStore ws).draws = s.draws := rfl

/-! ### releaseOnAbort -/

@[simp] theorem releaseOnAbort_mux (s : State) : (releaseOnAbort s).mux = s.mux := by
  unfold releaseOnAbort; split <;> rfl
@[simp] theorem releaseOnAbort_cause (s : State) : (releaseOnAbort s).cause = s.cause := by
  unfold releaseOnAbort; split <;> rfl
@[simp] theorem releaseOnAbort_cfg (s : State) : (releaseOnAbort s).cfg = s.cfg := by
  unfold releaseOnAbort; split <;> rfl
@[simp] theorem releaseOnAbort_rom (s : State) : (releaseOnAbort s).rom = s.rom := by
  unfold releaseOnAbort; split <;> rfl
@[simp] theorem releaseOnAbort_arrivals (s : State) : (releaseOnAbort s).arrivals = s.arrivals := by
  unfold releaseOnAbort; split <;> rfl
@[simp] theorem releaseOnAbort_draws (s : State) : (releaseOnAbort s).draws = s.draws := by
  unfold releaseOnAbort; split <;> rfl
@[simp] theorem releaseOnAbort_i (s : State) : (releaseOnAbort s).i = s.i := by
  unfold releaseOnAbort; split <;> rfl
@[simp] theorem releaseOnAbort_j (s : State) : (releaseOnAbort s).j = s.j := by
  unfold releaseOnAbort; split <;> rfl
@[simp] theorem releaseOnAbort_k (s : State) : (releaseOnAbort s).k = s.k := by
  unfold releaseOnAbort; split <;> rfl
@[simp] theorem releaseOnAbort_phase (s : State) : (releaseOnAbort s).phase = s.phase := by
  unfold releaseOnAbort; split <;> rfl
@[simp] theorem releaseOnAbort_now (s : State) : (releaseOnAbort s).now = s.now := by
  unfold releaseOnAbort; split <;> rfl
@[simp] theorem releaseOnAbort_trace (s : State) : (releaseOnAbort s).trace =
    s.trace ++ (if s.cfg.releaseOnAbort then [{ event := .rel, time := s.now }] else []) := by
  unfold releaseOnAbort; split <;> simp
@[simp] theorem releaseOnAbort_busOwned (s : State) :
    (releaseOnAbort s).busOwned = (s.busOwned && !s.cfg.releaseOnAbort) := by
  unfold releaseOnAbort; split <;> simp_all

/-! ### familyEnd: what no move of the position changes -/

@[simp] theorem familyEnd_mux (s : State) : (familyEnd s).mux = s.mux := by
  unfold familyEnd; split
  · split <;> rfl
  · rfl
@[simp] theorem familyEnd_busOwned (s : State) : (familyEnd s).busOwned = s.busOwned := by
  unfold familyEnd; split
  · split <;> rfl
  · rfl
@[simp] theorem familyEnd_cause (s : State) : (familyEnd s).cause = s.cause := by
  unfold familyEnd; split
  · split <;> rfl
  · rfl
@[simp] theorem familyEnd_trace (s : State) : (familyEnd s).trace = s.trace := by
  unfold familyEnd; split
  · split <;> rfl
  · rfl
@[simp] theorem familyEnd_now (s : State) : (familyEnd s).now = s.now := by
  unfold familyEnd; split
  · split <;> rfl
  · rfl
@[simp] theorem familyEnd_cfg (s : State) : (familyEnd s).cfg = s.cfg := by
  unfold familyEnd; split
  · split <;> rfl
  · rfl
@[simp] theorem familyEnd_rom (s : State) : (familyEnd s).rom = s.rom := by
  unfold familyEnd; split
  · split <;> rfl
  · rfl
@[simp] theorem familyEnd_arrivals (s : State) : (familyEnd s).arrivals = s.arrivals := by
  unfold familyEnd; split
  · split <;> rfl
  · rfl
@[simp] theorem familyEnd_draws (s : State) : (familyEnd s).draws = s.draws := by
  unfold familyEnd; split
  · split <;> rfl
  · rfl

/-! ### nextStage: what no move of the position changes -/

@[simp] theorem nextStage_mux (s : State) : (nextStage s).mux = s.mux := by
  unfold nextStage; split
  · rfl
  · simp
@[simp] theorem nextStage_busOwned (s : State) : (nextStage s).busOwned = s.busOwned := by
  unfold nextStage; split
  · rfl
  · simp
@[simp] theorem nextStage_cause (s : State) : (nextStage s).cause = s.cause := by
  unfold nextStage; split
  · rfl
  · simp
@[simp] theorem nextStage_trace (s : State) : (nextStage s).trace = s.trace := by
  unfold nextStage; split
  · rfl
  · simp
@[simp] theorem nextStage_now (s : State) : (nextStage s).now = s.now := by
  unfold nextStage; split
  · rfl
  · simp
@[simp] theorem nextStage_cfg (s : State) : (nextStage s).cfg = s.cfg := by
  unfold nextStage; split
  · rfl
  · simp
@[simp] theorem nextStage_rom (s : State) : (nextStage s).rom = s.rom := by
  unfold nextStage; split
  · rfl
  · simp
@[simp] theorem nextStage_arrivals (s : State) : (nextStage s).arrivals = s.arrivals := by
  unfold nextStage; split
  · rfl
  · simp
@[simp] theorem nextStage_draws (s : State) : (nextStage s).draws = s.draws := by
  unfold nextStage; split
  · rfl
  · simp

/-! ### stageEnd: what no move of the position changes -/

@[simp] theorem stageEnd_mux (d : Option Millis) (s : State) : (stageEnd d s).mux = s.mux := by
  unfold stageEnd; split
  · rfl
  · simp
@[simp] theorem stageEnd_busOwned (d : Option Millis) (s : State) : (stageEnd d s).busOwned = s.busOwned := by
  unfold stageEnd; split
  · rfl
  · simp
@[simp] theorem stageEnd_cause (d : Option Millis) (s : State) : (stageEnd d s).cause = s.cause := by
  unfold stageEnd; split
  · rfl
  · simp
@[simp] theorem stageEnd_trace (d : Option Millis) (s : State) : (stageEnd d s).trace = s.trace := by
  unfold stageEnd; split
  · rfl
  · simp
@[simp] theorem stageEnd_now (d : Option Millis) (s : State) : (stageEnd d s).now = s.now := by
  unfold stageEnd; split
  · rfl
  · simp
@[simp] theorem stageEnd_cfg (d : Option Millis) (s : State) : (stageEnd d s).cfg = s.cfg := by
  unfold stageEnd; split
  · rfl
  · simp
@[simp] theorem stageEnd_rom (d : Option Millis) (s : State) : (stageEnd d s).rom = s.rom := by
  unfold stageEnd; split
  · rfl
  · simp
@[simp] theorem stageEnd_arrivals (d : Option Millis) (s : State) : (stageEnd d s).arrivals = s.arrivals := by
  unfold stageEnd; split
  · rfl
  · simp
@[simp] theorem stageEnd_draws (d : Option Millis) (s : State) : (stageEnd d s).draws = s.draws := by
  unfold stageEnd; split
  · rfl
  · simp

/-! ### afterFrame: what no move of the position changes -/

@[simp] theorem afterFrame_mux (s : State) : (afterFrame s).mux = s.mux := by
  unfold afterFrame; split <;> rfl
@[simp] theorem afterFrame_busOwned (s : State) : (afterFrame s).busOwned = s.busOwned := by
  unfold afterFrame; split <;> rfl
@[simp] theorem afterFrame_cause (s : State) : (afterFrame s).cause = s.cause := by
  unfold afterFrame; split <;> rfl
@[simp] theorem afterFrame_trace (s : State) : (afterFrame s).trace = s.trace := by
  unfold afterFrame; split <;> rfl
@[simp] theorem afterFrame_now (s : State) : (afterFrame s).now = s.now := by
  unfold afterFrame; split <;> rfl
@[simp] theorem afterFrame_cfg (s : State) : (afterFrame s).cfg = s.cfg := by
  unfold afterFrame; split <;> rfl
@[simp] theorem afterFrame_rom (s : State) : (afterFrame s).rom = s.rom := by
  unfold afterFrame; split <;> rfl
@[simp] theorem afterFrame_arrivals (s : State) : (afterFrame s).arrivals = s.arrivals := by
  unfold afterFrame; split <;> rfl
@[simp] theorem afterFrame_draws (s : State) : (afterFrame s).draws = s.draws := by
  unfold afterFrame; split <;> rfl

/-! ### afterRelease: what no move of the position changes -/

@[simp] theorem afterRelease_mux (n : BitVec 8) (d : Option Millis) (s : State) : (afterRelease n d s).mux = s.mux := by
  unfold afterRelease; split
  · rfl
  · simp
@[simp] theorem afterRelease_busOwned (n : BitVec 8) (d : Option Millis) (s : State) : (afterRelease n d s).busOwned = s.busOwned := by
  unfold afterRelease; split
  · rfl
  · simp
@[simp] theorem afterRelease_cause (n : BitVec 8) (d : Option Millis) (s : State) : (afterRelease n d s).cause = s.cause := by
  unfold afterRelease; split
  · rfl
  · simp
@[simp] theorem afterRelease_trace (n : BitVec 8) (d : Option Millis) (s : State) : (afterRelease n d s).trace = s.trace := by
  unfold afterRelease; split
  · rfl
  · simp
@[simp] theorem afterRelease_now (n : BitVec 8) (d : Option Millis) (s : State) : (afterRelease n d s).now = s.now := by
  unfold afterRelease; split
  · rfl
  · simp
@[simp] theorem afterRelease_cfg (n : BitVec 8) (d : Option Millis) (s : State) : (afterRelease n d s).cfg = s.cfg := by
  unfold afterRelease; split
  · rfl
  · simp
@[simp] theorem afterRelease_rom (n : BitVec 8) (d : Option Millis) (s : State) : (afterRelease n d s).rom = s.rom := by
  unfold afterRelease; split
  · rfl
  · simp
@[simp] theorem afterRelease_arrivals (n : BitVec 8) (d : Option Millis) (s : State) : (afterRelease n d s).arrivals = s.arrivals := by
  unfold afterRelease; split
  · rfl
  · simp
@[simp] theorem afterRelease_draws (n : BitVec 8) (d : Option Millis) (s : State) : (afterRelease n d s).draws = s.draws := by
  unfold afterRelease; split
  · rfl
  · simp

@[simp] theorem afterFrame_i (s : State) : (afterFrame s).i = s.i := by
  unfold afterFrame; split <;> rfl
@[simp] theorem afterFrame_j (s : State) : (afterFrame s).j = s.j := by
  unfold afterFrame; split <;> rfl

/-! ### Look-ups depend on the store and the position only -/

theorem word_eq (s : State) : s.word = s.rom.readWord := rfl
theorem word_congr {s t : State} (hr : t.rom = s.rom) : t.word = s.word := by
  unfold State.word; rw [hr]
theorem nord_congr {s t : State} (hr : t.rom = s.rom) : t.nord = s.nord := by
  unfold State.nord State.word; rw [hr]
theorem ifd_congr {s t : State} (hr : t.rom = s.rom) : t.ifd = s.ifd := by
  unfold State.ifd State.word; rw [hr]
theorem nstg_congr {s t : State} (hr : t.rom = s.rom) (hi : t.i = s.i) : t.nstg = s.nstg := by
  unfold State.nstg State.word; rw [hr, hi]
theorem famMux_congr {s t : State} (hr : t.rom = s.rom) (hi : t.i = s.i) : t.famMux = s.famMux := by
  unfold State.famMux State.word; rw [hr, hi]
theorem famLine_congr {s t : State} (hr : t.rom = s.rom) (hi : t.i = s.i) : t.famLine = s.famLine := by
  unfold State.famLine State.word; rw [hr, hi]
theorem famSpi_congr {s t : State} (hr : t.rom = s.rom) (hi : t.i = s.i) : t.famSpi = s.famSpi := by
  unfold State.famSpi State.word; rw [hr, hi]
theorem famW4_congr {s t : State} (hr : t.rom = s.rom) (hi : t.i = s.i) : t.famW4 = s.famW4 := by
  unfold State.famW4 State.word; rw [hr, hi]
theorem nfrm_congr {s t : State} (hr : t.rom = s.rom) (hi : t.i = s.i) (hj : t.j = s.j) : t.nfrm = s.nfrm := by
  unfold State.nfrm State.word; rw [hr, hi, hj]
theorem delay_congr {s t : State} (hr : t.rom = s.rom) (hi : t.i = s.i) (hj : t.j = s.j) : t.delay = s.delay := by
  unfold State.delay State.word; rw [hr, hi, hj]
theorem frame_congr {s t : State} (hr : t.rom = s.rom) (hi : t.i = s.i) (hj : t.j = s.j) (hk : t.k = s.k) : t.frame = s.frame := by
  unfold State.frame State.word; rw [hr, hi, hj, hk]

end Sys2Proof.Machine
end

