-- ==== Sys2Proof/Laws/Bundle.lean ====
section
/-! SUPPORT. The bundle of the host's interface: a record reads one arrival, uses it up, and touches no parameter, so that the
step of the interface, built from `coreStep`, is `cycle exec` on the bundle (`step_eq_cycle`). -/

namespace Sys2Proof.Machine

variable {s t u : State}

/-- A step's outcome with one arrival at hand, back in the bundle `s`. -/
def relay (s : State) : Result → Result
  | .next t => .next { toCoreState := t.toCoreState, toParameters := s.toParameters, arrivals := s.arrivals.tail }
  | .fault f => .fault f
  | .refused r => .refused r

/-- `s` as `coreStep` hands it to the record: with the next arrival alone. -/
def State.alone (s : State) : State := { s with arrivals := [s.arrival] }

/-- Two bundles with one core state and one set of parameters. -/
def SameCore (t u : State) : Prop := t.toCoreState = u.toCoreState ∧ t.toParameters = u.toParameters

theorem sameCore_alone (s : State) : SameCore s.alone s := ⟨rfl, rfl⟩

theorem relay_next (h : SameCore t u) (hp : u.toParameters = s.toParameters) (ha : u.arrivals = s.arrivals.tail) :
    relay s (.next t) = .next u := by
  obtain ⟨uc, up, ua⟩ := u
  obtain ⟨rfl, -⟩ := h
  obtain rfl : up = s.toParameters := hp
  obtain rfl : ua = s.arrivals.tail := ha
  rfl

/-! ### Moves read the core and the parameters only -/

theorem nextStage_sameCore (h : SameCore t u) : SameCore (nextStage t) (nextStage u) := by
  obtain ⟨tc, tp, ta⟩ := t
  obtain ⟨uc, up, ua⟩ := u
  obtain ⟨rfl, rfl⟩ := h
  have hn : State.nstg ⟨tc, tp, ta⟩ = State.nstg ⟨tc, tp, ua⟩ := rfl
  have hr : State.nord ⟨tc, tp, ta⟩ = State.nord ⟨tc, tp, ua⟩ := rfl
  have hd : State.ifd ⟨tc, tp, ta⟩ = State.ifd ⟨tc, tp, ua⟩ := rfl
  unfold nextStage familyEnd
  rw [hn, hr, hd]
  by_cases h1 : tc.j.toNat + 1 < State.nstg ⟨tc, tp, ua⟩
  · simp only [if_pos h1]
    exact ⟨rfl, rfl⟩
  · simp only [if_neg h1]
    by_cases h2 : tc.i.toNat + 1 < State.nord ⟨tc, tp, ua⟩
    · simp only [if_pos h2]
      cases State.ifd ⟨tc, tp, ua⟩ <;> exact ⟨rfl, rfl⟩
    · simp only [if_neg h2]
      exact ⟨rfl, rfl⟩

theorem afterFrame_sameCore (h : SameCore t u) : SameCore (afterFrame t) (afterFrame u) := by
  obtain ⟨tc, tp, ta⟩ := t
  obtain ⟨uc, up, ua⟩ := u
  obtain ⟨rfl, rfl⟩ := h
  have hn : State.nfrm ⟨tc, tp, ta⟩ = State.nfrm ⟨tc, tp, ua⟩ := rfl
  unfold afterFrame
  rw [hn]
  by_cases h : tp.cfg.acqMode = .perStage ∧ tc.k.toNat + 1 < State.nfrm ⟨tc, tp, ua⟩
  · simp only [if_pos h]
    exact ⟨rfl, rfl⟩
  · simp only [if_neg h]
    exact ⟨rfl, rfl⟩

theorem afterRelease_sameCore {n : BitVec 8} {d : Option Millis} (h : SameCore t u) :
    SameCore (afterRelease n d t) (afterRelease n d u) := by
  have hn := nextStage_sameCore h
  obtain ⟨tc, tp, ta⟩ := t
  obtain ⟨uc, up, ua⟩ := u
  obtain ⟨rfl, rfl⟩ := h
  simp only [afterRelease]
  by_cases h : tp.cfg.acqMode = .perFrame ∧ tc.k.toNat + 1 < n.toNat
  · simp only [if_pos h]
    exact ⟨rfl, rfl⟩
  · simp only [if_neg h]
    cases d
    · exact hn
    · exact ⟨rfl, rfl⟩

theorem releaseOnAbort_sameCore (h : SameCore t u) : SameCore (releaseOnAbort t) (releaseOnAbort u) := by
  obtain ⟨tc, tp, ta⟩ := t
  obtain ⟨uc, up, ua⟩ := u
  obtain ⟨rfl, rfl⟩ := h
  simp only [releaseOnAbort]
  cases tp.cfg.releaseOnAbort <;> exact ⟨rfl, rfl⟩

theorem raiseFatal_sameCore {c : Cause} (h : SameCore t u) : SameCore (raiseFatal c t) (raiseFatal c u) := by
  obtain ⟨tc, tp, ta⟩ := t
  obtain ⟨uc, up, ua⟩ := u
  obtain ⟨rfl, rfl⟩ := h
  exact ⟨rfl, rfl⟩

theorem parameters_eq (hc : t.cfg = s.cfg) (hr : t.rom = s.rom) : t.toParameters = s.toParameters := by
  obtain ⟨tc, ⟨c, r⟩, ta⟩ := t
  obtain rfl : c = s.cfg := hc
  obtain rfl : r = s.rom := hr
  rfl

/-! ### Operations read one arrival only -/

theorem awaitResponse_relay {k k' : Response → Result} (h : ∀ r, relay s (k' r) = k r) :
    relay s (awaitResponse s.alone k') = awaitResponse s k := by
  unfold awaitResponse
  show relay s (match s.arrival.resp with | none => _ | some r => _) = _
  cases s.arrival.resp with
  | none => rfl
  | some r => exact h r

theorem sel_relay (code : MuxCode) : relay s (sel code s.alone) = sel code s := by
  refine awaitResponse_relay fun r => ?_
  cases r
  case rejected dt =>
    show relay s (if s.cfg.selectorCanFail then _ else _) = (if s.cfg.selectorCanFail then _ else _)
    split <;> rfl
  all_goals rfl

theorem acq_relay : relay s (acq s.alone) = acq s :=
  awaitResponse_relay fun r => by cases r <;> rfl

theorem configure_relay (spi : SpiConfig) : relay s (configure spi s.alone) = configure spi s :=
  awaitResponse_relay fun r => by cases r <;> rfl

theorem xfer_relay (bytes : Frame) : relay s (xfer bytes s.alone) = xfer bytes s := by
  refine awaitResponse_relay fun r => ?_
  cases r
  case ok dt => exact relay_next (afterFrame_sameCore ⟨rfl, rfl⟩) (parameters_eq (by simp) (by simp)) (by simp)
  case fail dt =>
    exact relay_next (raiseFatal_sameCore (releaseOnAbort_sameCore ⟨rfl, rfl⟩)) (parameters_eq (by simp) (by simp)) (by simp)
  all_goals rfl

theorem rel_relay (n : BitVec 8) (d : Option Millis) : relay s (rel n d s.alone) = rel n d s := by
  refine awaitResponse_relay fun r => ?_
  cases r
  case ok dt => exact relay_next (afterRelease_sameCore ⟨rfl, rfl⟩) (parameters_eq (by simp) (by simp)) (by simp)
  all_goals rfl

theorem slp_relay {d : Millis} {after : State → State} (hs : ∀ {t u}, SameCore t u → SameCore (after t) (after u))
    (hc : ∀ t, (after t).cfg = t.cfg) (hr : ∀ t, (after t).rom = t.rom) (ha : ∀ t, (after t).arrivals = t.arrivals) :
    relay s (slp d after s.alone) = slp d after s := by
  refine awaitResponse_relay fun r => ?_
  cases r
  case elapsed dt =>
    by_cases h : d.toNat ≤ dt
    · simp only [if_pos h]
      exact relay_next (hs ⟨rfl, rfl⟩) (parameters_eq (by simp [hc]) (by simp [hr])) (by simp [ha])
    · simp only [if_neg h]
      rfl
  all_goals rfl

theorem nextFamily_sameCore (h : SameCore t u) : SameCore (nextFamily t) (nextFamily u) := by
  obtain ⟨tc, tp, ta⟩ := t
  obtain ⟨uc, up, ua⟩ := u
  obtain ⟨rfl, rfl⟩ := h
  exact ⟨rfl, rfl⟩

theorem startRun_relay (n : BitVec 4) : relay s (startRun n s.alone) = startRun n s := by
  unfold startRun
  show relay s (if s.arrival.start then (match storeCheck s.word s.cfg.romWords with | some (a, r) => _ | none => _) else _) = _
  cases s.arrival.start
  · rfl
  · cases storeCheck s.word s.cfg.romWords with
    | some ar => rfl
    | none =>
      by_cases h : n = 0
      · simp only [if_pos h, if_true]; rfl
      · simp only [if_neg h, if_true]; rfl

/-! ### Records -/

theorem runStage_relay (n : BitVec 8) (d : Option Millis) : relay s (runStage n d s.alone) = runStage n d s := by
  unfold runStage
  rw [show s.alone.phase = s.phase from rfl]
  cases s.phase
  case acquiring => exact acq_relay
  case configuring => exact configure_relay _
  case releasing => exact rel_relay _ _
  case settling =>
    cases d
    · rfl
    · exact slp_relay nextStage_sameCore (by simp) (by simp) (by simp)
  all_goals rfl

theorem execHdr_relay (n : BitVec 4) (d : Option Millis) : relay s (execHdr n d s.alone) = execHdr n d s := by
  unfold execHdr
  rw [show s.alone.phase = s.phase from rfl]
  cases s.phase
  case idle => exact startRun_relay _
  case fsettling =>
    cases d
    · rfl
    · exact slp_relay nextFamily_sameCore (by simp) (by simp) (by simp)
  all_goals rfl

theorem inPhase_relay {p : Phase} {r r' : Result} (h : relay s r' = r) : relay s (inPhase p s.alone r') = inPhase p s r := by
  unfold inPhase
  by_cases hp : s.phase = p
  · rw [if_pos hp, if_pos (show s.alone.phase = p from hp)]
    exact h
  · rw [if_neg hp, if_neg (show ¬s.alone.phase = p from hp)]
    rfl

/-- A record reads one arrival only, uses it up, and touches no parameter. -/
theorem exec_relay (i : Instr) (s : State) : relay s (exec i s.alone) = exec i s := by
  cases i with
  | hdr n d => exact execHdr_relay n d
  | fam f m w l sp n => exact inPhase_relay (sel_relay m)
  | stgSingle n d => exact runStage_relay n d
  | stgProv n d => exact runStage_relay n d
  | stgFinal n d => exact runStage_relay n d
  | frm3 b0 b1 b2 => exact inPhase_relay (xfer_relay _)
  | frm4 b0 b1 b2 b3 => exact inPhase_relay (xfer_relay _)
  | endRec => exact inPhase_relay rfl

/-- The host's step is the fetch, the decoding and the meaning on the bundle itself. -/
theorem step_eq_cycle (s : State) : step s = cycle exec s := by
  have h : step s = relay s (cycle exec s.alone) := by
    show (match coreStep s.toParameters s.arrival s.toCoreState with | .next c => _ | .fault f => _ | .refused r => _) = _
    unfold coreStep
    show _ = relay s (cycle exec { toCoreState := s.toCoreState, toParameters := s.toParameters, arrivals := [s.arrival] })
    cases cycle exec { toCoreState := s.toCoreState, toParameters := s.toParameters, arrivals := [s.arrival] } <;> rfl
  rw [h]
  unfold cycle
  show relay s (if s.arrival.reset then _ else match s.place with
    | none => _
    | some p => if s.waitsForStart then _ else if s.cfg.romWords ≤ s.pp then _ else
        match decodeAt p (s.word s.pp) with | .error r => _ | .ok i => _) = _
  cases s.arrival.reset
  · cases s.place with
    | none => rfl
    | some p =>
      cases s.waitsForStart
      · by_cases hp : s.cfg.romWords ≤ s.pp
        · simp only [if_pos hp, Bool.false_eq_true, if_false]; rfl
        · simp only [if_neg hp, Bool.false_eq_true, if_false]
          cases decodeAt p (s.word s.pp) with
          | error r => rfl
          | ok i => exact exec_relay i s
      · rfl
  · rfl

end Sys2Proof.Machine
end

