-- ==== Sys2Proof/Laws/Memory.lean ====
section
/-! SUPPORT. The program store as memory: reading after writing, and the canonical form is kept by every operation. -/

namespace Sys2Proof.Machine

/-- Below the first address of a canonical memory every byte reads as unlisted. -/
theorem Memory.read_below (m : Memory) (a : Nat) (h : ∀ c ∈ m, a < c.1) : m.read a = Memory.unlisted a := by
  induction m with
  | nil => rfl
  | cons c m ih =>
    obtain ⟨b, x⟩ := c
    have hb : a < b := h (b, x) (by simp)
    have : Memory.read ((b, x) :: m) a = Memory.read m a := by
      simp only [Memory.read]; rw [if_neg (by omega)]
    rw [this]
    exact ih fun c hc => h c (by simp [hc])

theorem Memory.wf_cons {a : Nat} {v : Byte} {m : Memory} :
    Memory.wf ((a, v) :: m) = true ↔ v ≠ Memory.unlisted a ∧ (∀ c ∈ m, a < c.1) ∧ Memory.wf m = true := by
  simp [Memory.wf, List.all_eq_true, and_assoc]

/-- A write lists no address but the old ones and its own. -/
theorem Memory.write_addresses (m : Memory) (a : Nat) (v : Byte) (b : Nat) (ha : b < a) (h : ∀ c ∈ m, b < c.1) :
    ∀ c ∈ m.write a v, b < c.1 := by
  induction m with
  | nil =>
    intro c hc
    simp only [Memory.write] at hc
    split at hc <;> simp_all
  | cons d m ih =>
    obtain ⟨e, x⟩ := d
    intro c hc
    simp only [Memory.write] at hc
    have he : b < e := h (e, x) (by simp)
    have hm : ∀ c ∈ m, b < c.1 := fun c hc => h c (by simp [hc])
    have ih := ih hm
    split at hc
    · split at hc
      · rcases List.mem_cons.1 hc with rfl | hc
        · exact he
        · exact hm c hc
      · rcases List.mem_cons.1 hc with rfl | hc
        · exact ha
        · rcases List.mem_cons.1 hc with rfl | hc
          · exact he
          · exact hm c hc
    · split at hc
      · split at hc
        · exact hm c hc
        · rcases List.mem_cons.1 hc with rfl | hc
          · exact ha
          · exact hm c hc
      · rcases List.mem_cons.1 hc with rfl | hc
        · exact he
        · exact ih c hc

theorem Memory.write_wf (m : Memory) (a : Nat) (v : Byte) (h : Memory.wf m = true) : Memory.wf (m.write a v) = true := by
  induction m with
  | nil =>
    simp only [Memory.write]
    split
    · rfl
    · next hv => exact Memory.wf_cons.2 ⟨hv, by simp, rfl⟩
  | cons d m ih =>
    obtain ⟨e, x⟩ := d
    obtain ⟨hx, hlt, hm⟩ := Memory.wf_cons.1 h
    simp only [Memory.write]
    split
    · split
      · exact h
      · next hae hv =>
        refine Memory.wf_cons.2 ⟨hv, ?_, h⟩
        intro c hc
        rcases List.mem_cons.1 hc with rfl | hc
        · exact hae
        · exact hae.trans (hlt c hc)
    · split
      · next hae =>
        subst hae
        split
        · exact hm
        · next hv => exact Memory.wf_cons.2 ⟨hv, hlt, hm⟩
      · exact Memory.wf_cons.2 ⟨hx, Memory.write_addresses m a v e (by omega) hlt, ih hm⟩

theorem Memory.read_write_same (m : Memory) (a : Nat) (v : Byte) (h : Memory.wf m = true) : (m.write a v).read a = v := by
  induction m with
  | nil =>
    simp only [Memory.write]
    split
    · next hv => simp [Memory.read, hv]
    · simp [Memory.read]
  | cons d m ih =>
    obtain ⟨e, x⟩ := d
    obtain ⟨hx, hlt, hm⟩ := Memory.wf_cons.1 h
    simp only [Memory.write]
    split
    · next hae =>
      split
      · next hv =>
        rw [hv]
        apply Memory.read_below
        intro c hc
        rcases List.mem_cons.1 hc with rfl | hc
        · exact hae
        · exact hae.trans (hlt c hc)
      · simp [Memory.read]
    · split
      · next hae =>
        subst hae
        split
        · next hv => rw [hv]; exact Memory.read_below m a hlt
        · simp [Memory.read]
      · next h1 h2 =>
        simp only [Memory.read]
        rw [if_neg (by omega)]
        exact ih hm

theorem Memory.read_write_other (m : Memory) (a b : Nat) (v : Byte) (hab : b ≠ a) : (m.write a v).read b = m.read b := by
  induction m with
  | nil =>
    simp only [Memory.write]
    split
    · rfl
    · simp only [Memory.read]; rw [if_neg (by omega)]
  | cons d m ih =>
    obtain ⟨e, x⟩ := d
    simp only [Memory.write]
    split
    · split
      · rfl
      · simp only [Memory.read]; rw [if_neg (show ¬a = b by omega)]
    · split
      · next hae =>
        subst hae
        split
        · simp only [Memory.read]; rw [if_neg (show ¬a = b by omega)]
        · simp only [Memory.read]; rw [if_neg (by omega), if_neg (by omega)]
      · simp only [Memory.read]; rw [ih]

/-! ### Words -/

theorem Memory.writeWord_wf (m : Memory) (a : Nat) (w : Word) (h : Memory.wf m = true) :
    Memory.wf (m.writeWord a w) = true :=
  Memory.write_wf _ _ _ (Memory.write_wf _ _ _ (Memory.write_wf _ _ _ (Memory.write_wf _ _ _ h)))

theorem Memory.readWord_writeWord_same (m : Memory) (a : Nat) (w : Word) (h : Memory.wf m = true) :
    (m.writeWord a w).readWord a = w := by
  have h0 := Memory.write_wf m (4 * a) (frameByte w 0) h
  have h1 := Memory.write_wf _ (4 * a + 1) (frameByte w 1) h0
  have h2 := Memory.write_wf _ (4 * a + 2) (frameByte w 2) h1
  refine Eq.trans ?_ (append_frameBytes w)
  unfold Memory.readWord Memory.writeWord
  rw [Memory.read_write_same _ (4 * a + 3) _ h2,
    Memory.read_write_other _ (4 * a + 3) (4 * a + 2) _ (by omega), Memory.read_write_same _ (4 * a + 2) _ h1,
    Memory.read_write_other _ (4 * a + 3) (4 * a + 1) _ (by omega),
    Memory.read_write_other _ (4 * a + 2) (4 * a + 1) _ (by omega), Memory.read_write_same _ (4 * a + 1) _ h0,
    Memory.read_write_other _ (4 * a + 3) (4 * a) _ (by omega),
    Memory.read_write_other _ (4 * a + 2) (4 * a) _ (by omega),
    Memory.read_write_other _ (4 * a + 1) (4 * a) _ (by omega), Memory.read_write_same _ (4 * a) _ h]

theorem Memory.readWord_writeWord_other (m : Memory) (a b : Nat) (w : Word) (hab : b ≠ a) :
    (m.writeWord a w).readWord b = m.readWord b := by
  unfold Memory.readWord Memory.writeWord
  simp (disch := omega) only [Memory.read_write_other]

theorem Memory.loadWords_wf (m : Memory) (a : Nat) (ws : List Word) (h : Memory.wf m = true) :
    Memory.wf (m.loadWords a ws) = true := by
  induction ws generalizing m a with
  | nil => exact h
  | cons w ws ih => exact ih _ _ (Memory.writeWord_wf m a w h)

theorem Memory.readWord_loadWords_before (m : Memory) (a b : Nat) (ws : List Word) (h : b < a) :
    (m.loadWords a ws).readWord b = m.readWord b := by
  induction ws generalizing m a with
  | nil => rfl
  | cons w ws ih =>
    rw [Memory.loadWords, ih _ _ (by omega), Memory.readWord_writeWord_other _ _ _ _ (by omega)]

/-- A loaded list reads back word by word. -/
theorem Memory.readWord_loadWords (m : Memory) (a n : Nat) (ws : List Word) (h : Memory.wf m = true) (hn : n < ws.length) :
    (m.loadWords a ws).readWord (a + n) = ws[n] := by
  induction ws generalizing m a n with
  | nil => simp at hn
  | cons w ws ih =>
    cases n with
    | zero =>
      simp only [Memory.loadWords, Nat.add_zero, List.getElem_cons_zero]
      rw [Memory.readWord_loadWords_before _ _ _ _ (by omega), Memory.readWord_writeWord_same _ _ _ h]
    | succ n =>
      have := ih (m.writeWord a w) (a + 1) n (Memory.writeWord_wf m a w h) (by simpa using hn)
      simp only [Memory.loadWords, List.getElem_cons_succ]
      rw [← this]
      congr 1
      omega

/-- Beyond a loaded list nothing changes. -/
theorem Memory.readWord_loadWords_after (m : Memory) (a n : Nat) (ws : List Word) (hn : ws.length ≤ n) :
    (m.loadWords a ws).readWord (a + n) = m.readWord (a + n) := by
  induction ws generalizing m a n with
  | nil => rfl
  | cons w ws ih =>
    have hl : ws.length + 1 ≤ n := by simpa using hn
    obtain ⟨k, rfl⟩ : ∃ k, n = k + 1 := ⟨n - 1, by omega⟩
    have := ih (m.writeWord a w) (a + 1) k (by omega)
    have e : a + 1 + k = a + (k + 1) := by omega
    rw [e] at this
    rw [Memory.loadWords, this, Memory.readWord_writeWord_other _ _ _ _ (by omega)]

/-- A store loaded into an empty memory is the list: every word beyond it reads 0. -/
theorem word_loadStore_reset (ws : List Word) (a : Nat) : (State.reset.loadStore ws).word a = readList ws a := by
  simp only [State.word, loadStore_rom, readList]
  show (Memory.loadWords [] 0 ws).readWord a = _
  rcases Nat.lt_or_ge a ws.length with h | h
  · have := Memory.readWord_loadWords [] 0 a ws rfl h
    rw [Nat.zero_add] at this
    rw [this]
    simp [List.getD, h]
  · have := Memory.readWord_loadWords_after [] 0 a ws h
    rw [Nat.zero_add] at this
    rw [this]
    simp [List.getD, h, Memory.readWord, Memory.read, Memory.unlisted]

theorem reset_rom_wf : Memory.wf State.reset.rom = true := rfl

end Sys2Proof.Machine
end

