-- ==== Sys2Proof/Laws/Ops.lean ====
section
/-! SUPPORT. For each shared operation, once, everything it can do when it answers a next state; and what each decoder reads. -/

namespace Sys2Proof

/-! ### Decoders -/

theorem decodeHdr_ok {w : Word} {i : Instr} (h : decodeHdr w = .ok i) :
    tagOf w = 1 ∧ hdrZero w = 0 ∧ (hdrIfdEn w = false → hdrIfdMs w = 0) ∧ i = .hdr (hdrNfam w) (hdrIfd w) := by
  unfold decodeHdr at h
  split at h
  · simp at h
  · split at h
    · simp at h
    · split at h
      · simp at h
      · simp only [Except.ok.injEq] at h
        simp_all

theorem decodeFam_ok {w : Word} {i : Instr} (h : decodeFam w = .ok i) :
    tagOf w = 2 ∧ bitOf w 16 = false ∧ slice w 4 4 = 0 ∧
      ∃ f, familyOfCode (famFid w) = some f ∧ i = .fam f (famMux w) (famW4 w) (famLine w) (famSpi w) (famNstg w) := by
  unfold decodeFam at h
  split at h
  · simp at h
  · split at h
    · simp at h
    · split at h
      · simp at h
      · simp only [Except.ok.injEq] at h
        simp_all

theorem decodeStg_ok {w : Word} {i : Instr} (h : decodeStg w = .ok i) :
    tagOf w = 3 ∧ bitOf w 24 = false ∧ (stgDlyEn w = false → stgDlyMs w = 0) ∧
      ∃ kd, kindOfCode (stgKind w) = some kd ∧ i = stageRecord kd (stgNfrm w) (stgDelay w) := by
  unfold decodeStg at h
  split at h
  · simp at h
  · split at h
    · simp at h
    · split at h
      · simp at h
      · split at h
        · simp at h
        · simp only [Except.ok.injEq] at h
          simp_all

theorem decodeFrm_ok {w4 : Bool} {w : Word} {i : Instr} (h : decodeFrm w4 w = .ok i) :
    (w4 = true ∧ i = .frm4 (frameByte w 0) (frameByte w 1) (frameByte w 2) (frameByte w 3)) ∨
      (w4 = false ∧ frameByte w 3 = 0 ∧ i = .frm3 (frameByte w 0) (frameByte w 1) (frameByte w 2)) := by
  unfold decodeFrm at h
  split at h
  · simp only [Except.ok.injEq] at h
    exact .inl ⟨by assumption, h.symm⟩
  · split at h
    · simp at h
    · simp only [Except.ok.injEq] at h
      simp_all

theorem decodeEnd_ok {w : Word} {i : Instr} (h : decodeEnd w = .ok i) : w = 0xF0000000 ∧ i = .endRec := by
  unfold decodeEnd at h
  split at h
  · simp only [Except.ok.injEq] at h
    exact ⟨by assumption, h.symm⟩
  · simp at h

namespace Machine

variable {s t : State}

/-! ### Operations -/

theorem awaitResponse_next {k : Response → Result} (h : awaitResponse s k = .next t) :
    (s.arrival.resp = none ∧ t = s.consume) ∨ ∃ r, s.arrival.resp = some r ∧ k r = .next t := by
  unfold awaitResponse at h
  split at h
  · next hr => exact .inl ⟨hr, by simpa using h.symm⟩
  · next r hr => exact .inr ⟨r, hr, h⟩

theorem inPhase_next {p : Phase} {r : Result} (h : inPhase p s r = .next t) : s.phase = p ∧ r = .next t := by
  unfold inPhase at h
  split at h
  · next hp => exact ⟨hp, h⟩
  · simp at h

theorem sel_next {code : MuxCode} (h : sel code s = .next t) :
    (s.arrival.resp = none ∧ t = s.consume) ∨
    (∃ dt, s.arrival.resp = some (.ok dt) ∧
      t = { s.consume.emit (.sel code .ok) dt with mux := code, j := 0, k := 0, phase := .acquiring }) ∨
    (∃ dt, s.arrival.resp = some (.rejected dt) ∧ s.cfg.selectorCanFail = true ∧
      t = raiseFatal .selectorFailure (s.consume.emit (.sel code .rejected) dt).loseMux) := by
  rcases awaitResponse_next h with h | ⟨r, hr, h⟩
  · exact .inl h
  · cases r <;> simp only [notAdmitted, reduceCtorEq] at h
    · exact .inr (.inl ⟨_, hr, by simpa using h.symm⟩)
    · split at h
      · next hc => exact .inr (.inr ⟨_, hr, hc, by simpa using h.symm⟩)
      · simp at h

theorem acq_next (h : acq s = .next t) :
    (s.arrival.resp = none ∧ t = s.consume) ∨
    (∃ dt, s.arrival.resp = some (.granted dt) ∧
      t = { s.consume.emit .acq dt with busOwned := true, phase := .configuring }) := by
  rcases awaitResponse_next h with h | ⟨r, hr, h⟩
  · exact .inl h
  · cases r <;> simp only [notAdmitted, reduceCtorEq] at h
    exact .inr ⟨_, hr, by simpa using h.symm⟩

theorem configure_next {spi : SpiConfig} (h : configure spi s = .next t) :
    (s.arrival.resp = none ∧ t = s.consume) ∨
    (∃ dt, s.arrival.resp = some (.ok dt) ∧ t = { s.consume.emit (.cfg spi) dt with phase := .framing }) := by
  rcases awaitResponse_next h with h | ⟨r, hr, h⟩
  · exact .inl h
  · cases r <;> simp only [notAdmitted, reduceCtorEq] at h
    exact .inr ⟨_, hr, by simpa using h.symm⟩

theorem xfer_next {bytes : Frame} (h : xfer bytes s = .next t) :
    (s.arrival.resp = none ∧ t = s.consume) ∨
    (∃ dt, s.arrival.resp = some (.ok dt) ∧ t = afterFrame (s.consume.emit (.xfer s.famLine bytes .ok) dt)) ∨
    (∃ dt, s.arrival.resp = some (.fail dt) ∧
      t = raiseFatal .transportFailure (releaseOnAbort (s.consume.emit (.xfer s.famLine bytes .fail) dt))) := by
  rcases awaitResponse_next h with h | ⟨r, hr, h⟩
  · exact .inl h
  · cases r <;> simp only [notAdmitted, reduceCtorEq] at h
    · exact .inr (.inl ⟨_, hr, by simpa using h.symm⟩)
    · exact .inr (.inr ⟨_, hr, by simpa using h.symm⟩)

theorem rel_next {n : BitVec 8} {d : Option Millis} (h : rel n d s = .next t) :
    (s.arrival.resp = none ∧ t = s.consume) ∨
    (∃ dt, s.arrival.resp = some (.ok dt) ∧
      t = afterRelease n d { s.consume.emit .rel dt with busOwned := false }) := by
  rcases awaitResponse_next h with h | ⟨r, hr, h⟩
  · exact .inl h
  · cases r <;> simp only [notAdmitted, reduceCtorEq] at h
    exact .inr ⟨_, hr, by simpa using h.symm⟩

theorem slp_next {d : Millis} {after : State → State} (h : slp d after s = .next t) :
    (s.arrival.resp = none ∧ t = s.consume) ∨
    (∃ dt, s.arrival.resp = some (.elapsed dt) ∧ d.toNat ≤ dt ∧ t = after (s.consume.emit (.slp d .elapsed) dt)) ∨
    (∃ dt, s.arrival.resp = some (.fail dt) ∧
      t = raiseFatal .timingFailure (s.consume.emit (.slp d .fail) dt)) := by
  rcases awaitResponse_next h with h | ⟨r, hr, h⟩
  · exact .inl h
  · cases r <;> simp only [notAdmitted, reduceCtorEq] at h
    · exact .inr (.inr ⟨_, hr, by simpa using h.symm⟩)
    · split at h
      · next hd => exact .inr (.inl ⟨_, hr, hd, by simpa using h.symm⟩)
      · simp at h

theorem slpDeclared_next {d : Option Millis} {after : State → State} (h : slpDeclared d after s = .next t) :
    ∃ ms, d = some ms ∧ slp ms after s = .next t := by
  unfold slpDeclared at h
  split at h
  · exact ⟨_, rfl, h⟩
  · simp at h

theorem startRun_next {n : BitVec 4} (h : startRun n s = .next t) :
    (s.arrival.start = false ∧ t = s.consume) ∨
    (s.arrival.start = true ∧ storeCheck s.word s.cfg.romWords = none ∧
      ((n = 0 ∧ t = { s.consume with phase := .done }) ∨
       (n ≠ 0 ∧ t = { s.consume with i := 0, j := 0, k := 0, phase := .selecting }))) := by
  unfold startRun at h
  split at h
  · next hs =>
    split at h
    · simp at h
    · next hc =>
      split at h
      · next hn => exact .inr ⟨hs, hc, .inl ⟨hn, by simpa using h.symm⟩⟩
      · next hn => exact .inr ⟨hs, hc, .inr ⟨hn, by simpa using h.symm⟩⟩
  · next hs => exact .inl ⟨by simpa using hs, by simpa using h.symm⟩

/-! ### Records -/

theorem execHdr_next {n : BitVec 4} {d : Option Millis} (h : execHdr n d s = .next t) :
    (s.phase = .idle ∧ startRun n s = .next t) ∨
    (s.phase = .fsettling ∧ ∃ ms, d = some ms ∧ slp ms nextFamily s = .next t) := by
  unfold execHdr at h
  split at h <;> (try simp only [reduceCtorEq] at h)
  · next hp => exact .inl ⟨hp, h⟩
  · next hp => exact .inr ⟨hp, slpDeclared_next h⟩

theorem runStage_next {n : BitVec 8} {d : Option Millis} (h : runStage n d s = .next t) :
    (s.phase = .acquiring ∧ acq s = .next t) ∨
    (s.phase = .configuring ∧ configure s.famSpi s = .next t) ∨
    (s.phase = .releasing ∧ rel n d s = .next t) ∨
    (s.phase = .settling ∧ ∃ ms, d = some ms ∧ slp ms nextStage s = .next t) := by
  unfold runStage at h
  split at h <;> (try simp only [reduceCtorEq] at h)
  · next hp => exact .inl ⟨hp, h⟩
  · next hp => exact .inr (.inl ⟨hp, h⟩)
  · next hp => exact .inr (.inr (.inl ⟨hp, h⟩))
  · next hp => exact .inr (.inr (.inr ⟨hp, slpDeclared_next h⟩))

theorem exec_stageRecord (kd : StageKind) (n : BitVec 8) (d : Option Millis) (s : State) :
    exec (stageRecord kd n d) s = runStage n d s := by
  cases kd <;> rfl

theorem execEnd_next (h : execEnd s = .next t) : s.phase = .done ∧ t = s.consume := by
  obtain ⟨hp, h⟩ := inPhase_next h
  exact ⟨hp, by simpa using h.symm⟩

end Machine

end Sys2Proof
end

