-- ==== Sys2Proof/Laws/Step.lean ====
section
/-! SUPPORT. Once, everything a step can do: around the record (`step_next`), and with the record's operands read back as
look-ups of the store (`Moves`, `step_moves`). -/

namespace Sys2Proof.Machine

variable {s t : State}

/-- What a step does around the meaning of its record. -/
theorem step_next (h : step s = .next t) :
    (s.arrival.reset = true ∧ t = resetCore s.consume) ∨
    (s.arrival.reset = false ∧
      ((s.phase = .fatal ∧ t = s.consume) ∨
       (s.phase = .idle ∧ s.arrival.start = false ∧ t = s.consume) ∨
       (∃ p i, s.place = some p ∧ s.waitsForStart = false ∧ s.pp < s.cfg.romWords ∧
          decodeAt p (s.word s.pp) = .ok i ∧ exec i s = .next t))) := by
  rw [step_eq_cycle] at h
  unfold cycle at h
  split at h
  · next hr => exact .inl ⟨hr, by simpa using h.symm⟩
  · next hr =>
    refine .inr ⟨by simpa using hr, ?_⟩
    split at h
    · next hp =>
      refine .inl ⟨?_, by simpa using h.symm⟩
      unfold State.place at hp
      split at hp <;> simp_all
    · next p hp =>
      split at h
      · next hw =>
        refine .inr (.inl ?_)
        simp only [State.waitsForStart, Bool.and_eq_true, decide_eq_true_eq, Bool.not_eq_true'] at hw
        exact ⟨hw.1, hw.2, by simpa using h.symm⟩
      · next hw =>
        split at h
        · simp at h
        · next hpp =>
          split at h
          · simp at h
          · next i hd => exact .inr (.inr ⟨p, i, hp, by simpa using hw, by omega, hd, h⟩)

/-- What a step in which no reset arrives does, phase by phase, in terms of the look-ups of R181. -/
inductive Moves (s t : State) : Prop where
  | waits (phase : s.phase ≠ .fatal → s.phase ≠ .done → s.phase ≠ .idle → s.arrival.resp = none)
      (start : s.phase = .idle → s.arrival.start = false) (eq : t = s.consume)
  | startsEmpty (phase : s.phase = .idle) (start : s.arrival.start = true) (ok : storeCheck s.word s.cfg.romWords = none)
      (nord : s.nord = 0) (eq : t = { s.consume with phase := .done })
  | starts (phase : s.phase = .idle) (start : s.arrival.start = true) (ok : storeCheck s.word s.cfg.romWords = none)
      (nord : s.nord ≠ 0) (eq : t = { s.consume with i := 0, j := 0, k := 0, phase := .selecting })
  | selects (dt : Nat) (phase : s.phase = .selecting) (resp : s.arrival.resp = some (.ok dt))
      (eq : t = { s.consume.emit (.sel s.famMux .ok) dt with mux := s.famMux, j := 0, k := 0, phase := .acquiring })
  | rejected (dt : Nat) (phase : s.phase = .selecting) (resp : s.arrival.resp = some (.rejected dt))
      (can : s.cfg.selectorCanFail = true)
      (eq : t = raiseFatal .selectorFailure (s.consume.emit (.sel s.famMux .rejected) dt).loseMux)
  | acquires (dt : Nat) (phase : s.phase = .acquiring) (resp : s.arrival.resp = some (.granted dt))
      (eq : t = { s.consume.emit .acq dt with busOwned := true, phase := .configuring })
  | configures (dt : Nat) (phase : s.phase = .configuring) (resp : s.arrival.resp = some (.ok dt))
      (eq : t = { s.consume.emit (.cfg s.famSpi) dt with phase := .framing })
  | sends (dt : Nat) (phase : s.phase = .framing) (resp : s.arrival.resp = some (.ok dt))
      (eq : t = afterFrame (s.consume.emit (.xfer s.famLine s.frame .ok) dt))
  | aborts (dt : Nat) (phase : s.phase = .framing) (resp : s.arrival.resp = some (.fail dt))
      (eq : t = raiseFatal .transportFailure (releaseOnAbort (s.consume.emit (.xfer s.famLine s.frame .fail) dt)))
  | releases (dt : Nat) (n : BitVec 8) (phase : s.phase = .releasing) (resp : s.arrival.resp = some (.ok dt))
      (nfrm : n.toNat = s.nfrm)
      (eq : t = afterRelease n s.delay { s.consume.emit .rel dt with busOwned := false })
  | settles (dt : Nat) (d : Millis) (phase : s.phase = .settling) (resp : s.arrival.resp = some (.elapsed dt))
      (delay : s.delay = some d) (le : d.toNat ≤ dt) (eq : t = nextStage (s.consume.emit (.slp d .elapsed) dt))
  | settleFails (dt : Nat) (d : Millis) (phase : s.phase = .settling) (resp : s.arrival.resp = some (.fail dt))
      (delay : s.delay = some d) (eq : t = raiseFatal .timingFailure (s.consume.emit (.slp d .fail) dt))
  | fsettles (dt : Nat) (d : Millis) (phase : s.phase = .fsettling) (resp : s.arrival.resp = some (.elapsed dt))
      (ifd : s.ifd = some d) (le : d.toNat ≤ dt) (eq : t = nextFamily (s.consume.emit (.slp d .elapsed) dt))
  | fsettleFails (dt : Nat) (d : Millis) (phase : s.phase = .fsettling) (resp : s.arrival.resp = some (.fail dt))
      (ifd : s.ifd = some d) (eq : t = raiseFatal .timingFailure (s.consume.emit (.slp d .fail) dt))

theorem hdr_moves {i : Instr} (hpp : s.pp = 0)
    (hd : decodeHdr (s.word s.pp) = .ok i) (h : exec i s = .next t) : Moves s t := by
  obtain ⟨-, -, -, rfl⟩ := decodeHdr_ok hd
  rw [hpp] at h
  have hn : (hdrNfam (s.word 0)).toNat = s.nord := rfl
  have hi : hdrIfd (s.word 0) = s.ifd := rfl
  rcases execHdr_next h with ⟨hp, h⟩ | ⟨hp, ms, hms, h⟩
  · rcases startRun_next h with ⟨hs, h⟩ | ⟨hs, hc, ⟨h0, h⟩ | ⟨h0, h⟩⟩
    · exact .waits (fun _ _ hi => absurd hp hi) (fun _ => hs) h
    · refine .startsEmpty hp hs hc ?_ h
      rw [← hn, h0]; rfl
    · refine .starts hp hs hc ?_ h
      rw [← hn]
      exact fun hz => h0 (BitVec.eq_of_toNat_eq (by simpa using hz))
  · rw [hi] at hms
    rcases slp_next h with ⟨hr, h⟩ | ⟨dt, hr, hle, h⟩ | ⟨dt, hr, h⟩
    · exact .waits (fun _ _ _ => hr) (by simp [hp]) h
    · exact .fsettles dt ms hp hr hms hle h
    · exact .fsettleFails dt ms hp hr hms h

theorem fam_moves {i : Instr} (hpp : s.pp = famAddr s.word s.i.toNat)
    (hd : decodeFam (s.word s.pp) = .ok i) (h : exec i s = .next t) : Moves s t := by
  obtain ⟨-, -, -, f, -, rfl⟩ := decodeFam_ok hd
  rw [hpp] at h
  obtain ⟨hp, h⟩ := inPhase_next h
  rcases sel_next h with ⟨hr, h⟩ | ⟨dt, hr, h⟩ | ⟨dt, hr, hc, h⟩
  · exact .waits (fun _ _ _ => hr) (by simp [hp]) h
  · exact .selects dt hp hr h
  · exact .rejected dt hp hr hc h

theorem stg_moves {i : Instr} (hp : s.pp = stgAddr s.word s.i.toNat s.j.toNat)
    (hd : decodeStg (s.word s.pp) = .ok i) (h : exec i s = .next t) : Moves s t := by
  obtain ⟨-, -, -, kd, -, rfl⟩ := decodeStg_ok hd
  rw [exec_stageRecord, hp] at h
  rcases runStage_next h with ⟨hp, h⟩ | ⟨hp, h⟩ | ⟨hp, h⟩ | ⟨hp, ms, hms, h⟩
  · rcases acq_next h with ⟨hr, h⟩ | ⟨dt, hr, h⟩
    · exact .waits (fun _ _ _ => hr) (by simp [hp]) h
    · exact .acquires dt hp hr h
  · rcases configure_next h with ⟨hr, h⟩ | ⟨dt, hr, h⟩
    · exact .waits (fun _ _ _ => hr) (by simp [hp]) h
    · exact .configures dt hp hr h
  · rcases rel_next h with ⟨hr, h⟩ | ⟨dt, hr, h⟩
    · exact .waits (fun _ _ _ => hr) (by simp [hp]) h
    · exact .releases dt _ hp hr rfl h
  · rcases slp_next h with ⟨hr, h⟩ | ⟨dt, hr, hle, h⟩ | ⟨dt, hr, h⟩
    · exact .waits (fun _ _ _ => hr) (by simp [hp]) h
    · exact .settles dt ms hp hr hms hle h
    · exact .settleFails dt ms hp hr hms h

theorem frm_moves {i : Instr} (hp : s.pp = frmAddr s.word s.i.toNat s.j.toNat s.k.toNat)
    (hd : decodeFrm s.famW4 (s.word s.pp) = .ok i) (h : exec i s = .next t) : Moves s t := by
  have hx : ∃ bytes, bytes = s.frame ∧ inPhase .framing s (xfer bytes s) = .next t := by
    rcases decodeFrm_ok hd with ⟨hw, rfl⟩ | ⟨hw, -, rfl⟩
    · refine ⟨_, ?_, h⟩
      simp only [State.frame, storeFrame, frameBytes, ← hp]
      rw [if_pos (show famW4 (storeFam s.word s.i.toNat) = true from hw)]
    · refine ⟨_, ?_, h⟩
      simp only [State.frame, storeFrame, frameBytes, ← hp]
      rw [show famW4 (storeFam s.word s.i.toNat) = false from hw]
      rfl
  obtain ⟨bytes, hb, h⟩ := hx
  obtain ⟨hp, h⟩ := inPhase_next h
  subst hb
  rcases xfer_next h with ⟨hr, h⟩ | ⟨dt, hr, h⟩ | ⟨dt, hr, h⟩
  · exact .waits (fun _ _ _ => hr) (by simp [hp]) h
  · exact .sends dt hp hr h
  · exact .aborts dt hp hr h

/-- Everything a step without reset can do. -/
theorem step_moves (hr : s.arrival.reset = false) (h : step s = .next t) : Moves s t := by
  rcases step_next h with ⟨hr', -⟩ | ⟨-, ⟨hp, h⟩ | ⟨hp, hs, h⟩ | ⟨p, i, hp, -, -, hd, h⟩⟩
  · simp [hr] at hr'
  · exact .waits (fun hf => absurd hp hf) (by simp [hp]) h
  · exact .waits (fun _ _ hi => absurd hp hi) (fun _ => hs) h
  · unfold State.place at hp
    split at hp <;> simp only [Option.some.injEq, reduceCtorEq] at hp <;> subst hp <;> next hph =>
      first
        | exact hdr_moves (by unfold State.pp; rw [hph]) hd h
        | exact stg_moves (by unfold State.pp; rw [hph]) hd h
        | exact frm_moves (by unfold State.pp; rw [hph]) hd h
        | exact fam_moves (by unfold State.pp; rw [hph]) hd h
        | exact .waits (fun _ hd _ => absurd hph hd) (by simp [hph]) (execEnd_next (by obtain ⟨-, rfl⟩ := decodeEnd_ok hd; exact h)).2

/-- A step either takes a reset or moves. -/
theorem step_reset_or_moves (h : step s = .next t) :
    (s.arrival.reset = true ∧ t = resetCore s.consume) ∨ (s.arrival.reset = false ∧ Moves s t) := by
  by_cases hr : s.arrival.reset = true
  · rcases step_next h with h | ⟨hr', -⟩
    · exact .inl h
    · simp [hr] at hr'
  · exact .inr ⟨by simpa using hr, step_moves (by simpa using hr) h⟩

/-! ### Runs -/

theorem run_zero (s : State) : Host.Core.run Sys2Proof.core 0 s = .next s := rfl

/-- A run goes on from the state its first step answers. -/
theorem run_of_next {n : Nat} (h : step s = .next t) :
    Host.Core.run Sys2Proof.core (n + 1) s = Host.Core.run Sys2Proof.core n t := by
  have hc : Sys2Proof.core.step s = .next t := h
  simp only [Host.Core.run, hc]

end Sys2Proof.Machine
end

