-- ==== Sys2Proof/Laws/Store.lean ====
section
/-! SUPPORT. What an accepted store is, record by record (30_encoding.md R100), and the order of addresses (R104). -/

namespace Sys2Proof

variable {rd : Nat → Word} {depth : Nat}

theorem wordCheck_none {p : Place} {w : Word} : wordCheck p w = none ↔ ∃ i, decodeAt p w = .ok i := by
  unfold wordCheck
  split <;> simp_all

theorem orReason_none {b : Bool} {r : RefuseReason} : orReason b r = none ↔ b = true := by
  unfold orReason
  split <;> simp_all

theorem checkAt_none {a : Nat} {r : Option RefuseReason} : checkAt depth a r = none ↔ a < depth ∧ r = none := by
  unfold checkAt
  split
  · simp; omega
  · simp; omega

theorem findSome_range_none {α : Type} {n : Nat} {f : Nat → Option α} :
    (List.range n).findSome? f = none ↔ ∀ x < n, f x = none := by
  simp [List.findSome?_eq_none_iff]

/-- A store that passes every check, record by record. -/
structure Accepted (rd : Nat → Word) (depth : Nat) : Prop where
  hdr     : ∃ i, decodeHdr (rd 0) = .ok i
  nord    : storeNord rd ≤ 5
  fam     : ∀ i < storeNord rd, ∃ r, decodeFam (storeFam rd i) = .ok r
  fid     : ∀ i < storeNord rd, ∀ x < i, famFid (storeFam rd x) ≠ famFid (storeFam rd i)
  nstg    : ∀ i < storeNord rd, 1 ≤ storeNstg rd i
  stg     : ∀ i < storeNord rd, ∀ j < storeNstg rd i, ∃ r, decodeStg (storeStg rd i j) = .ok r
  nfrm    : ∀ i < storeNord rd, ∀ j < storeNstg rd i, 1 ≤ storeNfrm rd i j
  kinds   : ∀ i < storeNord rd, ∀ j < storeNstg rd i,
              kindOfCode (stgKind (storeStg rd i j)) = some (expectedKind (storeNstg rd i) j)
  frm     : ∀ i < storeNord rd, ∀ j < storeNstg rd i, ∀ k < storeNfrm rd i j,
              ∃ r, decodeFrm (famW4 (storeFam rd i)) (rd (frmAddr rd i j k)) = .ok r
  endRec  : rd (endAddr rd) = 0xF0000000
  hdrIn   : 0 < depth
  famIn   : ∀ i < storeNord rd, famAddr rd i < depth
  stgIn   : ∀ i < storeNord rd, ∀ j < storeNstg rd i, stgAddr rd i j < depth
  frmIn   : ∀ i < storeNord rd, ∀ j < storeNstg rd i, ∀ k < storeNfrm rd i j, frmAddr rd i j k < depth
  endIn   : endAddr rd < depth

theorem checkFamily_none {i : Nat} : checkFamily rd depth i = none ↔
    (famAddr rd i < depth ∧ (∃ r, decodeFam (storeFam rd i) = .ok r) ∧
      (∀ x < i, famFid (storeFam rd x) ≠ famFid (storeFam rd i)) ∧ 1 ≤ storeNstg rd i) ∧
    ∀ j < storeNstg rd i, checkStage rd depth i j = none := by
  simp only [checkFamily, famCheck, Option.or_eq_none_iff, checkAt_none, wordCheck_none, orReason_none,
    findSome_range_none, decodeAt, List.all_eq_true, List.mem_range, bne_iff_ne, decide_eq_true_eq, ne_eq, and_assoc]

theorem checkStage_none {i j : Nat} : checkStage rd depth i j = none ↔
    (stgAddr rd i j < depth ∧ (∃ r, decodeStg (storeStg rd i j) = .ok r) ∧ 1 ≤ storeNfrm rd i j ∧
      kindOfCode (stgKind (storeStg rd i j)) = some (expectedKind (storeNstg rd i) j)) ∧
    ∀ k < storeNfrm rd i j, frmAddr rd i j k < depth ∧
      ∃ r, decodeFrm (famW4 (storeFam rd i)) (rd (frmAddr rd i j k)) = .ok r := by
  simp only [checkStage, stgCheck, frmCheck, Option.or_eq_none_iff, checkAt_none, wordCheck_none, orReason_none,
    findSome_range_none, decodeAt, decide_eq_true_eq, beq_iff_eq, and_assoc]

theorem decodeEnd_ok_iff {w : Word} : (∃ i, decodeEnd w = .ok i) ↔ w = 0xF0000000 := by
  constructor
  · rintro ⟨i, h⟩
    exact (decodeEnd_ok h).1
  · rintro rfl
    exact ⟨.endRec, rfl⟩

/-- The check of R100 accepts a store exactly when every record of it passes. -/
theorem storeCheck_none : storeCheck rd depth = none ↔ Accepted rd depth := by
  have key : storeCheck rd depth = none ↔
      ((0 < depth ∧ (∃ i, decodeHdr (rd 0) = .ok i) ∧ storeNord rd ≤ 5) ∧
        ∀ i < storeNord rd, checkFamily rd depth i = none) ∧
      (endAddr rd < depth ∧ rd (endAddr rd) = 0xF0000000) := by
    simp only [storeCheck, hdrCheck, Option.or_eq_none_iff, checkAt_none, wordCheck_none, orReason_none,
      findSome_range_none, decodeAt, decide_eq_true_eq, decodeEnd_ok_iff, and_assoc]
  rw [key]
  simp only [checkFamily_none, checkStage_none]
  constructor
  · rintro ⟨⟨⟨h0, h1, h2⟩, hf⟩, he, hw⟩
    exact {
      hdr := h1
      nord := h2
      fam := fun i hi => (hf i hi).1.2.1
      fid := fun i hi => (hf i hi).1.2.2.1
      nstg := fun i hi => (hf i hi).1.2.2.2
      stg := fun i hi j hj => ((hf i hi).2 j hj).1.2.1
      nfrm := fun i hi j hj => ((hf i hi).2 j hj).1.2.2.1
      kinds := fun i hi j hj => ((hf i hi).2 j hj).1.2.2.2
      frm := fun i hi j hj k hk => (((hf i hi).2 j hj).2 k hk).2
      endRec := hw
      hdrIn := h0
      famIn := fun i hi => (hf i hi).1.1
      stgIn := fun i hi j hj => ((hf i hi).2 j hj).1.1
      frmIn := fun i hi j hj k hk => (((hf i hi).2 j hj).2 k hk).1
      endIn := he }
  · intro a
    exact ⟨⟨⟨a.hdrIn, a.hdr, a.nord⟩, fun i hi =>
      ⟨⟨a.famIn i hi, a.fam i hi, a.fid i hi, a.nstg i hi⟩, fun j hj =>
        ⟨⟨a.stgIn i hi j hj, a.stg i hi j hj, a.nfrm i hi j hj, a.kinds i hi j hj⟩, fun k hk =>
          ⟨a.frmIn i hi j hj k hk, a.frm i hi j hj k hk⟩⟩⟩⟩, a.endIn, a.endRec⟩

/-! ### Addresses -/

theorem stageFrom_le {a j j' : Nat} (h : j ≤ j') : stageFrom rd a j ≤ stageFrom rd a j' := by
  induction j' with
  | zero => simp [Nat.le_zero.1 h]
  | succ n ih =>
    rcases Nat.lt_or_ge j (n + 1) with hj | hj
    · have := ih (by omega)
      simp only [stageFrom, afterStage]
      omega
    · rw [show j = n + 1 by omega]

theorem famAddr_succ (i : Nat) : famAddr rd (i + 1) = stageFrom rd (famAddr rd i + 1) (storeNstg rd i) := rfl

theorem stgAddr_succ (i j : Nat) : stgAddr rd i (j + 1) = stgAddr rd i j + 1 + storeNfrm rd i j := rfl

theorem stgAddr_zero (i : Nat) : stgAddr rd i 0 = famAddr rd i + 1 := rfl

theorem stgAddr_nstg (i : Nat) : stgAddr rd i (storeNstg rd i) = famAddr rd (i + 1) := rfl

theorem famAddr_lt_succ (i : Nat) : famAddr rd i < famAddr rd (i + 1) := by
  rw [famAddr_succ]
  have := stageFrom_le (rd := rd) (a := famAddr rd i + 1) (Nat.zero_le (storeNstg rd i))
  simp only [stageFrom] at this
  omega

theorem famAddr_le {i i' : Nat} (h : i ≤ i') : famAddr rd i ≤ famAddr rd i' := by
  induction i' with
  | zero => simp [Nat.le_zero.1 h]
  | succ n ih =>
    rcases Nat.lt_or_ge i (n + 1) with hi | hi
    · exact (ih (by omega)).trans (famAddr_lt_succ n).le
    · rw [show i = n + 1 by omega]

theorem famAddr_pos (i : Nat) : 0 < famAddr rd i := by
  have := famAddr_le (rd := rd) (Nat.zero_le i)
  simp only [famAddr] at this
  omega

theorem famAddr_lt_stgAddr (i j : Nat) : famAddr rd i < stgAddr rd i j := by
  have := stageFrom_le (rd := rd) (a := famAddr rd i + 1) (Nat.zero_le j)
  simp only [stageFrom] at this
  unfold stgAddr
  omega

/-- A stage of a family ends before the next family. -/
theorem stgAddr_end_le {i j : Nat} (hj : j < storeNstg rd i) : stgAddr rd i j + 1 + storeNfrm rd i j ≤ famAddr rd (i + 1) := by
  rw [← stgAddr_succ, ← stgAddr_nstg]
  exact stageFrom_le hj

end Sys2Proof
end

