-- ==== Sys2Proof/Laws/Moves.lean ====
section
/-! SUPPORT. Where the moves of the position go (41_sequencer.md R144 to R149), case by case with the counts, and that no
counter wraps while its successor is below its count (R154). -/

namespace Sys2Proof.Machine
variable {s : State}

/-- An index counts on without wrapping (R154). -/
theorem toNat_succ {n m : Nat} {x : BitVec n} (h : x.toNat + 1 < m) (hm : m ≤ 2 ^ n) : (x + 1).toNat = x.toNat + 1 := by
  rw [show x + 1 = x + 1#n from rfl, BitVec.toNat_add, BitVec.toNat_ofNat]
  rcases Nat.eq_zero_or_pos n with rfl | hn
  · simp at hm; omega
  · have : 1 < 2 ^ n := Nat.one_lt_two_pow (by omega)
    rw [Nat.mod_eq_of_lt this, Nat.mod_eq_of_lt (by omega)]

/-! ### Counts fit their counters -/

theorem nord_le_of_accepted (h : s.storeAccepted) : s.nord ≤ 5 := (storeCheck_none.1 h).nord
theorem nstg_lt : s.nstg < 16 := (famNstg (storeFam s.word s.i.toNat)).isLt
theorem nfrm_lt : s.nfrm < 256 := (stgNfrm (storeStg s.word s.i.toNat s.j.toNat)).isLt

/-! ### Moves -/

/-- Where `nextStage` goes. -/
theorem nextStage_cases (s : State) :
    (s.j.toNat + 1 < s.nstg ∧ nextStage s = { s with j := s.j + 1, k := 0, phase := .acquiring }) ∨
    (s.nstg ≤ s.j.toNat + 1 ∧ s.nord ≤ s.i.toNat + 1 ∧ nextStage s = { s with phase := .done }) ∨
    (s.nstg ≤ s.j.toNat + 1 ∧ s.i.toNat + 1 < s.nord ∧ s.ifd.isSome = true ∧ nextStage s = { s with phase := .fsettling }) ∨
    (s.nstg ≤ s.j.toNat + 1 ∧ s.i.toNat + 1 < s.nord ∧ s.ifd = none ∧
      nextStage s = { s with i := s.i + 1, j := 0, k := 0, phase := .selecting }) := by
  unfold nextStage familyEnd nextFamily
  split
  · exact .inl ⟨by assumption, rfl⟩
  · split
    · cases h : s.ifd
      · exact .inr (.inr (.inr ⟨by omega, by assumption, rfl, rfl⟩))
      · exact .inr (.inr (.inl ⟨by omega, by assumption, rfl, rfl⟩))
    · exact .inr (.inl ⟨by omega, by omega, rfl⟩)

/-- Where a sent frame leads (R144). -/
theorem afterFrame_cases (s : State) :
    (s.cfg.acqMode = .perStage ∧ s.k.toNat + 1 < s.nfrm ∧ afterFrame s = { s with k := s.k + 1 }) ∨
    ((s.cfg.acqMode = .perFrame ∨ s.nfrm ≤ s.k.toNat + 1) ∧ afterFrame s = { s with phase := .releasing }) := by
  unfold afterFrame
  split
  · next h => exact .inl ⟨h.1, h.2, rfl⟩
  · next h =>
    refine .inr ⟨?_, rfl⟩
    cases hm : s.cfg.acqMode
    · exact .inr (by simp [hm] at h; omega)
    · exact .inl rfl

/-- Where a release leads (R145, R146, R151). -/
theorem afterRelease_cases (n : BitVec 8) (d : Option Millis) (s : State) (hn : n.toNat = s.nfrm) :
    (s.cfg.acqMode = .perFrame ∧ s.k.toNat + 1 < s.nfrm ∧
      afterRelease n d s = { s with k := s.k + 1, phase := .acquiring }) ∨
    ((s.cfg.acqMode = .perStage ∨ s.nfrm ≤ s.k.toNat + 1) ∧
      ((d.isSome = true ∧ afterRelease n d s = { s with phase := .settling }) ∨
       (d = none ∧ afterRelease n d s = nextStage s))) := by
  unfold afterRelease
  rw [hn]
  split
  · next h => exact .inl ⟨h.1, h.2, rfl⟩
  · next h =>
    refine .inr ⟨?_, ?_⟩
    · cases hm : s.cfg.acqMode
      · exact .inl rfl
      · exact .inr (by simp [hm] at h; omega)
    · cases d
      · exact .inr ⟨rfl, rfl⟩
      · exact .inl ⟨rfl, rfl⟩

/-! ### The invariant across a move -/

/-- At the end of a stage, the bus released, `nextStage` leads to a state of the invariant. -/
theorem nextStage_inv (t : State) (hb : t.busOwned = false) (hc : t.cause = .noCause) (hx : t.mux = t.famMux)
    (hi : t.i.toNat < t.nord) (hj : t.j.toNat < t.nstg) (hk : t.k.toNat + 1 = t.nfrm) (hst : t.storeAccepted)
    (hwf : t.rom.wf = true) : (nextStage t).Inv := by
  have ac := storeCheck_none.1 hst
  have hn := ac.nord
  have a2 := @nstg_lt t
  have e1 : ∀ i < storeNord t.word, 0 < storeNstg t.word i := ac.nstg
  have e2 : ∀ i < storeNord t.word, ∀ j < storeNstg t.word i, 0 < storeNfrm t.word i j := ac.nfrm
  rcases nextStage_cases t with ⟨h1, h2⟩ | ⟨h1, h2, h3⟩ | ⟨h1, h2, h3, h4⟩ | ⟨h1, h2, h3, h4⟩
  · rw [h2]
    have hj' := toNat_succ h1 a2.le
    refine ⟨?_, ?_, ?_, ?_, ?_, ?_, ?_, hwf⟩ <;>
      simp_all [State.ownershipOk, State.causeOk, State.positionOk, State.muxOk, State.gateOk, State.progressOk,
        Phase.running, Phase.inStage, State.storeAccepted, word_eq, State.nord, State.nstg, State.nfrm, State.famMux]
    rw [Nat.mod_eq_of_lt hj']
    exact ⟨h1, e2 _ hi _ h1⟩
  · rw [h3]
    refine ⟨?_, ?_, ?_, ?_, ?_, ?_, ?_, hwf⟩ <;>
      simp_all [State.ownershipOk, State.causeOk, State.positionOk, State.muxOk, State.gateOk, State.progressOk,
        Phase.running, Phase.inStage, State.storeAccepted, word_eq, State.nord, State.nstg, State.nfrm, State.famMux,
        State.atFamilyEnd]
    right
    omega
  · rw [h4]
    refine ⟨?_, ?_, ?_, ?_, ?_, ?_, ?_, hwf⟩ <;>
      simp_all [State.ownershipOk, State.causeOk, State.positionOk, State.muxOk, State.gateOk, State.progressOk,
        Phase.running, Phase.inStage, State.storeAccepted, word_eq, State.nord, State.nstg, State.nfrm, State.famMux,
        State.atFamilyEnd, State.ifd]
    all_goals omega
  · rw [h4]
    have hi' := toNat_succ h2 (by have : t.nord ≤ 5 := hn; omega)
    refine ⟨?_, ?_, ?_, ?_, ?_, ?_, ?_, hwf⟩ <;>
      simp_all [State.ownershipOk, State.causeOk, State.positionOk, State.muxOk, State.gateOk, State.progressOk,
        Phase.running, Phase.inStage, State.storeAccepted, word_eq, State.nord, State.nstg, State.nfrm, State.famMux,
        State.ifd]
    rw [Nat.mod_eq_of_lt hi']
    exact ⟨h2, e1 _ h2, e2 _ h2 _ (e1 _ h2)⟩

end Sys2Proof.Machine
end

