-- ==== Sys2Proof/Laws/PerInstr.lean ====
section
/-! SUPPORT. A statement for every record, one lemma per constructor: the record's word fits the mask and the match of its
row of the opcode table (30_encoding.md R103). -/

namespace Sys2Proof

theorem append_and {n m : Nat} (a c : BitVec n) (b d : BitVec m) : (a ++ b) &&& (c ++ d) = (a &&& c) ++ (b &&& d) := by
  ext i hi
  simp only [BitVec.getElem_and, BitVec.getElem_append]
  split <;> rfl

namespace Laws.MaskMatch

/-- `w AND mask = match` for the record's own word and row. -/
def Statement (i : Instr) : Prop := encode i &&& (maskOf i).1 = (maskOf i).2

theorem hdr (nfam : BitVec 4) (ifd : Option Millis) : Statement (.hdr nfam ifd) := by
  show (0b0001#4 ++ nfam ++ delayEn ifd ++ 0#7 ++ delayMs ifd) &&& (0xF#4 ++ 0#4 ++ 0#1 ++ 0x7F#7 ++ 0#16) = 0x10000000
  simp only [append_and, BitVec.and_zero]
  decide

theorem fam (fid : DeviceFamily) (mux : MuxCode) (w4 : Bool) (line : BitVec 2) (spi : SpiConfig) (nstg : BitVec 4) :
    Statement (.fam fid mux w4 line spi nstg) := by
  show (0b0010#4 ++ fid.number ++ mux ++ BitVec.ofBool w4 ++ line ++ BitVec.ofBool spi.cpol ++ BitVec.ofBool spi.cpha
      ++ BitVec.ofBool spi.lsbf ++ 0#1 ++ spi.clk ++ 0#4 ++ nstg) &&&
    (0xF#4 ++ 0#3 ++ 0#2 ++ 0#1 ++ 0#2 ++ 0#1 ++ 0#1 ++ 0#1 ++ 1#1 ++ 0#8 ++ 0xF#4 ++ 0#4) = 0x20000000
  simp only [append_and, BitVec.and_zero]
  decide

theorem stg (kind : BitVec 2) (nfrm : BitVec 8) (delay : Option Millis) :
    encodeStg kind nfrm delay &&& 0xFD000000 = (0b0011#4 ++ kind ++ 0#26 : BitVec 32) := by
  show (0b0011#4 ++ kind ++ delayEn delay ++ 0#1 ++ nfrm ++ delayMs delay) &&& (0xF#4 ++ 3#2 ++ 0#1 ++ 1#1 ++ 0#8 ++ 0#16) = _
  simp only [append_and, BitVec.and_zero]
  revert kind
  decide

theorem stgSingle (nfrm : BitVec 8) (delay : Option Millis) : Statement (.stgSingle nfrm delay) := stg 0 nfrm delay

theorem stgProv (nfrm : BitVec 8) (delay : Option Millis) : Statement (.stgProv nfrm delay) := stg 1 nfrm delay

theorem stgFinal (nfrm : BitVec 8) (delay : Option Millis) : Statement (.stgFinal nfrm delay) := stg 2 nfrm delay

theorem frm3 (b0 b1 b2 : Byte) : Statement (.frm3 b0 b1 b2) := by
  show (b0 ++ b1 ++ b2 ++ 0#8) &&& (0#8 ++ 0#8 ++ 0#8 ++ 0xFF#8) = (0#8 ++ 0#8 ++ 0#8 ++ 0#8)
  simp only [append_and, BitVec.and_zero]
  decide

theorem frm4 (b0 b1 b2 b3 : Byte) : Statement (.frm4 b0 b1 b2 b3) := BitVec.and_zero

theorem endRec : Statement .endRec := by
  unfold Statement
  decide

end Laws.MaskMatch

end Sys2Proof
end

