-- ==== Sys2Proof/Laws/Stops.lean ====
section
/-! SUPPORT. For each shared operation, when it is refused and how; no operation ends in a fault. -/

namespace Sys2Proof.Machine
variable {s : State} {x : Refusal}

theorem awaitResponse_refused {k : Response → Result} (h : awaitResponse s k = .refused x) :
    ∃ r, s.arrival.resp = some r ∧ k r = .refused x := by
  unfold awaitResponse at h
  split at h
  · simp at h
  · exact ⟨_, by assumption, h⟩

/-- The refusal of an operation is that of a response it does not admit. -/
def StopsOnResponse (s : State) (x : Refusal) : Prop := ∃ r, s.arrival.resp = some r ∧ x = .responseNotAdmitted s.phase r

theorem sel_refused {code : MuxCode} (h : sel code s = .refused x) : StopsOnResponse s x := by
  obtain ⟨r, hr, h⟩ := awaitResponse_refused h
  refine ⟨r, hr, ?_⟩
  cases r <;> simp only [notAdmitted, Host.Outcome.refused.injEq, reduceCtorEq] at h
  case rejected dt =>
    split at h
    · simp at h
    · simpa using h.symm
  all_goals exact h.symm

theorem acq_refused (h : acq s = .refused x) : StopsOnResponse s x := by
  obtain ⟨r, hr, h⟩ := awaitResponse_refused h
  refine ⟨r, hr, ?_⟩
  cases r <;> simp only [notAdmitted, Host.Outcome.refused.injEq, reduceCtorEq] at h
  all_goals exact h.symm

theorem configure_refused {spi : SpiConfig} (h : configure spi s = .refused x) : StopsOnResponse s x := by
  obtain ⟨r, hr, h⟩ := awaitResponse_refused h
  refine ⟨r, hr, ?_⟩
  cases r <;> simp only [notAdmitted, Host.Outcome.refused.injEq, reduceCtorEq] at h
  all_goals exact h.symm

theorem xfer_refused {bytes : Frame} (h : xfer bytes s = .refused x) : StopsOnResponse s x := by
  obtain ⟨r, hr, h⟩ := awaitResponse_refused h
  refine ⟨r, hr, ?_⟩
  cases r <;> simp only [notAdmitted, Host.Outcome.refused.injEq, reduceCtorEq] at h
  all_goals exact h.symm

theorem rel_refused {n : BitVec 8} {d : Option Millis} (h : rel n d s = .refused x) : StopsOnResponse s x := by
  obtain ⟨r, hr, h⟩ := awaitResponse_refused h
  refine ⟨r, hr, ?_⟩
  cases r <;> simp only [notAdmitted, Host.Outcome.refused.injEq, reduceCtorEq] at h
  all_goals exact h.symm

theorem slp_refused {d : Millis} {after : State → State} (h : slp d after s = .refused x) : StopsOnResponse s x := by
  obtain ⟨r, hr, h⟩ := awaitResponse_refused h
  refine ⟨r, hr, ?_⟩
  cases r <;> simp only [notAdmitted, Host.Outcome.refused.injEq, reduceCtorEq] at h
  case elapsed dt =>
    split at h
    · simp at h
    · simpa using h.symm
  all_goals exact h.symm

theorem slpDeclared_refused {d : Option Millis} {after : State → State} (h : slpDeclared d after s = .refused x) :
    StopsOnResponse s x ∨ (d = none ∧ x = .noDelayDeclared s.phase) := by
  unfold slpDeclared at h
  split at h
  · exact .inl (slp_refused h)
  · exact .inr ⟨rfl, by simpa using h.symm⟩

theorem startRun_refused {n : BitVec 4} (h : startRun n s = .refused x) :
    ∃ a r, storeCheck s.word s.cfg.romWords = some (a, r) ∧ x = .storeRefused a r := by
  unfold startRun at h
  split at h
  · split at h
    · exact ⟨_, _, by assumption, by simpa using h.symm⟩
    · split at h <;> simp at h
  · simp at h

/-! ### Records in their phase -/

theorem execHdr_refused {n : BitVec 4} {d : Option Millis} (h : execHdr n d s = .refused x)
    (hp : s.phase = .idle ∨ s.phase = .fsettling) :
    StopsOnResponse s x ∨ (d = none ∧ x = .noDelayDeclared s.phase) ∨
      ∃ a r, storeCheck s.word s.cfg.romWords = some (a, r) ∧ x = .storeRefused a r := by
  unfold execHdr at h
  rcases hp with hp | hp <;> rw [hp] at h
  · exact .inr (.inr (startRun_refused h))
  · rcases slpDeclared_refused h with h | h
    · exact .inl h
    · exact .inr (.inl h)

theorem runStage_refused {n : BitVec 8} {d : Option Millis} (h : runStage n d s = .refused x)
    (hp : s.phase = .acquiring ∨ s.phase = .configuring ∨ s.phase = .releasing ∨ s.phase = .settling) :
    StopsOnResponse s x ∨ (d = none ∧ x = .noDelayDeclared s.phase) := by
  unfold runStage at h
  rcases hp with hp | hp | hp | hp <;> rw [hp] at h
  · exact .inl (acq_refused h)
  · exact .inl (configure_refused h)
  · exact .inl (rel_refused h)
  · exact slpDeclared_refused h

theorem inPhase_refused {p : Phase} {r : Result} (hp : s.phase = p) (h : inPhase p s r = .refused x) : r = .refused x := by
  rwa [inPhase, if_pos hp] at h

/-- What a phase's place says of the phase. -/
theorem phase_of_place {p : Place} (h : s.place = some p) :
    (p = .hdr ∧ (s.phase = .idle ∨ s.phase = .fsettling)) ∨ (p = .fam ∧ s.phase = .selecting) ∨
    (p = .stg ∧ (s.phase = .acquiring ∨ s.phase = .configuring ∨ s.phase = .releasing ∨ s.phase = .settling)) ∨
    (p = .frm s.famW4 ∧ s.phase = .framing) ∨ (p = .endRec ∧ s.phase = .done) := by
  unfold State.place at h
  split at h <;> simp_all

end Sys2Proof.Machine
end

