-- ==== Sys2Proof/Laws/Trace.lean ====
section
/-! SUPPORT. How the demanded events (41_sequencer.md R152) grow, one operation, one stage and one family at a time. -/

namespace Sys2Proof.Machine

variable {mode : AcqMode} {rd : Nat → Word} {s : State}

@[simp] theorem familiesPart_zero : familiesPart mode rd 0 = [] := rfl
theorem familiesPart_succ (n : Nat) :
    familiesPart mode rd (n + 1) = familiesPart mode rd n ++ familyEvents mode rd n ++ slpEvents (storeIfd rd) := by
  simp [familiesPart, List.range_succ]

@[simp] theorem familyPart_zero (i : Nat) : familyPart mode rd i 0 = [selEvent rd i] := rfl
theorem familyPart_succ (i n : Nat) :
    familyPart mode rd i (n + 1) = familyPart mode rd i n ++ stageBody mode rd i n ++ slpEvents (storeDelay rd i n) := by
  simp [familyPart, stageEvents, List.range_succ]

@[simp] theorem xferEvents_zero (i j : Nat) : xferEvents rd i j 0 = [] := rfl
theorem xferEvents_succ (i j n : Nat) : xferEvents rd i j (n + 1) = xferEvents rd i j n ++ [xferEvent rd i j n .ok] := by
  simp [xferEvents, List.range_succ]

/-- A PerFrame stage grows by whole frames (R151). -/
theorem frameCycles_succ (i j n : Nat) :
    (List.range (n + 1)).flatMap (fun x => frameCycle rd i j x) =
      (List.range n).flatMap (fun x => frameCycle rd i j x) ++ frameCycle rd i j n := by
  simp [List.range_succ]

@[simp] theorem slpEvents_none : slpEvents none = [] := rfl
@[simp] theorem slpEvents_some (d : Millis) : slpEvents (some d) = [.slp d .elapsed] := rfl

theorem programEvents_empty (h : storeNord rd = 0) : programEvents mode rd = [] := by
  simp [programEvents, h]

/-- The inter-family delay stands between families only (R148). -/
theorem programEvents_last {n : Nat} (h : storeNord rd = n + 1) :
    programEvents mode rd = familiesPart mode rd n ++ familyEvents mode rd n := by
  simp only [programEvents, h, List.range_succ, List.flatMap_append, List.flatMap_cons, List.flatMap_nil, List.append_nil,
    Nat.lt_irrefl, if_false, familiesPart]
  congr 1
  rw [List.flatMap_def, List.flatMap_def]
  congr 1
  apply List.map_congr_left
  intro x hx
  rw [if_pos (by simpa using hx)]

/-- The events end as a complete family after its last stage. -/
theorem familyPart_nstg (i : Nat) : familyPart mode rd i (storeNstg rd i) = familyEvents mode rd i := rfl

/-! ### The trace of a state -/

theorem events_emit (e : Event) (dt : Nat) : (s.emit e dt).events = s.events ++ [e] := by
  simp [State.events]

theorem events_congr {s t : State} (h : t.trace = s.trace) : t.events = s.events := by
  unfold State.events; rw [h]

/-- At the end of a stage and of its delay, `nextStage` leads to a state whose trace is the demanded one. -/
theorem nextStage_traceOk (u : State) (hi : u.i.toNat < u.nord) (hj : u.j.toNat < u.nstg) (hac : u.storeAccepted)
    (h : u.events = familiesPart u.cfg.acqMode u.word u.i.toNat ++ familyPart u.cfg.acqMode u.word u.i.toNat (u.j.toNat + 1)) :
    (nextStage u).traceOk := by
  have a1 := nord_le_of_accepted hac
  have a2 := @nstg_lt u
  rcases nextStage_cases u with ⟨h1, h2⟩ | ⟨h1, h2, h3⟩ | ⟨h1, h2, h3, h4⟩ | ⟨h1, h2, h3, h4⟩
  · rw [h2, State.traceOk, if_neg (by simp)]
    show u.events = eventsAt u.cfg.acqMode u.word .acquiring u.i.toNat (u.j + 1).toNat 0
    rw [h, toNat_succ h1 a2.le]
    simp only [eventsAt]
    cases u.cfg.acqMode <;> simp [stagePart]
  · rw [h3, State.traceOk, if_neg (by simp)]
    show u.events = eventsAt u.cfg.acqMode u.word .done _ _ _
    have e1 : storeNord u.word = u.i.toNat + 1 := by have : storeNord u.word = u.nord := rfl; omega
    have e2 : u.j.toNat + 1 = storeNstg u.word u.i.toNat := by have : storeNstg u.word u.i.toNat = u.nstg := rfl; omega
    simp only [eventsAt]
    rw [programEvents_last e1, h, e2, familyPart_nstg]
  · rw [h4, State.traceOk, if_neg (by simp)]
    show u.events = eventsAt u.cfg.acqMode u.word .fsettling u.i.toNat _ _
    have e2 : u.j.toNat + 1 = storeNstg u.word u.i.toNat := by have : storeNstg u.word u.i.toNat = u.nstg := rfl; omega
    simp only [eventsAt]
    rw [h, e2, familyPart_nstg]
  · rw [h4, State.traceOk, if_neg (by simp)]
    show u.events = eventsAt u.cfg.acqMode u.word .selecting (u.i + 1).toNat _ _
    have e2 : u.j.toNat + 1 = storeNstg u.word u.i.toNat := by have : storeNstg u.word u.i.toNat = u.nstg := rfl; omega
    have e3 : storeIfd u.word = none := h3
    simp only [eventsAt]
    rw [h, e2, toNat_succ h2 (by omega), familiesPart_succ, familyPart_nstg, e3]
    simp

/-! ### The bus automaton -/

theorem busRun_append (es fs : List Event) (o : Bool) : busRun (es ++ fs) o = (busRun es o).bind (busRun fs) := by
  induction es generalizing o with
  | nil => rfl
  | cons e es ih =>
    simp only [List.cons_append, busRun]
    cases busAfter e o with
    | none => rfl
    | some o' => exact ih o'

/-- Blocks that each lead from bus state `o` back to it do so together. -/
theorem busRun_flatMap {α : Type} {o : Bool} {f : α → List Event} {l : List α} (h : ∀ x ∈ l, busRun (f x) o = some o) :
    busRun (l.flatMap f) o = some o := by
  induction l with
  | nil => rfl
  | cons x l ih =>
    rw [List.flatMap_cons, busRun_append, h x (by simp)]
    exact ih fun y hy => h y (by simp [hy])

end Sys2Proof.Machine
end

