-- ==== Sys2Proof/Machine/Assembler.lean ====
section
/-! DEFINITION. The textual form of a profile: 30_encoding.md R105 and the pseudo-instructions of R106. A tool beside the
machine; no step uses it. Text is a list of characters, so that the kernel can run it. -/

namespace Sys2Proof.Machine

/-! ### Words of a line -/

/-- Cut at every character that satisfies `p`. -/
def cutAt (p : Char → Bool) : List Char → List (List Char)
  | [] => [[]]
  | c :: cs =>
    if p c then [] :: cutAt p cs
    else
      match cutAt p cs with
      | [] => [[c]]
      | h :: t => (c :: h) :: t

/-- The words of a line, without its comment; indentation is free (R105). -/
def lineWords (l : List Char) : List (List Char) :=
  (cutAt (fun c => c == ' ' || c == '\t' || c == '\r') (l.takeWhile (· != ';'))).filter fun w => !w.isEmpty

/-! ### Numbers -/

def digitOf (c : Char) : Option Nat :=
  if '0' ≤ c ∧ c ≤ '9' then some (c.toNat - '0'.toNat)
  else if 'a' ≤ c ∧ c ≤ 'f' then some (c.toNat - 'a'.toNat + 10)
  else if 'A' ≤ c ∧ c ≤ 'F' then some (c.toNat - 'A'.toNat + 10)
  else none

/-- The digits of `cs` in base `base`, most significant first, after the value `acc`. -/
def digitsFrom (base : Nat) : Nat → List Char → Option Nat
  | acc, [] => some acc
  | acc, c :: cs =>
    match digitOf c with
    | some d => if d < base then digitsFrom base (acc * base + d) cs else none
    | none => none

/-- A decimal number from 0 to `max`. -/
def decimal (max : Nat) (cs : List Char) : Option Nat :=
  if cs.isEmpty then none else (digitsFrom 10 0 cs).filter (· ≤ max)

def millis (cs : List Char) : Option Millis := (decimal 65535 cs).map (BitVec.ofNat 16)

/-- `0b` and exactly two binary digits. -/
def muxCode : List Char → Option MuxCode
  | ['0', 'b', x, y] => (digitsFrom 2 0 [x, y]).map (BitVec.ofNat 2)
  | _ => none

def bitDigit : List Char → Option Bool
  | ['0'] => some false
  | ['1'] => some true
  | _ => none

def widthDigit : List Char → Option Nat
  | ['3'] => some 3
  | ['4'] => some 4
  | _ => none

/-- Pairs of hexadecimal digits as bytes. -/
def hexBytes : List Char → Option Frame
  | [] => some []
  | [_] => none
  | x :: y :: cs =>
    match digitsFrom 16 0 [x, y], hexBytes cs with
    | some b, some bs => some (BitVec.ofNat 8 b :: bs)
    | _, _ => none

/-- `0x` and the digits of a frame, the leftmost two are byte 0 (R105). -/
def hexFrame : List Char → Option Frame
  | '0' :: 'x' :: cs => hexBytes cs
  | _ => none

def familyNamed (w : List Char) : Option DeviceFamily :=
  if w = "SYNTH_A".toList then some .synthesizerA
  else if w = "SYNTH_B".toList then some .synthesizerB
  else if w = "GAIN_A".toList then some .gainStageA
  else if w = "GAIN_B".toList then some .gainStageB
  else if w = "ADC".toList then some .adc
  else none

def kindNamed (w : List Char) : Option StageKind :=
  if w = "SINGLE".toList then some .singleLoad
  else if w = "PROV".toList then some .provisionalLoad
  else if w = "FINAL".toList then some .finalLoad
  else none

/-! ### Lines -/

/-- A line of the notation, pseudo-instructions included. -/
inductive AsmLine where
  | profile (ifd : Option Millis)
  | family (name : DeviceFamily) (mux : MuxCode) (width : Nat) (line : BitVec 2) (spi : SpiConfig)
  | stage (kind : StageKind) (delay : Option Millis)
  /-- `frame`, or `frames` with one frame for each value (R106). -/
  | frames (fs : List Frame)
  /-- `settle` (R106). -/
  | settle (ms : Millis)
  | endLine
deriving DecidableEq, Repr

/-- The value of an optional word `key=value` at the head of `ws`, and the words after it. -/
def takeOption {α : Type} (key : String) (read : List Char → Option α) (ws : List (List Char)) :
    Option (Option α × List (List Char)) :=
  match ws with
  | [] => some (none, [])
  | w :: rest =>
    if (key.toList ++ ['=']).isPrefixOf w then
      (read (w.drop (key.toList.length + 1))).map fun v => (some v, rest)
    else some (none, w :: rest)

/-- The value of a word `key=value` that must stand at the head of `ws`. -/
def takeRequired {α : Type} (key : String) (read : List Char → Option α) (ws : List (List Char)) :
    Option (α × List (List Char)) := do
  let (v, rest) ← takeOption key read ws
  let v ← v
  pure (v, rest)

def profileLine (ws : List (List Char)) : Option AsmLine := do
  let (ifd, rest) ← takeOption "ifd" millis ws
  if rest.isEmpty then pure (.profile ifd) else none

/-- `family <NAME> mux= width= [line=] [cpol=] [cpha=] [lsbf=] [clk=]`; an omitted option is 0 (R105). -/
def familyLine (ws : List (List Char)) : Option AsmLine :=
  match ws with
  | [] => none
  | nm :: rest => do
    let f ← familyNamed nm
    let (mux, rest) ← takeRequired "mux" muxCode rest
    let (width, rest) ← takeRequired "width" widthDigit rest
    let (line, rest) ← takeOption "line" (decimal 3) rest
    let (cpol, rest) ← takeOption "cpol" bitDigit rest
    let (cpha, rest) ← takeOption "cpha" bitDigit rest
    let (lsbf, rest) ← takeOption "lsbf" bitDigit rest
    let (clk, rest) ← takeOption "clk" (decimal 255) rest
    if rest.isEmpty then
      pure (.family f mux width (BitVec.ofNat 2 (line.getD 0))
        { clk := BitVec.ofNat 8 (clk.getD 0), cpol := cpol.getD false, cpha := cpha.getD false, lsbf := lsbf.getD false })
    else none

/-- `stage <KIND> [delay=<ms>]`; an omitted delay is none, `delay=0` is present (R105). -/
def stageLine (ws : List (List Char)) : Option AsmLine :=
  match ws with
  | [] => none
  | kd :: rest => do
    let kind ← kindNamed kd
    let (d, rest) ← takeOption "delay" millis rest
    if rest.isEmpty then pure (.stage kind d) else none

def frameLine (ws : List (List Char)) : Option AsmLine :=
  match ws with
  | [w] => (hexFrame w).map fun f => .frames [f]
  | _ => none

def framesLine (ws : List (List Char)) : Option AsmLine :=
  if ws.isEmpty then none else (ws.mapM hexFrame).map .frames

def settleLine (ws : List (List Char)) : Option AsmLine :=
  match ws with
  | [w] => (millis w).map .settle
  | _ => none

/-- The line that starts with the word `op` (R105, R106). -/
def asmLine (op : List Char) (ws : List (List Char)) : Option AsmLine :=
  if op = "profile".toList then profileLine ws
  else if op = "family".toList then familyLine ws
  else if op = "stage".toList then stageLine ws
  else if op = "load".toList then (if ws.isEmpty then some (.stage .singleLoad none) else none)
  else if op = "frame".toList then frameLine ws
  else if op = "frames".toList then framesLine ws
  else if op = "settle".toList then settleLine ws
  else if op = "end".toList then (if ws.isEmpty then some .endLine else none)
  else none

/-- The lines of a text, empty ones left out. -/
def asmLines (text : List Char) : Option (List AsmLine) :=
  ((cutAt (· == '\n') text).map lineWords).filterMapM fun ws =>
    match ws with
    | [] => some none
    | op :: rest => (asmLine op rest).map some

/-! ### From lines to a profile, from the last line to the first -/

/-- What stands below a line and is not yet part of a stage or a family. -/
structure AsmBelow where
  settle : Option Millis
  frames : List Frame
  stages : List ProgramStage
  order  : List (DeviceFamily × FamilyEntry)
deriving DecidableEq, Repr

/-- One line above what stands below it. `settle` comes after the last frame of a stage, and not where the stage line has a
delay (R106). -/
def asmAbove (l : AsmLine) (b : AsmBelow) : Option AsmBelow :=
  match l with
  | .frames fs => some { b with frames := fs ++ b.frames }
  | .settle ms => if b.frames.isEmpty && b.settle.isNone then some { b with settle := some ms } else none
  | .stage kind d =>
    if b.settle.isSome && (d.isSome || b.frames.isEmpty) then none
    else some { b with settle := none, frames := []
                       stages := { kind := kind, frames := b.frames, delay := d.or b.settle } :: b.stages }
  | .family f mux width line spi =>
    if b.settle.isNone && b.frames.isEmpty && b.stages.all fun st => st.frames.all fun fr => fr.length == width then
      some { b with stages := [], order := (f, { mux := mux, width := width, line := line, spi := spi,
                                                 stages := b.stages }) :: b.order }
    else none
  | .profile _ => none
  | .endLine => none

def asmBody : List AsmLine → Option AsmBelow
  | [] => some { settle := none, frames := [], stages := [], order := [] }
  | l :: ls => (asmBody ls).bind (asmAbove l)

/-- `profile`, the body, `end`. -/
def asmProfile (ls : List AsmLine) : Option Profile :=
  match ls with
  | .profile ifd :: rest =>
    if rest.getLast? = some .endLine then
      match asmBody rest.dropLast with
      | some b =>
        if b.settle.isNone && b.frames.isEmpty && b.stages.isEmpty then some { order := b.order, ifd := ifd } else none
      | none => none
    else none
  | _ => none

/-- The counts fit their fields NFAM, NSTG and NFRM. -/
def Profile.countsFit (p : Profile) : Bool :=
  decide (p.order.length ≤ 15) && p.order.all fun fe =>
    decide (fe.2.stages.length ≤ 15) && fe.2.stages.all fun st => decide (st.frames.length ≤ 255)

/-- The store words that a text assembles to, or none where it is no program text. -/
def assemble (text : List Char) : Option (List Word) :=
  match (asmLines text).bind asmProfile with
  | some p => if Profile.countsFit p then some (encodeProfile p) else none
  | none => none

end Sys2Proof.Machine
end

