-- ==== Sys2Proof/Tests/Slice0.lean ====
section
/-! SUPPORT. Tests of one step each, and a witness for every statement with hypotheses. Expected results are the vectors of
95_test_vectors.md and the encodings of 30_encoding.md, written out by hand. -/

namespace Sys2Proof.Tests

open Sys2Proof.Machine

/-! ### Well-formedness: an ill-formed term for each check -/

theorem test_wellFormed_families : (Instr.hdr 6 none).wellFormed = false ∧ (Instr.hdr 5 none).wellFormed = true := by decide
theorem test_wellFormed_stages :
    (Instr.fam .adc 0 false 0 ⟨0, false, false, false⟩ 0).wellFormed = false ∧
    (Instr.fam .adc 0 false 0 ⟨0, false, false, false⟩ 1).wellFormed = true := by decide
theorem test_wellFormed_frames :
    (Instr.stgSingle 0 none).wellFormed = false ∧ (Instr.stgProv 0 none).wellFormed = false ∧
    (Instr.stgFinal 0 none).wellFormed = false ∧ (Instr.stgSingle 1 none).wellFormed = true := by decide

/-- One stage of one three-byte frame. -/
def oneStage (kind : StageKind) : FamilyEntry :=
  { mux := 2, width := 3, line := 0, spi := ⟨0, false, false, false⟩
    stages := [{ kind := kind, frames := [[1, 2, 3]], delay := none }] }

def oneFamily (e : FamilyEntry) : Profile := { order := [(.adc, e)], ifd := none }

theorem test_profile_ok : (oneFamily (oneStage .singleLoad)).wellFormed = true := by decide
theorem test_profile_orderOk :
    Profile.orderOk { order := [(.adc, oneStage .singleLoad), (.adc, oneStage .singleLoad)], ifd := none } = false := by decide
theorem test_profile_widthOk : (oneFamily { oneStage .singleLoad with width := 4 }).widthOk = false ∧
    (oneFamily { oneStage .singleLoad with width := 5, stages := [] }).widthOk = false := by decide
/-- A frame that is not as wide as its family: no store is built of it (R68). -/
theorem test_buildStore :
    buildStore (oneFamily { oneStage .singleLoad with width := 4 }) 1024 = none ∧
    buildStore (oneFamily (oneStage .singleLoad)) 5 = some [0x11000000, 0x29000001, 0x30010000, 0x01020300, 0xF0000000] ∧
    buildStore (oneFamily (oneStage .singleLoad)) 4 = none := by decide +kernel
theorem test_profile_countsOk : (oneFamily { oneStage .singleLoad with stages := [] }).countsOk = false ∧
    (oneFamily { oneStage .singleLoad with stages := [⟨.singleLoad, [], none⟩] }).countsOk = false := by decide
theorem test_profile_kindPattern : (oneFamily (oneStage .provisionalLoad)).kindPattern = false := by decide

/-! ### Words (95_test_vectors.md 2.1) -/

theorem test_decode_hdr :
    decodeAt .hdr 0x10000000 = .ok (.hdr 0 none) ∧ decodeAt .hdr 0x15000000 = .ok (.hdr 5 none) ∧
    decodeAt .hdr 0x12800005 = .ok (.hdr 2 (some 5)) ∧ decodeAt .hdr 0x1180FFFF = .ok (.hdr 1 (some 65535)) ∧
    decodeAt .hdr 0x11800000 = .ok (.hdr 1 (some 0)) := by decide
theorem test_decode_fam :
    decodeAt .fam 0x20400002 = .ok (.fam .synthesizerA 0 true 0 ⟨0, false, false, false⟩ 2) ∧
    decodeAt .fam 0x22400302 = .ok (.fam .synthesizerB 0 true 0 ⟨3, false, false, false⟩ 2) ∧
    decodeAt .fam 0x24860001 = .ok (.fam .gainStageA 1 false 0 ⟨0, false, true, true⟩ 1) ∧
    decodeAt .fam 0x29000001 = .ok (.fam .adc 2 false 0 ⟨0, false, false, false⟩ 1) ∧
    decodeAt .fam 0x29B8FF0F = .ok (.fam .adc 3 false 3 ⟨255, true, false, false⟩ 15) := by decide
theorem test_decode_stg :
    decodeAt .stg 0x30020000 = .ok (.stgSingle 2 none) ∧ decodeAt .stg 0x32010000 = .ok (.stgSingle 1 (some 0)) ∧
    decodeAt .stg 0x360C0001 = .ok (.stgProv 12 (some 1)) ∧ decodeAt .stg 0x340B0000 = .ok (.stgProv 11 none) ∧
    decodeAt .stg 0x38080000 = .ok (.stgFinal 8 none) ∧ decodeAt .stg 0x3AFFFFFF = .ok (.stgFinal 255 (some 65535)) := by
  decide
theorem test_decode_frm_end :
    decodeAt (.frm true) 0x00580005 = .ok (.frm4 0x00 0x58 0x00 0x05) ∧
    decodeAt (.frm true) 0xFFFFFFFF = .ok (.frm4 0xFF 0xFF 0xFF 0xFF) ∧
    decodeAt (.frm false) 0x103F0000 = .ok (.frm3 0x10 0x3F 0x00) ∧
    decodeAt .endRec 0xF0000000 = .ok .endRec := by decide

/-- The refused words of 2.1 that one word decides. -/
theorem test_refused_words :
    decodeAt .hdr 0x21000000 = .error .badTag ∧ decodeAt .hdr 0x11010000 = .error .reservedBits ∧
    decodeAt .hdr 0x11000005 = .error .delayWithoutEnable ∧ decodeAt .fam 0x2A000001 = .error .reservedFid ∧
    decodeAt .fam 0x20010001 = .error .reservedBits ∧ decodeAt .fam 0x20000011 = .error .reservedBits ∧
    decodeAt .stg 0x3C010000 = .error .reservedKind ∧ decodeAt .stg 0x31010000 = .error .reservedBits ∧
    decodeAt .stg 0x30010001 = .error .delayWithoutEnable ∧ decodeAt (.frm false) 0x00800101 = .error .reservedBits ∧
    decodeAt .endRec 0xF0000001 = .error .badTag := by decide

/-- The refused words and stores of 2.1 that a count or the rest of the store decides. -/
theorem test_refused_stores :
    storeCheck (readList [0x16000000]) 1024 = some (0, .tooManyFamilies) ∧
    storeCheck (readList [0x11000000, 0x20000000]) 1024 = some (1, .noStage) ∧
    storeCheck (readList [0x11000000, 0x20000001, 0x30000000]) 1024 = some (2, .noFrame) ∧
    storeCheck (readList [0x12000000, 0x29000001, 0x30010000, 0x00000000, 0x29000001]) 1024 = some (4, .duplicateFamily) ∧
    storeCheck (readList [0x11000000, 0x29000001, 0x34010000]) 1024 = some (2, .kindPattern) ∧
    storeCheck (readList [0x11000000, 0x29000002, 0x30010000, 0, 0x38010000, 0, 0xF0000000]) 1024
      = some (2, .kindPattern) ∧
    storeCheck (readList [0x11000000, 0x29000001, 0x30020000, 0x00800100, 0x01002000, 0xF0000000]) 5
      = some (5, .pastEnd) ∧
    storeCheck (readList [0x11000000, 0x29000001, 0x30020000, 0x00800100, 0x01002000, 0xF0000000]) 6 = none := by
  decide +kernel

theorem test_decodeTableWord :
    decodeTableWord 32 0x10000000 = some (.hdr 0 none) ∧
    decodeTableWord 32 0x20000000 = some (.fam .synthesizerA 0 false 0 ⟨0, false, false, false⟩ 0) ∧
    decodeTableWord 32 0x34000000 = some (.stgProv 0 none) ∧ decodeTableWord 32 0xF0000000 = some .endRec ∧
    decodeTableWord 32 0xAABBCC00 = some (.frm3 0xAA 0xBB 0xCC) ∧
    decodeTableWord 32 0xAABBCCDD = some (.frm4 0xAA 0xBB 0xCC 0xDD) ∧ decodeTableWord 16 0 = none := by decide

/-! ### Stores (95_test_vectors.md 3, 30_encoding.md R107) -/

/-- Program 1. -/
def program1 : List Word := [0x11000000, 0x29000001, 0x30020000, 0x00800100, 0x01002000, 0xF0000000]

/-- Program 2, the worked encoding of R107. -/
def program2 : List Word :=
  [0x12800005, 0x22400302, 0x36020001, 0x00580005, 0x009C803C, 0x38010000, 0x002C8018, 0x24860001, 0x32010000,
   0x103F0000, 0xF0000000]

/-- The worked assembly of R107. -/
theorem test_assemble_program2 :
    assemble "profile ifd=5   ; comment
family SYNTH_B mux=0b00 width=4 clk=3
  stage PROV delay=1
    frame 0x00580005
    frame 0x009C803C
  stage FINAL
    frame 0x002C8018
family GAIN_A mux=0b01 width=3 cpha=1 lsbf=1
  stage SINGLE delay=0
    frame 0x103F00
end
".toList = some program2 := by decide +kernel

/-- Program 1 with its pseudo-instructions, and `settle` (R106): with it the stage word is that of `delay=7`, beside `delay=`
it is an error. -/
theorem test_assemble_pseudo :
    assemble "profile\nfamily ADC mux=0b10 width=3\n load\n  frames 0x008001 0x010020\nend".toList = some program1 ∧
    (assemble "profile\nfamily ADC mux=0b10 width=3\n load\n  frame 0x008001\n settle 7\nend".toList).map (·[2]!)
      = some 0x32010007 ∧
    assemble "profile\nfamily ADC mux=0b10 width=3\n stage SINGLE delay=7\n  frame 0x008001\n settle 7\nend".toList = none ∧
    assemble "profile\nfamily ADC mux=0b10 width=3\n load\n  frame 0x00800100\nend".toList = none := by decide +kernel

/-- Program 4: the placeholder profile is well-formed, meets what the source fixes, and its store is the 56 words given. -/
theorem test_placeholder_store :
    Profile.placeholder.wellFormed = true ∧ Profile.placeholder.meetsSource = true ∧
    encodeProfile Profile.placeholder =
      [0x15000000, 0x20400002, 0x340B0000, 0x000000A5, 0x000001A5, 0x000002A5, 0x000003A5, 0x000004A5, 0x000005A5,
       0x000006A5, 0x000007A5, 0x000008A5, 0x000009A5, 0x00000AA5, 0x38080000, 0x000100A5, 0x000101A5, 0x000102A5,
       0x000103A5, 0x000104A5, 0x000105A5, 0x000106A5, 0x000107A5, 0x22400002, 0x360C0001, 0x010000A5, 0x010001A5,
       0x010002A5] ++
      [0x010003A5, 0x010004A5, 0x010005A5, 0x010006A5, 0x010007A5, 0x010008A5, 0x010009A5, 0x01000AA5, 0x01000BA5,
       0x38050000, 0x010100A5, 0x010101A5, 0x010102A5, 0x010103A5, 0x010104A5, 0x24800001, 0x30020000, 0x02000000,
       0x02000100, 0x26800001, 0x30020000, 0x03000000, 0x03000100, 0x29000001, 0x30020000, 0x04000000, 0x04000100,
       0xF0000000] := by decide +kernel

/-- Program 4's addresses: base 1, 23, 43, 47, 51, END at 55, frame (1, 1, 2) at 40. -/
theorem test_placeholder_addresses :
    (List.range 5).map (famAddr (readList (encodeProfile Profile.placeholder))) = [1, 23, 43, 47, 51] ∧
    endAddr (readList (encodeProfile Profile.placeholder)) = 55 ∧
    frmAddr (readList (encodeProfile Profile.placeholder)) 1 1 2 = 40 := by decide +kernel

/-- Program 4's run: 69 events PerStage, 174 PerFrame, 42 transfers. -/
theorem test_placeholder_events :
    (programEvents .perStage (readList (encodeProfile Profile.placeholder))).length = 69 ∧
    (programEvents .perFrame (readList (encodeProfile Profile.placeholder))).length = 174 ∧
    frameCount (readList (encodeProfile Profile.placeholder)) = 42 := by decide +kernel

/-! ### Steps -/

/-- A state on a store, one arrival pending. -/
def at_ (ws : List Word) (p : Phase) (i : BitVec 3) (j : BitVec 4) (k : BitVec 8) (mux : MuxCode) (own : Bool) (cause : Cause)
    (a : Arrival) : State :=
  { phase := p, i := i, j := j, k := k, mux := mux, busOwned := own, cause := cause, trace := [], now := 0
    cfg := Config.default, rom := Memory.loadWords [] 0 ws, arrivals := [a], draws := 1 }

/-- The state in PerFrame mode. -/
def perFrame (s : State) : State := { s with cfg := { s.cfg with acqMode := .perFrame } }

def answers (r : Response) : Arrival := { reset := false, start := false, resp := some r }
def starts : Arrival := { reset := false, start := true, resp := none }
def resets : Arrival := { reset := true, start := true, resp := some (.ok 0) }

/-- Phase, position, bus, cause. -/
structure View where
  phase : Phase
  i : Nat
  j : Nat
  k : Nat
  own : Bool
  cause : Cause
deriving DecidableEq, Repr

def viewOf (t : State) : View :=
  { phase := t.phase, i := t.i.toNat, j := t.j.toNat, k := t.k.toNat, own := t.busOwned, cause := t.cause }

def view (r : Result) : Option View :=
  match r with
  | .next t => some (viewOf t)
  | _ => none

def eventsOf (r : Result) : List Event :=
  match r with
  | .next t => t.events
  | _ => []

def muxOf (r : Result) : Option MuxCode :=
  match r with
  | .next t => some t.mux
  | _ => none

def statusOf (r : Result) : Option Word :=
  match r with
  | .next t => some t.status
  | _ => none

def refusalOf (r : Result) : Option Refusal :=
  match r with
  | .refused x => some x
  | _ => none

def nowOf (r : Result) : Option Nat :=
  match r with
  | .next t => some t.now
  | _ => none

/-- R140 on programs 2 and 5. -/
theorem test_start :
    view (step (at_ program2 .idle 0 0 0 0 false .noCause starts)) = some ⟨.selecting, 0, 0, 0, false, .noCause⟩ ∧
    view (step (at_ [0x10000000, 0xF0000000] .idle 0 0 0 0 false .noCause starts))
      = some ⟨.done, 0, 0, 0, false, .noCause⟩ := by decide +kernel

/-- R130: the code, whatever the lines hold. -/
theorem test_sel_ok :
    view (step (at_ program2 .selecting 1 0 0 0 false .noCause (answers (.ok 0))))
      = some ⟨.acquiring, 1, 0, 0, false, .noCause⟩ ∧
    muxOf (step (at_ program2 .selecting 1 0 0 0 false .noCause (answers (.ok 0)))) = some 1 ∧
    eventsOf (step (at_ program2 .selecting 1 0 0 0 false .noCause (answers (.ok 0)))) = [.sel 1 .ok] := by decide +kernel

/-- R130, program 3b. -/
theorem test_sel_rejected :
    view (step (at_ program2 .selecting 1 0 0 0 false .noCause (answers (.rejected 0))))
      = some ⟨.fatal, 1, 0, 0, false, .selectorFailure⟩ ∧
    eventsOf (step (at_ program2 .selecting 1 0 0 0 false .noCause (answers (.rejected 0)))) = [.sel 1 .rejected] := by
  decide +kernel

/-- R142, R143. -/
theorem test_acq_cfg :
    view (step (at_ program2 .acquiring 0 0 0 0 false .noCause (answers (.granted 0))))
      = some ⟨.configuring, 0, 0, 0, true, .noCause⟩ ∧
    view (step (at_ program2 .configuring 0 0 0 0 true .noCause (answers (.ok 0))))
      = some ⟨.framing, 0, 0, 0, true, .noCause⟩ ∧
    eventsOf (step (at_ program2 .configuring 0 0 0 0 true .noCause (answers (.ok 0))))
      = [.cfg ⟨3, false, false, false⟩] := by decide +kernel

/-- R144: first and last frame of a stage, and PerFrame. -/
theorem test_xfer_ok :
    view (step (at_ program2 .framing 0 0 0 0 true .noCause (answers (.ok 0))))
      = some ⟨.framing, 0, 0, 1, true, .noCause⟩ ∧
    eventsOf (step (at_ program2 .framing 0 0 0 0 true .noCause (answers (.ok 0))))
      = [.xfer 0 [0x00, 0x58, 0x00, 0x05] .ok] ∧
    view (step (at_ program2 .framing 0 0 1 0 true .noCause (answers (.ok 0))))
      = some ⟨.releasing, 0, 0, 1, true, .noCause⟩ ∧
    view (step (perFrame (at_ program2 .framing 0 0 0 0 true .noCause (answers (.ok 0)))))
      = some ⟨.releasing, 0, 0, 0, true, .noCause⟩ := by decide +kernel

/-- R144 for a three-byte frame, program 1. -/
theorem test_xfer_frm3 :
    eventsOf (step (at_ program1 .framing 0 0 1 2 true .noCause (answers (.ok 0))))
      = [.xfer 0 [0x01, 0x00, 0x20] .ok] := by decide +kernel

/-- R144, R236, program 3a: STATUS 0x0001005F. -/
theorem test_xfer_fail :
    view (step (at_ program2 .framing 0 0 1 0 true .noCause (answers (.fail 0))))
      = some ⟨.fatal, 0, 0, 1, true, .transportFailure⟩ ∧
    statusOf (step (at_ program2 .framing 0 0 1 0 true .noCause (answers (.fail 0)))) = some 0x0001005F := by
  decide +kernel

/-- R145 to R149, the rows of 2.3. -/
theorem test_rel :
    view (step (at_ program2 .releasing 0 0 1 0 true .noCause (answers (.ok 0))))
      = some ⟨.settling, 0, 0, 1, false, .noCause⟩ ∧
    view (step (at_ program2 .releasing 0 1 0 0 true .noCause (answers (.ok 0))))
      = some ⟨.fsettling, 0, 1, 0, false, .noCause⟩ ∧
    view (step (perFrame (at_ program2 .releasing 0 0 0 0 true .noCause (answers (.ok 0)))))
      = some ⟨.acquiring, 0, 0, 1, false, .noCause⟩ ∧
    view (step (at_ program1 .releasing 0 0 1 2 true .noCause (answers (.ok 0))))
      = some ⟨.done, 0, 0, 1, false, .noCause⟩ ∧
    view (step (at_ (0x12000000 :: program2.tail) .releasing 0 1 0 0 true .noCause (answers (.ok 0))))
      = some ⟨.selecting, 1, 0, 0, false, .noCause⟩ := by decide +kernel

/-- R210, the rows of 2.4. -/
theorem test_slp_stage :
    view (step (at_ program2 .settling 0 0 1 0 false .noCause (answers (.elapsed 7))))
      = some ⟨.acquiring, 0, 1, 0, false, .noCause⟩ ∧
    nowOf (step (at_ program2 .settling 0 0 1 0 false .noCause (answers (.elapsed 7)))) = some 7 ∧
    view (step (at_ program2 .settling 0 0 1 0 false .noCause (answers (.elapsed 0)))) = none ∧
    view (step (at_ program2 .settling 1 0 0 1 false .noCause (answers (.elapsed 0))))
      = some ⟨.done, 1, 0, 0, false, .noCause⟩ ∧
    statusOf (step (at_ program2 .settling 1 0 0 1 false .noCause (answers (.fail 0)))) = some 0x000002BF := by
  decide +kernel

/-- R218, the rows of 2.4. -/
theorem test_slp_family :
    view (step (at_ program2 .fsettling 0 1 0 0 false .noCause (answers (.elapsed 5))))
      = some ⟨.selecting, 1, 0, 0, false, .noCause⟩ ∧
    eventsOf (step (at_ program2 .fsettling 0 1 0 0 false .noCause (answers (.elapsed 5)))) = [.slp 5 .elapsed] ∧
    statusOf (step (at_ program2 .fsettling 0 1 0 0 false .noCause (answers (.fail 0)))) = some 0x0000103F := by
  decide +kernel

/-- R150: END in DONE; STATUS of program 2's end state. -/
theorem test_end :
    view (step (at_ program2 .done 1 0 0 1 false .noCause starts)) = some ⟨.done, 1, 0, 0, false, .noCause⟩ ∧
    statusOf (step (at_ program2 .done 1 0 0 1 false .noCause starts)) = some 0x00000288 := by decide +kernel

/-- R270, R243, R271. -/
theorem test_reset :
    view (step (at_ program2 .framing 2 0 1 1 true .noCause resets)) = some ⟨.idle, 0, 0, 0, false, .noCause⟩ ∧
    view (step (at_ program2 .fatal 0 0 1 0 true .transportFailure resets)) = some ⟨.idle, 0, 0, 0, false, .noCause⟩ ∧
    view (step (at_ program2 .fatal 0 0 1 0 true .transportFailure starts))
      = some ⟨.fatal, 0, 0, 1, true, .transportFailure⟩ := by decide +kernel

/-- From reset with nothing placed the core waits in IDLE; each table word runs as the first step where it is placed. -/
theorem test_reset_waits : step State.reset = .next State.reset := rfl
theorem test_withFetchWord :
    (∃ t, step (State.reset.withFetchWord 32 0x10000000) = .next t ∧ t.phase = .done) ∧
    (∃ t, step (State.reset.withFetchWord 32 0x15000000) = .next t ∧ t.phase = .selecting) ∧
    (∃ t, step (State.reset.withFetchWord 32 0x20000000) = .next t ∧ t.phase = .acquiring) ∧
    (∃ t, step (State.reset.withFetchWord 32 0x30000000) = .next t ∧ t.phase = .configuring) ∧
    (∃ t, step (State.reset.withFetchWord 32 0x34000000) = .next t ∧ t.phase = .configuring) ∧
    (∃ t, step (State.reset.withFetchWord 32 0x38000000) = .next t ∧ t.phase = .configuring) ∧
    (∃ t, step (State.reset.withFetchWord 32 0x00000000) = .next t ∧ t.phase = .releasing) ∧
    (∃ t, step (State.reset.withFetchWord 32 0xFFFFFFFF) = .next t ∧ t.phase = .releasing) ∧
    (∃ t, step (State.reset.withFetchWord 32 0xF0000000) = .next t ∧ t.phase = .done) :=
  ⟨⟨_, rfl, rfl⟩, ⟨_, rfl, rfl⟩, ⟨_, rfl, rfl⟩, ⟨_, rfl, rfl⟩, ⟨_, rfl, rfl⟩, ⟨_, rfl, rfl⟩, ⟨_, rfl, rfl⟩, ⟨_, rfl, rfl⟩,
    ⟨_, rfl, rfl⟩⟩

/-! ### Witnesses: for every statement with hypotheses, operands that meet them all -/

/-- A state with a past, one event at each ms. -/
def past (es : List Event) (s : State) : State :=
  { s with trace := es.mapIdx fun n e => { event := e, time := n }, now := es.length }

def releasing (s : State) : State := { s with cfg := { s.cfg with releaseOnAbort := true } }
def cannotReject (s : State) : State := { s with cfg := { s.cfg with selectorCanFail := false } }

/-- Program 1, done. -/
def done1 : State :=
  past [.sel 2 .ok, .acq, .cfg ⟨0, false, false, false⟩, .xfer 0 [0x00, 0x80, 0x01] .ok, .xfer 0 [0x01, 0x00, 0x20] .ok, .rel]
    (at_ program1 .done 0 0 1 2 false .noCause starts)

/-- Program 2, about to send the first frame of stage (0, 1); its delay of 1 ms is served. -/
def secondStage : State :=
  past [.sel 0 .ok, .acq, .cfg ⟨3, false, false, false⟩, .xfer 0 [0x00, 0x58, 0x00, 0x05] .ok,
      .xfer 0 [0x00, 0x9C, 0x80, 0x3C] .ok, .rel, .slp 1 .elapsed, .acq, .cfg ⟨3, false, false, false⟩]
    (at_ program2 .framing 0 1 0 0 true .noCause (answers (.ok 4)))

theorem program2_accepted : (at_ program2 .idle 0 0 0 0 false .noCause starts).storeAccepted := by
  unfold State.storeAccepted
  decide +kernel

/-- Every well-formed and every accepted thing the encoding statements ask for. -/
theorem witness_encoding :
    (Instr.hdr 5 (some 0xFFFF)).wellFormed = true ∧ (Instr.stgFinal 255 none).wellFormed = true ∧
    decodeAt .stg 0x3AFFFFFF = .ok (.stgFinal 255 (some 65535)) ∧
    (oneFamily (oneStage .singleLoad)).wellFormed = true ∧ (encodeProfile (oneFamily (oneStage .singleLoad))).length = 5 ∧
    decodeStore (readList (encodeProfile (oneFamily (oneStage .singleLoad)))) 5 = .ok (oneFamily (oneStage .singleLoad)) ∧
    storeCheck (readList (program2 ++ [0xDEADBEEF])) 1024 = none ∧ endAddr (readList (program2 ++ [0xDEADBEEF])) = 10 ∧
    (∀ a ≤ 10, readList program2 a = readList (program2 ++ [0xDEADBEEF]) a) := by decide +kernel

theorem witness_reset :
    (at_ program2 .fatal 0 0 1 0 true .transportFailure resets).arrival.reset = true ∧
    (at_ program2 .done 1 0 0 1 false .noCause resets).arrival.reset = true ∧
    (at_ program2 .idle 0 0 0 0 false .noCause starts).arrival.start = true ∧
    (at_ program2 .idle 0 0 0 0 false .noCause Arrival.nothing).arrival.start = false := by decide

theorem witness_HdrStartsTheRun :
    (at_ program2 .idle 0 0 0 0 false .noCause starts).phase = .idle ∧
    (at_ program2 .idle 0 0 0 0 false .noCause starts).arrival.start = true ∧
    (at_ program2 .idle 0 0 0 0 false .noCause starts).storeAccepted := ⟨rfl, rfl, program2_accepted⟩

theorem witness_RefusedStoreHasNoRun :
    storeCheck (at_ [0x16000000] .idle 0 0 0 0 false .noCause starts).word 1024 = some (0, .tooManyFamilies) ∧
    refusalOf (step (at_ [0x16000000] .idle 0 0 0 0 false .noCause starts)) = some (.storeRefused 0 .tooManyFamilies) := by
  decide +kernel

/-- `start` outside IDLE, with a response beside it. -/
theorem witness_StartIsIgnoredOutsideIdle :
    (at_ program2 .framing 0 0 0 0 true .noCause { reset := false, start := true, resp := some (.ok 0) }).phase ≠ .idle ∧
    view (step (at_ program2 .framing 0 0 0 0 true .noCause { reset := false, start := true, resp := some (.ok 0) }))
      = some ⟨.framing, 0, 0, 1, true, .noCause⟩ := by decide +kernel

/-- A rejection, admitted and not. -/
theorem witness_RejectedSelIsFatal :
    (at_ program2 .selecting 0 0 0 0 false .noCause (answers (.rejected 2))).arrival.resp = some (.rejected 2) ∧
    (at_ program2 .selecting 0 0 0 0 false .noCause (answers (.rejected 2))).cfg.selectorCanFail = true ∧
    view (step (cannotReject (at_ program2 .selecting 0 0 0 0 false .noCause (answers (.rejected 2))))) = none := by
  decide +kernel

/-- The phase, and the response that arrives without a reset. -/
def meets (s : State) (p : Phase) (r : Option Response) : Bool :=
  decide (s.phase = p) && decide (s.arrival.resp = r) && !s.arrival.reset

/-- The phase and the response that each operation's statements ask for, with the delay where there is one. -/
theorem witness_operations :
    meets (at_ program2 .selecting 0 0 0 0 false .noCause (answers (.ok 3))) .selecting (some (.ok 3)) = true ∧
    meets (at_ program2 .acquiring 0 0 0 0 false .noCause (answers (.granted 3))) .acquiring (some (.granted 3)) = true ∧
    meets (at_ program2 .configuring 0 0 0 0 true .noCause (answers (.ok 3))) .configuring (some (.ok 3)) = true ∧
    meets (at_ program2 .framing 0 0 0 0 true .noCause (answers (.ok 3))) .framing (some (.ok 3)) = true ∧
    meets (at_ program2 .framing 0 0 0 0 true .noCause (answers (.fail 3))) .framing (some (.fail 3)) = true ∧
    meets (at_ program2 .releasing 0 0 1 0 true .noCause (answers (.ok 3))) .releasing (some (.ok 3)) = true ∧
    meets (at_ program2 .settling 0 0 1 0 false .noCause (answers (.elapsed 1))) .settling (some (.elapsed 1)) = true ∧
    meets (at_ program2 .settling 0 0 1 0 false .noCause (answers (.fail 1))) .settling (some (.fail 1)) = true ∧
    meets (at_ program2 .fsettling 0 1 0 0 false .noCause (answers (.elapsed 5))) .fsettling (some (.elapsed 5)) = true ∧
    meets (at_ program2 .fsettling 0 1 0 0 false .noCause (answers (.fail 5))) .fsettling (some (.fail 5)) = true ∧
    meets (at_ program2 .framing 0 0 0 0 true .noCause Arrival.nothing) .framing none = true ∧
    meets (at_ program2 .settling 0 0 1 0 false .noCause Arrival.nothing) .settling none = true ∧
    meets done1 .done none = true := by decide +kernel

/-- A SEL that changes the lines, without a reset. -/
theorem witness_LinesChangeOnlyBySelOrReset :
    muxOf (step (at_ program2 .selecting 1 0 0 0 false .noCause (answers (.ok 0)))) = some 1 ∧
    (at_ program2 .selecting 1 0 0 0 false .noCause (answers (.ok 0))).mux = 0 := by decide +kernel

/-- A failed transfer, RELEASE_ON_ABORT false, and two more steps in which `start` comes. -/
theorem witness_NothingFollowsAFailedTransfer :
    let s := { at_ program2 .framing 0 0 1 0 true .noCause (answers (.fail 0)) with arrivals := [answers (.fail 0), starts, starts] }
    meets s .framing (some (.fail 0)) = true ∧ s.cfg.releaseOnAbort = false ∧
    view (step s) = some ⟨.fatal, 0, 0, 1, true, .transportFailure⟩ ∧
    (∀ a ∈ s.arrivals.tail.take 2, a.reset = false) := by decide +kernel

/-- A delay is over exactly at its length: at D, and one ms before. -/
theorem witness_delay_boundary :
    view (exec (.stgProv 2 (some 1)) (at_ program2 .settling 0 0 1 0 false .noCause (answers (.elapsed 1))))
      = some ⟨.acquiring, 0, 1, 0, false, .noCause⟩ ∧
    refusalOf (exec (.stgProv 2 (some 1)) (at_ program2 .settling 0 0 1 0 false .noCause (answers (.elapsed 0))))
      = some (.responseNotAdmitted .settling (.elapsed 0)) ∧
    view (exec (.hdr 2 (some 5)) (at_ program2 .fsettling 0 1 0 0 false .noCause (answers (.elapsed 5))))
      = some ⟨.selecting, 1, 0, 0, false, .noCause⟩ ∧
    refusalOf (exec (.hdr 2 (some 5)) (at_ program2 .fsettling 0 1 0 0 false .noCause (answers (.elapsed 4))))
      = some (.responseNotAdmitted .fsettling (.elapsed 4)) := by decide +kernel

/-- An abort with RELEASE_ON_ABORT (R236) beside the default of `test_xfer_fail`. -/
theorem witness_FailedTransferIsFatal :
    view (step (releasing (at_ program2 .framing 0 0 1 0 true .noCause (answers (.fail 0)))))
      = some ⟨.fatal, 0, 0, 1, false, .transportFailure⟩ ∧
    eventsOf (step (releasing (at_ program2 .framing 0 0 1 0 true .noCause (answers (.fail 0)))))
      = [.xfer 0 [0x00, 0x9C, 0x80, 0x3C] .fail, .rel] := by decide +kernel

/-- One answered record of each frame statement. -/
theorem witness_frames :
    view (exec (.hdr 2 (some 5)) (at_ program2 .idle 0 0 0 0 false .noCause starts))
      = some ⟨.selecting, 0, 0, 0, false, .noCause⟩ ∧
    view (exec (.fam .synthesizerB 0 true 0 ⟨3, false, false, false⟩ 2)
        (at_ program2 .selecting 0 0 0 3 false .noCause (answers (.ok 0)))) = some ⟨.acquiring, 0, 0, 0, false, .noCause⟩ ∧
    view (exec (.stgFinal 1 none) (at_ program2 .releasing 0 1 0 0 true .noCause (answers (.ok 0))))
      = some ⟨.fsettling, 0, 1, 0, false, .noCause⟩ ∧
    view (exec (.frm3 1 2 3) (at_ program1 .framing 0 0 1 2 true .noCause (answers (.ok 0))))
      = some ⟨.releasing, 0, 0, 1, true, .noCause⟩ ∧
    view (exec (.frm4 1 2 3 4) (at_ program2 .framing 0 0 1 0 true .noCause (answers (.ok 0))))
      = some ⟨.releasing, 0, 0, 1, true, .noCause⟩ ∧
    view (exec .endRec done1) = some ⟨.done, 0, 0, 1, false, .noCause⟩ := by decide +kernel

/-- A fetch: frame (0, 1, 0) of program 2 stands at word 6. -/
theorem witness_StepRunsTheFetchedRecord :
    secondStage.place = some (.frm true) ∧ secondStage.pp = 6 ∧
    decodeAt (.frm true) (secondStage.word 6) = .ok (.frm4 0x00 0x2C 0x80 0x18) ∧ secondStage.arrival.reset = false := by
  decide +kernel

theorem witness_StepNeverAppliesARecordOutOfPlace :
    refusalOf (step (at_ program2 .acquiring 0 0 0 0 false .noCause (answers (.ok 0))))
      = some (.responseNotAdmitted .acquiring (.ok 0)) := by decide +kernel

/-- A wait, and the stop in FATAL. -/
theorem witness_waits :
    view (step (at_ program2 .acquiring 0 0 0 0 false .noCause Arrival.nothing))
      = some ⟨.acquiring, 0, 0, 0, false, .noCause⟩ ∧
    view (step (at_ program2 .fatal 0 0 1 0 true .transportFailure starts))
      = some ⟨.fatal, 0, 0, 1, true, .transportFailure⟩ := by decide +kernel

/-- The invariant in the middle of a run. -/
theorem witness_Inv : secondStage.Inv where
  ownership := by unfold State.ownershipOk; decide +kernel
  cause := by unfold State.causeOk; decide +kernel
  position := by unfold State.positionOk; decide +kernel
  mux := by unfold State.muxOk; decide +kernel
  gate := by unfold State.gateOk; decide +kernel
  progress := trivial
  store := by unfold State.storeOk State.storeAccepted; decide +kernel

/-- The trace, the bus and the delays there. -/
theorem witness_traceOk : secondStage.traceOk := by
  rw [State.traceOk, if_neg (by decide)]
  decide +kernel

theorem witness_busOk : secondStage.busOk := by
  unfold State.busOk
  decide +kernel

/-- Its step adds one transfer. -/
theorem witness_TransferSeesItsFamilySelected :
    (eventsOf (step secondStage)).drop secondStage.events.length = [.xfer 0 [0x00, 0x2C, 0x80, 0x18] .ok] := by decide +kernel

/-- The last transfer before it was at 4 ms, the next is at 13 ms. -/
theorem witness_lastXferTime :
    lastXferTime secondStage.trace = some 4 ∧ gapBefore secondStage.word 0 1 = 1 ∧ nowOf (step secondStage) = some 13 := by
  decide +kernel

theorem witness_delaysOk : secondStage.delaysOk where
  past := by decide +kernel
  sent := by rintro (h | h | h) <;> exact absurd h (by decide)
  family := fun h => absurd h (by decide)
  stage := by
    intro _ _ t h
    rw [witness_lastXferTime.1] at h
    obtain rfl : t = 4 := by simpa using h.symm
    decide +kernel

/-- An admitted answer on an accepted store. -/
theorem witness_admitted : secondStage.storeAccepted ∧ secondStage.arrivalAdmitted := by
  refine ⟨by unfold State.storeAccepted; decide +kernel, ?_⟩
  intro r op hr ho
  obtain rfl : r = .ok 4 := by
    rw [show secondStage.arrival.resp = some (.ok 4) from rfl] at hr
    simpa using hr.symm
  obtain rfl : op = .xfer 0 [0x00, 0x2C, 0x80, 0x18] := by
    rw [show secondStage.outstanding = some (.xfer 0 [0x00, 0x2C, 0x80, 0x18]) by decide +kernel] at ho
    simpa using ho.symm
  rfl

/-- A completed run. -/
theorem witness_completed : done1.completed ∧ done1.traceOk ∧ done1.busOk ∧ done1.Inv := by
  refine ⟨rfl, ?_, by unfold State.busOk; decide +kernel, ?_⟩
  · rw [State.traceOk, if_neg (by decide)]
    decide +kernel
  · exact {
      ownership := by unfold State.ownershipOk; decide +kernel
      cause := by unfold State.causeOk; decide +kernel
      position := by unfold State.positionOk; decide +kernel
      mux := by unfold State.muxOk; decide +kernel
      gate := by unfold State.gateOk; decide +kernel
      progress := .inr (by unfold State.atFamilyEnd; decide +kernel)
      store := by unfold State.storeOk State.storeAccepted; decide +kernel }

/-- A failed run, for the last clause of FatalIsAStop: the abort is the last event. -/
theorem witness_fatal :
    (past [.sel 2 .rejected] (at_ program1 .fatal 0 0 0 1 false .selectorFailure Arrival.nothing)).traceOk := by
  unfold State.traceOk
  rw [if_pos (by decide)]
  exact ⟨.selecting, .sel 2, rfl, by decide +kernel, rfl, by decide, by decide +kernel⟩

/-- Program 1, its first transfer failed, the bus released. -/
def abortedReleasing : State :=
  releasing (past [.sel 2 .ok, .acq, .cfg ⟨0, false, false, false⟩, .xfer 0 [0x00, 0x80, 0x01] .fail, .rel]
    (at_ program1 .fatal 0 0 0 2 false .transportFailure Arrival.nothing))

/-- The two other cases of FailingEventIsTheLastOfTheTrace: an abort with RELEASE_ON_ABORT and one without. -/
theorem witness_FailingEventIsTheLastOfTheTrace :
    abortedReleasing.traceOk ∧ abortedReleasing.cfg.releaseOnAbort = true ∧ abortedReleasing.cause = .transportFailure ∧
    (past [.sel 2 .ok, .acq, .cfg ⟨0, false, false, false⟩, .xfer 0 [0x00, 0x80, 0x01] .fail]
      (at_ program1 .fatal 0 0 0 2 true .transportFailure Arrival.nothing)).traceOk := by
  refine ⟨?_, rfl, rfl, ?_⟩ <;> unfold State.traceOk <;> rw [if_pos (by decide)]
  · exact ⟨.framing, .xfer 0 [0x00, 0x80, 0x01], rfl, by decide +kernel, rfl, by decide, by decide +kernel⟩
  · exact ⟨.framing, .xfer 0 [0x00, 0x80, 0x01], rfl, by decide +kernel, rfl, by decide, by decide +kernel⟩

/-- A step of the relation and of the interface on one bundle. -/
theorem witness_StepTakesParametersAndInputAsArguments :
    (∃ c, coreStep secondStage.toParameters secondStage.arrival secondStage.toCoreState = .next c) ∧
    view (step secondStage) = some ⟨.releasing, 0, 1, 0, true, .noCause⟩ ∧
    ∃ t, Host.Core.run Sys2Proof.core 1 secondStage = .next t :=
  ⟨⟨_, rfl⟩, by decide +kernel, _, rfl⟩

/-- Two states that differ in lines, clock and times only. -/
theorem witness_SameUntimed :
    SameUntimed secondStage { secondStage with mux := 3, now := 77, arrivals := [answers (.ok 9)] } ∧
    secondStage.arrival.sameKind (answers (.ok 9)) :=
  ⟨⟨rfl, rfl, rfl, rfl, rfl, rfl, rfl, rfl, rfl⟩, rfl, rfl, rfl⟩

end Sys2Proof.Tests
end

section
/-! Decoding the word of each record in its place, `30_encoding.md` section 2: one lemma per decoder. -/

namespace Sys2Proof

/-- No encoded delay field meets the defect `delayWithoutEnable`: a disabled delay has the value 0 (R102). -/
theorem not_disabled_and_nonzero (d : Option Millis) : ¬(d.isSome = false ∧ d.getD 0 ≠ 0) := by
  rintro ⟨hdisabled, hnonzero⟩
  cases d with
  | none => exact hnonzero rfl
  | some ms => exact absurd hdisabled (by simp)

@[simp] theorem hdrIfd_encodeHdr (n : BitVec 4) (d : Option Millis) : hdrIfd (encodeHdr n d) = d := by
  rw [hdrIfd, hdrIfdEn_encodeHdr, hdrIfdMs_encodeHdr, delayOf_isSome_getD]

@[simp] theorem stgDelay_encodeStg (kd : BitVec 2) (n : BitVec 8) (d : Option Millis) : stgDelay (encodeStg kd n d) = d := by
  rw [stgDelay, stgDlyEn_encodeStg, stgDlyMs_encodeStg, delayOf_isSome_getD]

/-- KIND of a stage kind (R95), the value that `encode` writes for its record. -/
def kindNumber : StageKind → BitVec 2
  | .singleLoad => 0
  | .provisionalLoad => 1
  | .finalLoad => 2

@[simp] theorem kindOfCode_kindNumber (kd : StageKind) : kindOfCode (kindNumber kd) = some kd := by
  cases kd <;> rfl

theorem encode_stageRecord (kd : StageKind) (n : BitVec 8) (d : Option Millis) :
    encode (stageRecord kd n d) = encodeStg (kindNumber kd) n d := by
  cases kd <;> rfl

theorem decodeHdr_encodeHdr (n : BitVec 4) (d : Option Millis) : decodeHdr (encodeHdr n d) = .ok (.hdr n d) := by
  have hdelay : ¬(hdrIfdEn (encodeHdr n d) = false ∧ hdrIfdMs (encodeHdr n d) ≠ 0) := by
    rw [hdrIfdEn_encodeHdr, hdrIfdMs_encodeHdr]
    exact not_disabled_and_nonzero d
  rw [decodeHdr, if_neg (by simp), if_neg (by simp), if_neg hdelay, hdrNfam_encodeHdr, hdrIfd_encodeHdr]

theorem decodeFam_encodeFam (f : DeviceFamily) (m : MuxCode) (w4 : Bool) (l : BitVec 2) (sp : SpiConfig) (n : BitVec 4) :
    decodeFam (encodeFam f m w4 l sp n) = .ok (.fam f m w4 l sp n) := by
  have hzero : ¬(bitOf (encodeFam f m w4 l sp n) 16 = true ∨ slice (encodeFam f m w4 l sp n) 4 4 ≠ 0) := by simp
  rw [decodeFam, if_neg (by simp), if_neg hzero, famFid_encodeFam, familyOfCode_number]
  simp only [famMux_encodeFam, famW4_encodeFam, famLine_encodeFam, famSpi_encodeFam, famNstg_encodeFam]

theorem decodeStg_encodeStg (kd : StageKind) (n : BitVec 8) (d : Option Millis) :
    decodeStg (encodeStg (kindNumber kd) n d) = .ok (stageRecord kd n d) := by
  have hdelay (c : BitVec 2) : ¬(stgDlyEn (encodeStg c n d) = false ∧ stgDlyMs (encodeStg c n d) ≠ 0) := by
    rw [stgDlyEn_encodeStg, stgDlyMs_encodeStg]
    exact not_disabled_and_nonzero d
  rw [decodeStg, if_neg (by simp), if_neg (by simp), stgKind_encodeStg, kindOfCode_kindNumber]
  simp only [if_neg (hdelay _), stgNfrm_encodeStg, stgDelay_encodeStg]

theorem decodeAt_encode_stageRecord (kd : StageKind) (n : BitVec 8) (d : Option Millis) :
    decodeAt .stg (encode (stageRecord kd n d)) = .ok (stageRecord kd n d) := by
  rw [encode_stageRecord]
  exact decodeStg_encodeStg kd n d

theorem decodeFrm_encode_frm3 (b0 b1 b2 : Byte) :
    decodeFrm false (encode (.frm3 b0 b1 b2)) = .ok (.frm3 b0 b1 b2) := by
  simp [decodeFrm, encode, frameByte_zero_append, frameByte_one_append, frameByte_two_append, frameByte_three_append]

theorem decodeFrm_encode_frm4 (b0 b1 b2 b3 : Byte) :
    decodeFrm true (encode (.frm4 b0 b1 b2 b3)) = .ok (.frm4 b0 b1 b2 b3) := by
  simp [decodeFrm, encode, frameByte_zero_append, frameByte_one_append, frameByte_two_append, frameByte_three_append]

/-- Legal counts are not needed: one word's decoder makes checks 1 to 5 of R100 only. -/
theorem decodeAt_place_encode (i : Instr) : decodeAt i.place (encode i) = .ok i := by
  cases i with
  | hdr nfam ifd => exact decodeHdr_encodeHdr nfam ifd
  | fam fid mux w4 line spi nstg => exact decodeFam_encodeFam fid mux w4 line spi nstg
  | stgSingle nfrm delay => exact decodeAt_encode_stageRecord .singleLoad nfrm delay
  | stgProv nfrm delay => exact decodeAt_encode_stageRecord .provisionalLoad nfrm delay
  | stgFinal nfrm delay => exact decodeAt_encode_stageRecord .finalLoad nfrm delay
  | frm3 b0 b1 b2 => exact decodeFrm_encode_frm3 b0 b1 b2
  | frm4 b0 b1 b2 b3 => exact decodeFrm_encode_frm4 b0 b1 b2 b3
  | endRec => rfl

/-- Settles O1, by the decoder of each record's place; it holds of every record, whatever its counts. -/
theorem decodeOfEncodeIsTheRecord : Obligations.DecodeOfEncodeIsTheRecord := by
  unfold Obligations.DecodeOfEncodeIsTheRecord
  intro i _
  exact decodeAt_place_encode i

end Sys2Proof
end

section
/-! What the demanded trace of a completed run is made of (41_sequencer.md R152), read stage by stage and family by family:
its transfers (R157), its bus pairs (R160), and the SEL before each transfer (R158). -/

namespace Sys2Proof.Machine

variable {mode : AcqMode} {rd : Nat → Word} {s : State}

/-- In DONE the trace is the whole loop of R152. -/
theorem events_of_completed (htrace : s.traceOk) (hdone : s.completed) :
    s.events = programEvents s.cfg.acqMode s.word := by
  have hphase : s.phase = .done := hdone
  rw [State.traceOk, hphase, if_neg (by decide)] at htrace
  exact htrace

/-! ### The payloads sent (R157) -/

@[simp] theorem framesSent_nil : framesSent [] = [] := rfl

@[simp] theorem framesSent_append (es fs : List Event) : framesSent (es ++ fs) = framesSent es ++ framesSent fs :=
  List.filterMap_append

theorem framesSent_flatMap {α : Type} (f : α → List Event) (l : List α) :
    framesSent (l.flatMap f) = l.flatMap fun x => framesSent (f x) :=
  List.filterMap_flatMap

@[simp] theorem framesSent_slpEvents (d : Option Millis) : framesSent (slpEvents d) = [] := by
  cases d <;> rfl

theorem framesSent_xferEvents (i j n : Nat) :
    framesSent (xferEvents rd i j n) = (List.range n).map fun k => storeFrame rd i j k := by
  induction n with
  | zero => rfl
  | succ n ih => rw [xferEvents_succ, framesSent_append, ih, List.range_succ, List.map_append]; rfl

/-- Both modes send a stage's frames in their order (R151). -/
theorem framesSent_stageBody (i j : Nat) :
    framesSent (stageBody mode rd i j) = (List.range (storeNfrm rd i j)).map fun k => storeFrame rd i j k := by
  cases mode with
  | perStage =>
    rw [stageBody, framesSent_append, framesSent_append, framesSent_xferEvents]
    exact List.append_nil _
  | perFrame =>
    rw [stageBody, framesSent_flatMap]
    exact List.flatMap_pure_eq_map _ _

theorem framesSent_familyEvents (i : Nat) :
    framesSent (familyEvents mode rd i) =
      (List.range (storeNstg rd i)).flatMap fun j => (List.range (storeNfrm rd i j)).map fun k => storeFrame rd i j k := by
  have hsel : framesSent [selEvent rd i] = [] := rfl
  rw [familyEvents, familyPart, ← List.singleton_append, framesSent_append, hsel, List.nil_append, framesSent_flatMap]
  simp only [stageEvents, framesSent_append, framesSent_stageBody, framesSent_slpEvents, List.append_nil]

theorem framesSent_programEvents : framesSent (programEvents mode rd) = tableFrames rd := by
  rw [programEvents, framesSent_flatMap, tableFrames]
  congr 1
  funext i
  rw [framesSent_append, framesSent_familyEvents]
  split <;> simp

/-! ### The answers of the transfers (R157) -/

variable {line : BitVec 2} {bytes : Frame} {r : Answer}

theorem xfer_not_mem_slpEvents (d : Option Millis) : Event.xfer line bytes r ∉ slpEvents d := by
  cases d <;> simp

theorem ok_of_mem_xferEvents {i j n : Nat} (h : Event.xfer line bytes r ∈ xferEvents rd i j n) : r = .ok := by
  obtain ⟨k, -, hk⟩ := List.mem_map.1 h
  exact (Event.xfer.inj hk).2.2.symm

theorem ok_of_mem_frameCycle {i j k : Nat} (h : Event.xfer line bytes r ∈ frameCycle rd i j k) : r = .ok := by
  have hk : Event.xfer line bytes r = xferEvent rd i j k .ok := by simpa [frameCycle, cfgEvent] using h
  exact (Event.xfer.inj hk).2.2

theorem ok_of_mem_stageBody {i j : Nat} (h : Event.xfer line bytes r ∈ stageBody mode rd i j) : r = .ok := by
  cases mode with
  | perStage =>
    rcases List.mem_append.1 h with h | hrel
    · rcases List.mem_append.1 h with hopen | hxfer
      · exact absurd hopen (by simp [cfgEvent])
      · exact ok_of_mem_xferEvents hxfer
    · exact absurd hrel (by simp)
  | perFrame =>
    obtain ⟨k, -, h⟩ := List.mem_flatMap.1 h
    exact ok_of_mem_frameCycle h

theorem ok_of_mem_familyEvents {i : Nat} (h : Event.xfer line bytes r ∈ familyEvents mode rd i) : r = .ok := by
  rcases List.mem_cons.1 h with hsel | h
  · exact absurd hsel (by simp [selEvent])
  · obtain ⟨j, -, h⟩ := List.mem_flatMap.1 h
    rcases List.mem_append.1 h with hbody | hslp
    · exact ok_of_mem_stageBody hbody
    · exact absurd hslp (xfer_not_mem_slpEvents _)

theorem ok_of_mem_programEvents (h : Event.xfer line bytes r ∈ programEvents mode rd) : r = .ok := by
  obtain ⟨i, -, h⟩ := List.mem_flatMap.1 h
  rcases List.mem_append.1 h with hfam | hslp
  · exact ok_of_mem_familyEvents hfam
  · split at hslp
    · exact absurd hslp (xfer_not_mem_slpEvents _)
    · exact absurd hslp List.not_mem_nil

/-! ### The bus over a whole run (R160) -/

theorem busRun_slpEvents (d : Option Millis) : busRun (slpEvents d) false = some false := by
  cases d <;> rfl

theorem busRun_xferEvents (i j n : Nat) : busRun (xferEvents rd i j n) true = some true := by
  rw [xferEvents, ← List.flatMap_pure_eq_map]
  exact busRun_flatMap fun _ _ => rfl

/-- A stage's bus operations begin and end with the bus free, in one pair or in one for each frame (R151). -/
theorem busRun_stageBody (i j : Nat) : busRun (stageBody mode rd i j) false = some false := by
  cases mode with
  | perStage =>
    have hopen : busRun [.acq, cfgEvent rd i] false = some true := rfl
    rw [stageBody, busRun_append, busRun_append, hopen, Option.bind_some, busRun_xferEvents]
    rfl
  | perFrame => exact busRun_flatMap fun _ _ => rfl

theorem busRun_stageEvents (i j : Nat) : busRun (stageEvents mode rd i j) false = some false := by
  rw [stageEvents, busRun_append, busRun_stageBody, Option.bind_some, busRun_slpEvents]

theorem busRun_familyEvents (i : Nat) : busRun (familyEvents mode rd i) false = some false :=
  busRun_flatMap fun j _ => busRun_stageEvents i j

theorem busRun_programEvents : busRun (programEvents mode rd) false = some false := by
  refine busRun_flatMap fun i _ => ?_
  rw [busRun_append, busRun_familyEvents, Option.bind_some]
  split
  · exact busRun_slpEvents _
  · rfl

/-- An event moves the bus as it counts: `Acq` takes it, `Rel` frees it, nothing else does either. -/
theorem busAfter_count {e : Event} {o o' : Bool} (h : busAfter e o = some o') :
    (if e.isAcq then 1 else 0) + o.toNat = (if e.isRel then 1 else 0) + o'.toNat := by
  cases o <;> cases e <;> cases h <;> rfl

/-- Where the discipline is kept, the pairs opened and not closed are the bus owned. -/
theorem busRun_count {es : List Event} {o o' : Bool} (h : busRun es o = some o') :
    es.countP Event.isAcq + o.toNat = es.countP Event.isRel + o'.toNat := by
  induction es generalizing o with
  | nil => simpa using congrArg Bool.toNat (Option.some.inj h)
  | cons e es ih =>
    obtain ⟨o₁, hstep, hrest⟩ := Option.bind_eq_some_iff.1 h
    have htail := ih hrest
    have hhead := busAfter_count hstep
    rw [List.countP_cons, List.countP_cons]
    omega

/-! ### The SEL before a transfer (R158) -/

@[simp] theorem filter_isSel_slpEvents (d : Option Millis) : (slpEvents d).filter Event.isSel = [] := by
  cases d <;> rfl

@[simp] theorem filter_isSel_xferEvents (i j n : Nat) : (xferEvents rd i j n).filter Event.isSel = [] := by
  rw [xferEvents, List.filter_map]
  simp [Function.comp_def, xferEvent, Event.isSel]

@[simp] theorem filter_isSel_frameCycles (i j n : Nat) :
    ((List.range n).flatMap fun k => frameCycle rd i j k).filter Event.isSel = [] := by
  rw [List.filter_flatMap]
  exact List.flatMap_eq_nil_iff.2 fun _ _ => rfl

theorem filter_isSel_stageBody (i j : Nat) : (stageBody mode rd i j).filter Event.isSel = [] := by
  cases mode with
  | perStage => simp [stageBody, cfgEvent, Event.isSel]
  | perFrame => exact filter_isSel_frameCycles i j _

/-- A family has one SEL, its first event. -/
theorem filter_isSel_familyPart (i n : Nat) : (familyPart mode rd i n).filter Event.isSel = [selEvent rd i] := by
  induction n with
  | zero => rfl
  | succ n ih =>
    rw [familyPart_succ, List.filter_append, List.filter_append, ih, filter_isSel_stageBody, filter_isSel_slpEvents]
    rfl

theorem filter_isSel_stagePart_framing (i j k : Nat) : (stagePart mode rd .framing i j k).filter Event.isSel = [] := by
  cases mode <;> simp [stagePart, cfgEvent, Event.isSel]

theorem eventsAt_framing (i j k : Nat) :
    eventsAt mode rd .framing i j k = familiesPart mode rd i ++ familyPart mode rd i j ++ stagePart mode rd .framing i j k :=
  rfl

/-- While a transfer is outstanding, the last SEL is that of the position's family. -/
theorem last_sel_of_framing (htrace : s.traceOk) (hphase : s.phase = .framing) :
    (s.events.filter Event.isSel).getLast? = some (selEvent s.word s.i.toNat) := by
  rw [State.traceOk, hphase, if_neg (by decide), eventsAt_framing] at htrace
  rw [htrace, List.filter_append, List.filter_append, filter_isSel_familyPart, filter_isSel_stagePart_framing, List.append_nil,
    List.getLast?_concat]

end Sys2Proof.Machine
end

section
/-! What one move adds to the trace, and that it leaves the selector lines unless it is a SEL. -/

namespace Sys2Proof.Machine

variable {s t : State} {line : BitVec 2} {bytes : Frame} {r : Answer}

/-- From `s` to `t` the trace grew by nothing, or by the event of the operation outstanding in `s`; only a `Rel` may follow
that event (R236). -/
def AddsOutstanding (s t : State) : Prop :=
  t.events = s.events ∨
    ∃ e, s.outstanding = some e.operation ∧ (t.events = s.events ++ [e] ∨ t.events = s.events ++ [e, .rel])

theorem addsOutstanding_of_emit (e : Event) (dt : Nat) (hop : s.outstanding = some e.operation)
    (htrace : t.trace = (s.consume.emit e dt).trace) : AddsOutstanding s t := by
  refine .inr ⟨e, hop, .inl ?_⟩
  rw [events_congr htrace, events_emit]
  rfl

theorem addsOutstanding_of_abort (e : Event) (dt : Nat) (hop : s.outstanding = some e.operation)
    (htrace : t.trace = (releaseOnAbort (s.consume.emit e dt)).trace) : AddsOutstanding s t := by
  refine .inr ⟨e, hop, ?_⟩
  rw [events_congr htrace, State.events, releaseOnAbort_trace]
  split
  · exact .inr (by simp [State.events])
  · exact .inl (by simp [State.events])

theorem Moves.addsOutstanding (h : Moves s t) : AddsOutstanding s t := by
  cases h with
  | waits _ _ eq => exact .inl (by rw [eq]; rfl)
  | startsEmpty _ _ _ _ eq => exact .inl (by rw [eq]; rfl)
  | starts _ _ _ _ eq => exact .inl (by rw [eq]; rfl)
  | selects dt phase _ eq =>
    exact addsOutstanding_of_emit (.sel s.famMux .ok) dt (by rw [State.outstanding, phase]; rfl) (by rw [eq])
  | rejected dt phase _ _ eq =>
    exact addsOutstanding_of_emit (.sel s.famMux .rejected) dt (by rw [State.outstanding, phase]; rfl) (by rw [eq]; rfl)
  | acquires dt phase _ eq =>
    exact addsOutstanding_of_emit .acq dt (by rw [State.outstanding, phase]; rfl) (by rw [eq])
  | configures dt phase _ eq =>
    exact addsOutstanding_of_emit (.cfg s.famSpi) dt (by rw [State.outstanding, phase]; rfl) (by rw [eq])
  | sends dt phase _ eq =>
    exact addsOutstanding_of_emit (.xfer s.famLine s.frame .ok) dt (by rw [State.outstanding, phase]; rfl)
      (by rw [eq, afterFrame_trace])
  | aborts dt phase _ eq =>
    exact addsOutstanding_of_abort (.xfer s.famLine s.frame .fail) dt (by rw [State.outstanding, phase]; rfl)
      (by rw [eq, raiseFatal_trace])
  | releases dt n phase _ _ eq =>
    exact addsOutstanding_of_emit .rel dt (by rw [State.outstanding, phase]; rfl) (by rw [eq, afterRelease_trace])
  | settles dt d phase _ delay _ eq =>
    exact addsOutstanding_of_emit (.slp d .elapsed) dt (by rw [State.outstanding, phase, delay]; rfl)
      (by rw [eq, nextStage_trace])
  | settleFails dt d phase _ delay eq =>
    exact addsOutstanding_of_emit (.slp d .fail) dt (by rw [State.outstanding, phase, delay]; rfl)
      (by rw [eq, raiseFatal_trace])
  | fsettles dt d phase _ ifd _ eq =>
    exact addsOutstanding_of_emit (.slp d .elapsed) dt (by rw [State.outstanding, phase, ifd]; rfl)
      (by rw [eq, nextFamily_trace])
  | fsettleFails dt d phase _ ifd eq =>
    exact addsOutstanding_of_emit (.slp d .fail) dt (by rw [State.outstanding, phase, ifd]; rfl)
      (by rw [eq, raiseFatal_trace])

/-- The only operation that is a transfer is that of FRAMING (R22). -/
theorem framing_of_outstanding_xfer (h : s.outstanding = some (.xfer line bytes)) : s.phase = .framing := by
  unfold State.outstanding at h
  split at h <;> simp_all

/-- A transfer is added in FRAMING only. -/
theorem AddsOutstanding.framing (h : AddsOutstanding s t) (hnew : Event.xfer line bytes r ∈ t.events.drop s.events.length) :
    s.phase = .framing := by
  rcases h with hsame | ⟨e, hop, hone | htwo⟩
  · rw [hsame, List.drop_length] at hnew
    exact absurd hnew List.not_mem_nil
  · rw [hone, List.drop_left, List.mem_singleton] at hnew
    subst hnew
    exact framing_of_outstanding_xfer hop
  · rw [htwo, List.drop_left, List.mem_pair] at hnew
    obtain rfl : _ = e := hnew.resolve_right (by simp)
    exact framing_of_outstanding_xfer hop

/-- A move that is no SEL leaves the selector lines (R135). -/
theorem Moves.mux_eq (h : Moves s t) (hphase : s.phase ≠ .selecting) : t.mux = s.mux := by
  cases h with
  | selects _ phase => exact absurd phase hphase
  | rejected _ phase => exact absurd phase hphase
  | _ => simp [*]

/-- Reset empties the trace (R270), so a step that adds a transfer is a move from FRAMING. -/
theorem framing_of_step_adds_xfer (hstep : step s = .next t)
    (hnew : Event.xfer line bytes r ∈ t.events.drop s.events.length) : s.phase = .framing ∧ Moves s t := by
  rcases step_reset_or_moves hstep with ⟨-, rfl⟩ | ⟨-, hmove⟩
  · have hempty : (resetCore s.consume).events = [] := rfl
    rw [hempty, List.drop_nil] at hnew
    exact absurd hnew List.not_mem_nil
  · exact ⟨hmove.addsOutstanding.framing hnew, hmove⟩

end Sys2Proof.Machine
end

section
/-! The obligations of 41_sequencer.md on completed runs and on transfers. -/

namespace Sys2Proof

open Machine

/-- Settles O49: in DONE the trace is the loop of R152, read for its transfers. -/
theorem completedRunSentTheTableInOrder : Obligations.CompletedRunSentTheTableInOrder := by
  unfold Obligations.CompletedRunSentTheTableInOrder
  intro s htrace hdone
  rw [events_of_completed htrace hdone]
  exact ⟨framesSent_programEvents, fun _ _ _ => ok_of_mem_programEvents⟩

/-- Settles O51: only FRAMING adds a transfer; there the invariant fixes the lines and the demanded trace the last SEL. -/
theorem transferSeesItsFamilySelected : Obligations.TransferSeesItsFamilySelected := by
  unfold Obligations.TransferSeesItsFamilySelected
  intro s t line bytes r hinv htrace hstep hnew
  obtain ⟨hphase, hmove⟩ := framing_of_step_adds_xfer hstep hnew
  have hlines : s.mux = s.famMux := hinv.mux (by rw [hphase]; rfl)
  exact ⟨hlines, hmove.mux_eq (by rw [hphase]; decide), last_sel_of_framing htrace hphase⟩

/-- Settles O52: the loop of R152 is made of blocks that begin and end with the bus free. -/
theorem busPairsOfACompletedRunAreBalanced : Obligations.BusPairsOfACompletedRunAreBalanced := by
  unfold Obligations.BusPairsOfACompletedRunAreBalanced
  intro s htrace hdone
  have hrun : busRun s.events false = some false := by
    rw [events_of_completed htrace hdone]
    exact busRun_programEvents
  exact ⟨hrun, by simpa [countEvents] using busRun_count hrun⟩

end Sys2Proof
end

section
/-! Which phases a move can enter and leave: none enters IDLE from outside, none leaves DONE or FATAL (R239, R271). -/

namespace Sys2Proof.Machine

variable {s t : State}

/-- Reset acts in every state (R270, R243). -/
theorem step_of_reset (h : s.arrival.reset = true) : step s = .next (resetCore s.consume) := by
  rw [step_eq_cycle, cycle, if_pos h]

/-! ### The moves of the position never end in IDLE -/

theorem nextStage_phase_ne_idle (s : State) : (nextStage s).phase ≠ .idle := by
  rcases nextStage_cases s with ⟨-, h⟩ | ⟨-, -, h⟩ | ⟨-, -, -, h⟩ | ⟨-, -, -, h⟩ <;> simp [h]

theorem stageEnd_phase_ne_idle (d : Option Millis) (s : State) : (stageEnd d s).phase ≠ .idle := by
  cases d with
  | none => exact nextStage_phase_ne_idle s
  | some ms => simp [stageEnd]

theorem afterRelease_phase_ne_idle (n : BitVec 8) (d : Option Millis) (s : State) : (afterRelease n d s).phase ≠ .idle := by
  unfold afterRelease
  split
  · simp
  · exact stageEnd_phase_ne_idle d s

theorem afterFrame_phase_ne_idle (h : s.phase ≠ .idle) : (afterFrame s).phase ≠ .idle := by
  rcases afterFrame_cases s with ⟨-, -, hnext⟩ | ⟨-, hlast⟩
  · rwa [hnext]
  · simp [hlast]

/-! ### Moves into IDLE, out of DONE and FATAL, and in IDLE -/

/-- A move that ends in IDLE began there: only START's wait stays in IDLE, and no move enters it. -/
theorem Moves.idle_of_idle (h : Moves s t) (hidle : t.phase = .idle) : s.phase = .idle := by
  cases h with
  | waits _ _ eq => rwa [eq] at hidle
  | startsEmpty phase => exact phase
  | starts phase => exact phase
  | sends _ phase _ eq =>
    rw [eq] at hidle
    exact absurd hidle (afterFrame_phase_ne_idle (by simp [phase]))
  | releases _ _ _ _ _ eq =>
    rw [eq] at hidle
    exact absurd hidle (afterRelease_phase_ne_idle _ _ _)
  | settles _ _ _ _ _ _ eq =>
    rw [eq] at hidle
    exact absurd hidle (nextStage_phase_ne_idle _)
  | _ => simp_all -- the other moves name the phase they end in

/-- The only move of DONE and FATAL is to stay (R150, R235). -/
theorem Moves.eq_consume_of_done_or_fatal (h : Moves s t) (hend : s.phase = .done ∨ s.phase = .fatal) : t = s.consume := by
  cases h with
  | waits _ _ eq => exact eq
  | _ => simp_all -- the other moves start in another phase

/-- The moves of IDLE: wait without `start`, leave for SELECTING or DONE with it (R140). -/
theorem Moves.of_idle (h : Moves s t) (hidle : s.phase = .idle) :
    (s.arrival.start = false ∧ t = s.consume) ∨ (s.arrival.start = true ∧ (t.phase = .selecting ∨ t.phase = .done)) := by
  cases h with
  | waits _ start eq => exact .inl ⟨start hidle, eq⟩
  | startsEmpty _ start _ _ eq => exact .inr ⟨start, .inr (by rw [eq])⟩
  | starts _ start _ _ eq => exact .inr ⟨start, .inl (by rw [eq])⟩
  | _ => simp_all -- the other moves start in another phase

end Sys2Proof.Machine
end

section
/-! The obligation of 70_reset_and_hazards.md on the ways out of DONE and FATAL and back to IDLE. -/

namespace Sys2Proof

open Machine

/-- Settles O11: a step takes a reset, which ends in IDLE, or moves, and no move leaves DONE or FATAL or enters IDLE. -/
theorem resetIsTheOnlyWayOutOfDoneAndFatal : Obligations.ResetIsTheOnlyWayOutOfDoneAndFatal := by
  unfold Obligations.ResetIsTheOnlyWayOutOfDoneAndFatal
  refine ⟨fun s t hend hstep hleft => ?_, fun s t hstep hidle houtside => ?_,
    fun s hreset => ⟨_, step_of_reset hreset, rfl⟩, fun s t hidle hnostart hstep => ?_,
    fun s t hidle hstart hnoreset hstep => ?_⟩
  · rcases step_reset_or_moves hstep with ⟨hreset, rfl⟩ | ⟨-, hmove⟩
    · exact ⟨hreset, rfl⟩
    · exact absurd (congrArg (·.phase) (hmove.eq_consume_of_done_or_fatal hend)) hleft
  · rcases step_reset_or_moves hstep with ⟨hreset, -⟩ | ⟨-, hmove⟩
    · exact hreset
    · exact absurd (hmove.idle_of_idle hidle) houtside
  · rcases step_reset_or_moves hstep with ⟨-, rfl⟩ | ⟨-, hmove⟩
    · rfl
    · rcases hmove.of_idle hidle with ⟨-, rfl⟩ | ⟨hstart, -⟩
      · exact hidle
      · simp [hnostart] at hstart
  · rcases (step_moves hnoreset hstep).of_idle hidle with ⟨hnostart, -⟩ | ⟨-, hphase⟩
    · simp [hstart] at hnostart
    · exact hphase

end Sys2Proof
end

section
/-! The invariant (10_state.md R38), move by move: what it says of a phase, and one way to meet it for each kind of phase. -/

namespace Sys2Proof.Machine

variable {s t : State}

/-- The phases in which the core owns the bus, FATAL apart (R38 item 1). -/
def Phase.owns : Phase → Bool
  | .configuring => true
  | .framing => true
  | .releasing => true
  | _ => false

/-- A phase with an operation outstanding is none without. -/
theorem ne_of_running {p q : Phase} (hp : p.running = true) (hq : q.running = false) : p ≠ q := by
  rintro rfl
  simp [hp] at hq

theorem ownershipOk_of_running (hrun : s.phase.running = true) : s.ownershipOk ↔ s.busOwned = s.phase.owns := by
  unfold State.ownershipOk
  cases hp : s.phase <;> cases hb : s.busOwned <;> simp_all [Phase.running, Phase.owns]

/-! ### What the invariant says -/

theorem State.Inv.busOwned_eq (h : s.Inv) (hrun : s.phase.running = true) : s.busOwned = s.phase.owns :=
  (ownershipOk_of_running hrun).1 h.ownership

theorem State.Inv.cause_eq (h : s.Inv) (hphase : s.phase ≠ .fatal) : s.cause = .noCause := by
  by_contra hcause
  exact hphase (h.cause.1 hcause)

theorem State.Inv.accepted (h : s.Inv) (hphase : s.phase ≠ .idle) : s.storeAccepted := h.store.1 hphase

theorem State.Inv.nord_le (h : s.Inv) (hphase : s.phase ≠ .idle) : s.nord ≤ 5 := nord_le_of_accepted (h.accepted hphase)

/-- The family index counts on without wrapping (R154). -/
theorem family_succ (hnext : s.i.toNat + 1 < s.nord) (hnord : s.nord ≤ 5) : (s.i + 1).toNat = s.i.toNat + 1 :=
  toNat_succ hnext (hnord.trans (by decide))

theorem State.Inv.wf (h : s.Inv) : s.rom.wf = true := h.store.2

theorem storeAccepted_congr (hrom : t.rom = s.rom) (hcfg : t.cfg = s.cfg) (h : s.storeAccepted) : t.storeAccepted := by
  rwa [State.storeAccepted, word_congr hrom, hcfg]

/-- Each phase's own clause of `progress`, the phase given. -/
theorem State.Inv.progress_of_configuring (h : s.Inv) (hp : s.phase = .configuring) :
    s.cfg.acqMode = .perStage → s.k = 0 := by
  simpa only [State.progressOk, hp] using h.progress
theorem State.Inv.progress_of_acquiring (h : s.Inv) (hp : s.phase = .acquiring) :
    s.cfg.acqMode = .perStage → s.k = 0 := by
  simpa only [State.progressOk, hp] using h.progress
theorem State.Inv.progress_of_selecting (h : s.Inv) (hp : s.phase = .selecting) : s.j = 0 ∧ s.k = 0 := by
  simpa only [State.progressOk, hp] using h.progress
theorem State.Inv.progress_of_idle (h : s.Inv) (hp : s.phase = .idle) : s.i = 0 ∧ s.j = 0 ∧ s.k = 0 := by
  simpa only [State.progressOk, hp] using h.progress
theorem State.Inv.progress_of_releasing (h : s.Inv) (hp : s.phase = .releasing) :
    s.cfg.acqMode = .perStage → s.k.toNat + 1 = s.nfrm := by
  simpa only [State.progressOk, hp] using h.progress
theorem State.Inv.progress_of_settling (h : s.Inv) (hp : s.phase = .settling) :
    s.delay.isSome = true ∧ s.k.toNat + 1 = s.nfrm := by
  simpa only [State.progressOk, hp] using h.progress
theorem State.Inv.progress_of_fsettling (h : s.Inv) (hp : s.phase = .fsettling) :
    s.ifd.isSome = true ∧ s.i.toNat + 1 < s.nord ∧ s.atFamilyEnd := by
  simpa only [State.progressOk, hp] using h.progress

/-- Every family of an accepted store has a first stage with a first frame (R100 checks 8 and 9). -/
theorem firstFrame_of_accepted (h : s.storeAccepted) {i : Nat} (hi : i < s.nord) :
    0 < storeNstg s.word i ∧ 0 < storeNfrm s.word i 0 :=
  have hstore := storeCheck_none.1 h
  have hstage := hstore.nstg i hi
  ⟨hstage, hstore.nfrm i hi 0 hstage⟩

/-- A released stage is at its last frame when its releases are over, in both modes (R145, R151). -/
theorem State.Inv.lastFrame (h : s.Inv) (hp : s.phase = .releasing)
    (hmode : s.cfg.acqMode = .perStage ∨ s.nfrm ≤ s.k.toNat + 1) : s.k.toNat + 1 = s.nfrm := by
  rcases hmode with hstage | hle
  · exact h.progress_of_releasing hp hstage
  · have hlt := (h.position (by rw [hp]; rfl)).2.2
    omega

/-! ### How to meet it -/

theorem inv_of_running (hrun : t.phase.running = true) (hbus : t.busOwned = t.phase.owns) (hcause : t.cause = .noCause)
    (hpos : t.i.toNat < t.nord ∧ t.j.toNat < t.nstg ∧ t.k.toNat < t.nfrm) (hmux : t.muxOk) (hprog : t.progressOk)
    (hacc : t.storeAccepted) (hwf : t.rom.wf = true) : t.Inv where
  ownership := (ownershipOk_of_running hrun).2 hbus
  cause := iff_of_false (fun h => h hcause) (fun h => by simp [h, Phase.running] at hrun)
  position := fun _ => hpos
  mux := hmux
  gate := by rintro (h | h) <;> simpa [h, Phase.owns] using hbus
  progress := hprog
  store := ⟨fun _ => hacc, hwf⟩

theorem inv_of_fatal (hphase : t.phase = .fatal) (hcause : t.cause ≠ .noCause)
    (hbus : t.busOwned = true ↔ t.cause = .transportFailure ∧ t.cfg.releaseOnAbort = false)
    (hacc : t.storeAccepted) (hwf : t.rom.wf = true) : t.Inv where
  ownership := by simp [State.ownershipOk, hphase, hbus]
  cause := iff_of_true hcause hphase
  position := fun hrun => by simp [hphase, Phase.running] at hrun
  mux := fun hstage => by simp [hphase, Phase.inStage] at hstage
  gate := by rintro (h | h) <;> simp [hphase] at h
  progress := by simp [State.progressOk, hphase]
  store := ⟨fun _ => hacc, hwf⟩

theorem inv_of_idle (hphase : t.phase = .idle) (hbus : t.busOwned = false) (hcause : t.cause = .noCause)
    (hpos : t.i = 0 ∧ t.j = 0 ∧ t.k = 0) (hwf : t.rom.wf = true) : t.Inv where
  ownership := by simp [State.ownershipOk, hphase, hbus]
  cause := by simp [State.causeOk, hphase, hcause]
  position := fun hrun => by simp [hphase, Phase.running] at hrun
  mux := fun hstage => by simp [hphase, Phase.inStage] at hstage
  gate := by rintro (h | h) <;> simp [hphase] at h
  progress := by simpa [State.progressOk, hphase] using hpos
  store := ⟨fun h => absurd hphase h, hwf⟩

theorem resetCore_inv (hwf : s.rom.wf = true) : (resetCore s).Inv := inv_of_idle rfl rfl rfl ⟨rfl, rfl, rfl⟩ hwf

/-- Nothing of the invariant speaks of the arrivals. -/
theorem State.Inv.consume (h : s.Inv) : s.consume.Inv :=
  ⟨h.ownership, h.cause, h.position, h.mux, h.gate, h.progress, h.store⟩

/-- START with an empty order is over at once (R140). -/
theorem done_inv_of_idle (h : s.Inv) (hphase : s.phase = .idle) (hacc : s.storeAccepted) (hnord : s.nord = 0) :
    State.Inv { s.consume with phase := .done } where
  ownership := by
    have hbus : s.busOwned = false := by simpa [State.ownershipOk, hphase] using h.ownership
    simp [State.ownershipOk, hbus]
  cause := by simp [State.causeOk, h.cause_eq (by simp [hphase])]
  position := fun hrun => by simp [Phase.running] at hrun
  mux := fun hstage => by simp [Phase.inStage] at hstage
  gate := by rintro (h | h) <;> simp at h
  progress := .inl ⟨hnord, h.progress_of_idle hphase⟩
  store := ⟨fun _ => hacc, h.wf⟩

/-- A failure outside FRAMING leaves the bus free, as it was (R234). -/
theorem fatal_inv_of_free (h : s.Inv) (hrun : s.phase.running = true) (hfree : s.phase.owns = false)
    (hphase : t.phase = .fatal) (hcause : t.cause = .selectorFailure ∨ t.cause = .timingFailure)
    (hbus : t.busOwned = s.busOwned) (hacc : t.storeAccepted) (hwf : t.rom.wf = true) : t.Inv := by
  have hnot : t.cause ≠ .noCause ∧ t.cause ≠ .transportFailure := by rcases hcause with h | h <;> simp [h]
  refine inv_of_fatal hphase hnot.1 ?_ hacc hwf
  simp [hbus, h.busOwned_eq hrun, hfree, hnot.2]

/-! ### Every move keeps it -/

theorem afterFrame_inv (h : s.Inv) (hphase : s.phase = .framing) : (afterFrame s).Inv := by
  have hrun : s.phase.running = true := by rw [hphase]; rfl
  have hacc := h.accepted (by simp [hphase])
  have hbus : s.busOwned = true := by simpa [hphase, Phase.owns] using h.busOwned_eq hrun
  have hcause := h.cause_eq (by simp [hphase])
  have hmux : s.mux = s.famMux := h.mux (by rw [hphase]; rfl)
  obtain ⟨hi, hj, hk⟩ := h.position hrun
  rcases afterFrame_cases s with ⟨-, hnext, heq⟩ | ⟨hlast, heq⟩ <;> rw [heq]
  · have hsucc := toNat_succ hnext nfrm_lt.le
    exact inv_of_running hrun (by simpa [hphase, Phase.owns] using hbus) hcause
      ⟨hi, hj, by show (s.k + 1).toNat < s.nfrm; omega⟩ (fun _ => hmux)
      (by simp [State.progressOk, hphase]) hacc h.wf
  · refine inv_of_running rfl hbus hcause ⟨hi, hj, hk⟩ (fun _ => hmux) (fun hmode => ?_) hacc h.wf
    have hle : s.nfrm ≤ s.k.toNat + 1 := hlast.resolve_left (by simp [show s.cfg.acqMode = .perStage from hmode])
    exact Nat.le_antisymm hk hle

theorem afterRelease_inv {n : BitVec 8} (hn : n.toNat = s.nfrm) (hfree : s.busOwned = false) (hcause : s.cause = .noCause)
    (hmux : s.mux = s.famMux) (hpos : s.i.toNat < s.nord ∧ s.j.toNat < s.nstg ∧ s.k.toNat < s.nfrm)
    (hlast : s.cfg.acqMode = .perStage ∨ s.nfrm ≤ s.k.toNat + 1 → s.k.toNat + 1 = s.nfrm)
    (hacc : s.storeAccepted) (hwf : s.rom.wf = true) : (afterRelease n s.delay s).Inv := by
  obtain ⟨hi, hj, hk⟩ := hpos
  rcases afterRelease_cases n s.delay s hn with ⟨hmode, hnext, heq⟩ | ⟨hmode, ⟨hsome, heq⟩ | ⟨-, heq⟩⟩ <;> rw [heq]
  · have hsucc := toNat_succ hnext nfrm_lt.le
    refine inv_of_running rfl hfree hcause ⟨hi, hj, hsucc.trans_lt hnext⟩ (fun _ => hmux) (fun hstage => ?_) hacc hwf
    exact absurd (hstage.symm.trans hmode) (by decide)
  · exact inv_of_running rfl hfree hcause ⟨hi, hj, hk⟩ (fun _ => hmux) ⟨hsome, hlast hmode⟩ hacc hwf
  · exact nextStage_inv _ hfree hcause hmux hi hj (hlast hmode) hacc hwf

/-- The next family's first position, an accepted store given (R149). -/
theorem nextFamily_inv (hnext : s.i.toNat + 1 < s.nord) (hfree : s.busOwned = false) (hcause : s.cause = .noCause)
    (hacc : s.storeAccepted) (hwf : s.rom.wf = true) : (nextFamily s).Inv := by
  have hsucc := family_succ hnext (nord_le_of_accepted hacc)
  have hi : (s.i + 1).toNat < s.nord := hsucc.trans_lt hnext
  exact inv_of_running rfl hfree hcause ⟨hi, firstFrame_of_accepted hacc hi⟩ (fun h => by simp [Phase.inStage] at h)
    ⟨rfl, rfl⟩ hacc hwf

theorem Moves.inv (hmove : Moves s t) (h : s.Inv) : t.Inv := by
  cases hmove with
  | waits _ _ eq => exact eq ▸ h.consume
  | startsEmpty phase _ ok nord eq => exact eq ▸ done_inv_of_idle h phase ok nord
  | starts phase _ ok nord eq =>
    have hi : 0 < s.nord := Nat.pos_of_ne_zero nord
    have hfree : s.busOwned = false := by simpa [State.ownershipOk, phase] using h.ownership
    subst eq
    exact inv_of_running rfl hfree (h.cause_eq (by simp [phase])) ⟨hi, firstFrame_of_accepted ok hi⟩
      (fun hs => by simp [Phase.inStage] at hs) ⟨rfl, rfl⟩ ok h.wf
  | selects dt phase _ eq =>
    have hrun : s.phase.running = true := by rw [phase]; rfl
    have hfree : s.busOwned = false := (h.busOwned_eq hrun).trans (by rw [phase]; rfl)
    have hacc := h.accepted (by simp [phase])
    have hi := (h.position hrun).1
    subst eq
    exact inv_of_running rfl hfree (h.cause_eq (by simp [phase])) ⟨hi, firstFrame_of_accepted hacc hi⟩ (fun _ => rfl)
      (fun _ => rfl) hacc h.wf
  | rejected dt phase _ _ eq =>
    subst eq
    exact fatal_inv_of_free h (by rw [phase]; rfl) (by rw [phase]; rfl) rfl (.inl rfl) rfl
      (h.accepted (by simp [phase])) h.wf
  | acquires dt phase _ eq =>
    subst eq
    exact inv_of_running rfl rfl (h.cause_eq (by simp [phase])) (h.position (by rw [phase]; rfl))
      (fun _ => h.mux (by rw [phase]; rfl)) (h.progress_of_acquiring phase) (h.accepted (by simp [phase])) h.wf
  | configures dt phase _ eq =>
    have hrun : s.phase.running = true := by rw [phase]; rfl
    have hbus : s.busOwned = true := (h.busOwned_eq hrun).trans (by rw [phase]; rfl)
    subst eq
    exact inv_of_running rfl hbus (h.cause_eq (by simp [phase])) (h.position hrun)
      (fun _ => h.mux (by rw [phase]; rfl)) trivial (h.accepted (by simp [phase])) h.wf
  | sends dt phase _ eq =>
    subst eq
    refine afterFrame_inv ?_ phase
    exact ⟨h.ownership, h.cause, h.position, h.mux, h.gate, h.progress, h.store⟩
  | aborts dt phase _ eq =>
    have hbus : s.busOwned = true := (h.busOwned_eq (by rw [phase]; rfl)).trans (by rw [phase]; rfl)
    subst eq
    exact inv_of_fatal rfl (by simp) (by simp [hbus])
      (storeAccepted_congr (by simp) (by simp) (h.accepted (by simp [phase]))) (by simpa using h.wf)
  | releases dt n phase _ nfrm eq =>
    subst eq
    exact afterRelease_inv nfrm rfl (h.cause_eq (by simp [phase])) (h.mux (by rw [phase]; rfl))
      (h.position (by rw [phase]; rfl)) (h.lastFrame phase) (h.accepted (by simp [phase])) h.wf
  | settles dt d phase _ _ _ eq =>
    have hpos := h.position (by rw [phase]; rfl)
    subst eq
    exact nextStage_inv _ (h.gate (.inl phase)) (h.cause_eq (by simp [phase])) (h.mux (by rw [phase]; rfl))
      hpos.1 hpos.2.1 (h.progress_of_settling phase).2 (h.accepted (by simp [phase])) h.wf
  | settleFails dt d phase _ _ eq =>
    subst eq
    exact fatal_inv_of_free h (by rw [phase]; rfl) (by rw [phase]; rfl) rfl (.inr rfl) rfl
      (h.accepted (by simp [phase])) h.wf
  | fsettles dt d phase _ _ _ eq =>
    subst eq
    exact nextFamily_inv (h.progress_of_fsettling phase).2.1 (h.gate (.inr phase)) (h.cause_eq (by simp [phase]))
      (h.accepted (by simp [phase])) h.wf
  | fsettleFails dt d phase _ _ eq =>
    subst eq
    exact fatal_inv_of_free h (by rw [phase]; rfl) (by rw [phase]; rfl) rfl (.inr rfl) rfl
      (h.accepted (by simp [phase])) h.wf

theorem step_inv (h : s.Inv) (hstep : step s = .next t) : t.Inv := by
  rcases step_reset_or_moves hstep with ⟨-, rfl⟩ | ⟨-, hmove⟩
  · exact resetCore_inv h.wf
  · exact hmove.inv h

end Sys2Proof.Machine
end

section
/-! The obligations of 10_state.md on the invariant. -/

namespace Sys2Proof

open Machine

/-- Settles O43: a reset leads to IDLE, and every move keeps the invariant. -/
theorem everyStepKeepsTheInvariant : Obligations.EveryStepKeepsTheInvariant := by
  unfold Obligations.EveryStepKeepsTheInvariant
  intro s t h hstep
  exact step_inv h hstep

/-- Settles O44: the state after reset is in IDLE at the first position, and a loaded store is in canonical form. -/
theorem resetMeetsTheInvariant : Obligations.ResetMeetsTheInvariant := by
  unfold Obligations.ResetMeetsTheInvariant
  have hreset (p : Parameters) (hwf : Memory.wf p.rom = true) : (State.resetWith p).Inv :=
    inv_of_idle rfl rfl rfl ⟨rfl, rfl, rfl⟩ hwf
  refine ⟨hreset, hreset _ reset_rom_wf, fun ws => ?_⟩
  exact inv_of_idle rfl rfl rfl ⟨rfl, rfl, rfl⟩ (Memory.loadWords_wf _ _ _ reset_rom_wf)

end Sys2Proof
end

section
/-! The demanded trace (41_sequencer.md R152), operation by operation, and that every move keeps it. -/

namespace Sys2Proof.Machine

variable {s t : State}

/-! ### What each operation adds inside a stage -/

section
variable {mode : AcqMode} {rd : Nat → Word} {i j k : Nat}

/-- Inside a stage: the families before, the stages before, and the stage's own part. -/
theorem eventsAt_of_inStage {p : Phase} (h : p.inStage = true) : eventsAt mode rd p i j k =
    familiesPart mode rd i ++ familyPart mode rd i j ++ stagePart mode rd p i j k := by
  cases p with
  | acquiring => rfl
  | configuring => rfl
  | framing => rfl
  | releasing => rfl
  | settling => rfl
  | _ => exact absurd h (by decide)

theorem stagePart_acquiring_zero : stagePart mode rd .acquiring i j 0 = [] := by cases mode <;> rfl

theorem stagePart_configuring :
    stagePart mode rd .configuring i j k = stagePart mode rd .acquiring i j k ++ [.acq] := by
  cases mode <;> simp [stagePart]

theorem stagePart_framing (h : mode = .perStage → k = 0) :
    stagePart mode rd .framing i j k = stagePart mode rd .configuring i j k ++ [cfgEvent rd i] := by
  cases mode with
  | perStage => simp [stagePart, h rfl]
  | perFrame => simp [stagePart]

theorem stagePart_releasing :
    stagePart mode rd .releasing i j k = stagePart mode rd .framing i j k ++ [xferEvent rd i j k .ok] := by
  cases mode <;> simp [stagePart, xferEvents_succ]

/-- PerStage: a frame follows a frame (R144). -/
theorem stagePart_framing_succ :
    stagePart .perStage rd .framing i j (k + 1) = stagePart .perStage rd .framing i j k ++ [xferEvent rd i j k .ok] := by
  simp [stagePart, xferEvents_succ]

/-- PerFrame: a release ends a frame's own cycle (R151). -/
theorem stagePart_acquiring_succ :
    stagePart .perFrame rd .acquiring i j (k + 1) = stagePart .perFrame rd .releasing i j k ++ [.rel] := by
  simp only [stagePart, frameCycles_succ]
  simp [frameCycle]

/-- The release after the last frame ends the stage's bus operations, in both modes. -/
theorem stageBody_eq (h : k + 1 = storeNfrm rd i j) :
    stageBody mode rd i j = stagePart mode rd .releasing i j k ++ [.rel] := by
  cases mode with
  | perStage => simp [stageBody, stagePart, h]
  | perFrame =>
    simp only [stageBody, stagePart, ← h, frameCycles_succ]
    simp [frameCycle]

theorem stagePart_settling : stagePart mode rd .settling i j k = stageBody mode rd i j := by cases mode <;> rfl

end

/-! ### Meeting the demand in a phase -/

theorem traceOk_iff (hphase : s.phase ≠ .fatal) :
    s.traceOk ↔ s.events = eventsAt s.cfg.acqMode s.word s.phase s.i.toNat s.j.toNat s.k.toNat := by
  rw [State.traceOk, if_neg hphase]

/-- Inside a stage the trace is the demanded one when the stage's part is. -/
theorem traceOk_iff_of_inStage (hphase : s.phase.inStage = true) : s.traceOk ↔ s.events =
    familiesPart s.cfg.acqMode s.word s.i.toNat ++ familyPart s.cfg.acqMode s.word s.i.toNat s.j.toNat ++
      stagePart s.cfg.acqMode s.word s.phase s.i.toNat s.j.toNat s.k.toNat := by
  rw [traceOk_iff (by rintro h; simp [h, Phase.inStage] at hphase), eventsAt_of_inStage hphase]

/-- A step inside a stage, at one position, which adds what the two phases' parts differ in. -/
theorem traceOk_of_stagePart {e : Event} (h : s.traceOk) (hs : s.phase.inStage = true) (ht : t.phase.inStage = true)
    (hcfg : t.cfg = s.cfg) (hrom : t.rom = s.rom) (hi : t.i = s.i) (hj : t.j = s.j) (hev : t.events = s.events ++ [e])
    (hpart : stagePart s.cfg.acqMode s.word t.phase s.i.toNat s.j.toNat t.k.toNat =
      stagePart s.cfg.acqMode s.word s.phase s.i.toNat s.j.toNat s.k.toNat ++ [e]) : t.traceOk := by
  rw [traceOk_iff_of_inStage ht, hcfg, word_congr hrom, hi, hj, hpart, hev, (traceOk_iff_of_inStage hs).1 h]
  simp

/-- The outstanding operation is that of the phase, the store and the position (R22). -/
theorem outstanding_congr (hp : t.phase = s.phase) (hr : t.rom = s.rom) (hi : t.i = s.i) (hj : t.j = s.j) (hk : t.k = s.k) :
    t.outstanding = s.outstanding := by
  simp only [State.outstanding, hp, famMux_congr hr hi, famSpi_congr hr hi, famLine_congr hr hi, frame_congr hr hi hj hk,
    delay_congr hr hi hj, ifd_congr hr]

theorem events_releaseOnAbort (s : State) :
    (releaseOnAbort s).events = s.events ++ (if s.cfg.releaseOnAbort then [.rel] else []) := by
  rw [State.events, releaseOnAbort_trace, List.map_append, State.events]
  split <;> rfl

/-- A failure adds its own events to the demanded trace (R162, R234). -/
theorem traceOk_of_failure {op : Operation} (h : s.traceOk) (hrun : s.phase.running = true)
    (hop : s.outstanding = some op) (hphase : t.phase = .fatal) (hcause : t.cause = op.failureCause)
    (hno : op.failureCause ≠ .noCause) (hcfg : t.cfg = s.cfg) (hrom : t.rom = s.rom)
    (hpos : t.i = s.i ∧ t.j = s.j ∧ t.k = s.k) (hev : t.events = s.events ++ op.failure s.cfg) : t.traceOk := by
  obtain ⟨hi, hj, hk⟩ := hpos
  have hlive : s.phase ≠ .fatal := ne_of_running hrun rfl
  rw [State.traceOk, if_pos hphase]
  refine ⟨s.phase, op, hrun, ?_, hcause, hcause ▸ hno, ?_⟩
  · exact (outstanding_congr (s := s) (t := t.before s.phase) rfl hrom hi hj hk).trans hop
  · rw [hev, (traceOk_iff hlive).1 h, hcfg, word_congr hrom, hi, hj, hk]

/-! ### Every move keeps it -/

theorem afterFrame_traceOk {u : State} (h : s.traceOk) (hphase : s.phase = .framing) (hu : u.toParameters = s.toParameters)
    (hp : u.phase = s.phase) (hi : u.i = s.i) (hj : u.j = s.j) (hk : u.k = s.k)
    (hev : u.events = s.events ++ [xferEvent s.word s.i.toNat s.j.toNat s.k.toNat .ok]) : (afterFrame u).traceOk := by
  have hcfg : u.cfg = s.cfg := congrArg Parameters.cfg hu
  have hrom : u.rom = s.rom := congrArg Parameters.rom hu
  have hs : s.phase.inStage = true := by rw [hphase]; rfl
  rcases afterFrame_cases u with ⟨hmode, hnext, heq⟩ | ⟨-, heq⟩ <;> rw [heq]
  · have hsucc := toNat_succ hnext nfrm_lt.le
    refine traceOk_of_stagePart h hs (hp ▸ hs) hcfg hrom hi hj hev ?_
    show stagePart s.cfg.acqMode s.word u.phase s.i.toNat s.j.toNat (u.k + 1).toNat = _
    rw [hsucc, hp, hphase, hk, ← hcfg, hmode, stagePart_framing_succ]
  · refine traceOk_of_stagePart h hs rfl hcfg hrom hi hj hev ?_
    show stagePart s.cfg.acqMode s.word .releasing s.i.toNat s.j.toNat u.k.toNat = _
    rw [hphase, hk, stagePart_releasing]

theorem afterRelease_traceOk {u : State} {n : BitVec 8} (h : s.traceOk) (hinv : s.Inv) (hphase : s.phase = .releasing)
    (hn : n.toNat = s.nfrm) (hu : u.toParameters = s.toParameters) (hi : u.i = s.i) (hj : u.j = s.j) (hk : u.k = s.k)
    (hev : u.events = s.events ++ [.rel]) : (afterRelease n s.delay u).traceOk := by
  have hcfg : u.cfg = s.cfg := congrArg Parameters.cfg hu
  have hrom : u.rom = s.rom := congrArg Parameters.rom hu
  have hs : s.phase.inStage = true := by rw [hphase]; rfl
  have hnfrm : u.nfrm = s.nfrm := nfrm_congr hrom hi hj
  have hlast (hmode : u.cfg.acqMode = .perStage ∨ u.nfrm ≤ u.k.toNat + 1) :
      stageBody s.cfg.acqMode s.word s.i.toNat s.j.toNat =
        stagePart s.cfg.acqMode s.word s.phase s.i.toNat s.j.toNat s.k.toNat ++ [.rel] := by
    rw [hcfg, hnfrm, hk] at hmode
    rw [hphase]
    exact stageBody_eq (hinv.lastFrame hphase hmode)
  rcases afterRelease_cases n s.delay u (hn.trans hnfrm.symm) with
    ⟨hmode, hnext, heq⟩ | ⟨hmode, ⟨-, heq⟩ | ⟨hnone, heq⟩⟩ <;> rw [heq]
  · have hsucc := toNat_succ hnext nfrm_lt.le
    refine traceOk_of_stagePart h hs rfl hcfg hrom hi hj hev ?_
    show stagePart s.cfg.acqMode s.word .acquiring s.i.toNat s.j.toNat (u.k + 1).toNat = _
    rw [hsucc, hphase, hk, ← hcfg, hmode, stagePart_acquiring_succ]
  · refine traceOk_of_stagePart h hs rfl hcfg hrom hi hj hev ?_
    exact stagePart_settling.trans (hlast hmode)
  · obtain ⟨hi', hj', -⟩ := hinv.position (by rw [hphase]; rfl)
    have hdelay : storeDelay s.word s.i.toNat s.j.toNat = none := hnone
    refine nextStage_traceOk u ?_ ?_ (storeAccepted_congr hrom hcfg (hinv.accepted (by simp [hphase]))) ?_
    · rwa [hi, nord_congr hrom]
    · rwa [hj, nstg_congr hrom hi]
    · rw [hev, (traceOk_iff_of_inStage hs).1 h, hcfg, word_congr hrom, hi, hj, familyPart_succ, hdelay, hlast hmode]
      simp

theorem Moves.traceOk (hmove : Moves s t) (hinv : s.Inv) (h : s.traceOk) : t.traceOk := by
  have hlive (hrun : s.phase.running = true) :
      s.events = eventsAt s.cfg.acqMode s.word s.phase s.i.toNat s.j.toNat s.k.toNat :=
    (traceOk_iff (ne_of_running hrun rfl)).1 h
  have hidle (hp : s.phase = .idle) : s.events = [] := by
    have := (traceOk_iff (by simp [hp])).1 h
    rwa [hp] at this
  cases hmove with
  | waits _ _ eq => exact eq ▸ h
  | startsEmpty phase _ _ nord eq =>
    subst eq
    exact (traceOk_iff (by simp)).2 ((hidle phase).trans (programEvents_empty nord).symm)
  | starts phase _ _ _ eq =>
    subst eq
    exact (traceOk_iff (by simp)).2 (hidle phase)
  | selects dt phase _ eq =>
    have hev := hlive (by rw [phase]; rfl)
    rw [phase] at hev
    subst eq
    rw [traceOk_iff_of_inStage rfl]
    show State.events (s.consume.emit (.sel s.famMux .ok) dt) =
      familiesPart s.cfg.acqMode s.word s.i.toNat ++ [selEvent s.word s.i.toNat] ++ stagePart _ _ .acquiring _ 0 0
    rw [stagePart_acquiring_zero, List.append_nil, events_emit]
    exact congrArg (· ++ _) hev
  | rejected dt phase _ _ eq =>
    subst eq
    exact traceOk_of_failure (op := .sel s.famMux) h (by rw [phase]; rfl) (by rw [State.outstanding, phase]) rfl rfl
      (by simp [Operation.failureCause]) rfl rfl ⟨rfl, rfl, rfl⟩ (events_emit _ _)
  | acquires dt phase _ eq =>
    subst eq
    refine traceOk_of_stagePart h (by rw [phase]; rfl) rfl rfl rfl rfl rfl (events_emit _ dt) ?_
    rw [phase]
    exact stagePart_configuring
  | configures dt phase _ eq =>
    subst eq
    refine traceOk_of_stagePart h (by rw [phase]; rfl) rfl rfl rfl rfl rfl (events_emit _ dt) ?_
    rw [phase]
    refine stagePart_framing fun hmode => ?_
    have hk : s.k = 0 := hinv.progress_of_configuring phase hmode
    exact congrArg BitVec.toNat hk
  | sends dt phase _ eq =>
    subst eq
    exact afterFrame_traceOk h phase rfl rfl rfl rfl rfl (events_emit _ dt)
  | aborts dt phase _ eq =>
    subst eq
    refine traceOk_of_failure (op := .xfer s.famLine s.frame) h (by rw [phase]; rfl) (by rw [State.outstanding, phase]) rfl rfl
      (by simp [Operation.failureCause]) (by simp) (by simp) (by simp) ?_
    rw [events_congr (raiseFatal_trace _ _), events_releaseOnAbort, events_emit]
    exact List.append_assoc _ _ _
  | releases dt n phase _ nfrm eq =>
    subst eq
    exact afterRelease_traceOk h hinv phase nfrm rfl rfl rfl rfl (events_emit _ dt)
  | settles dt d phase _ delay _ eq =>
    have hpos := hinv.position (by rw [phase]; rfl)
    have hdelay : storeDelay s.word s.i.toNat s.j.toNat = some d := delay
    have hev := (traceOk_iff_of_inStage (by rw [phase]; rfl)).1 h
    rw [phase, stagePart_settling] at hev
    subst eq
    refine nextStage_traceOk _ hpos.1 hpos.2.1 (hinv.accepted (by simp [phase])) ?_
    rw [events_emit]
    show s.events ++ _ = familiesPart s.cfg.acqMode s.word s.i.toNat ++ familyPart s.cfg.acqMode s.word s.i.toNat (s.j.toNat + 1)
    rw [hev, familyPart_succ, hdelay, slpEvents_some]
    simp
  | settleFails dt d phase _ delay eq =>
    subst eq
    exact traceOk_of_failure (op := .slp d) h (by rw [phase]; rfl) (by rw [State.outstanding, phase, delay]; rfl) rfl rfl
      (by simp [Operation.failureCause]) rfl rfl ⟨rfl, rfl, rfl⟩ (events_emit _ dt)
  | fsettles dt d phase _ ifd _ eq =>
    have hsucc := family_succ (hinv.progress_of_fsettling phase).2.1 (hinv.nord_le (by simp [phase]))
    have hev := hlive (by rw [phase]; rfl)
    have hifd : storeIfd s.word = some d := ifd
    rw [phase] at hev
    subst eq
    refine (traceOk_iff (by simp)).2 ?_
    show State.events (s.consume.emit (.slp d .elapsed) dt) = familiesPart s.cfg.acqMode s.word (s.i + 1).toNat
    rw [hsucc, familiesPart_succ, hifd, events_emit]
    exact congrArg (· ++ _) hev
  | fsettleFails dt d phase _ ifd eq =>
    subst eq
    exact traceOk_of_failure (op := .slp d) h (by rw [phase]; rfl) (by rw [State.outstanding, phase, ifd]; rfl) rfl rfl
      (by simp [Operation.failureCause]) rfl rfl ⟨rfl, rfl, rfl⟩ (events_emit _ dt)

theorem step_traceOk (hinv : s.Inv) (h : s.traceOk) (hstep : step s = .next t) : t.traceOk := by
  rcases step_reset_or_moves hstep with ⟨-, rfl⟩ | ⟨-, hmove⟩
  · exact (traceOk_iff (by simp)).2 rfl
  · exact hmove.traceOk hinv h

end Sys2Proof.Machine
end

section
/-! The discipline of acquire and release (41_sequencer.md R160), move by move. -/

namespace Sys2Proof.Machine

variable {s t : State}

/-- The discipline goes on from the bus as the state has it. -/
theorem busOk_of_events {es : List Event} (h : s.busOk) (hev : t.events = s.events ++ es)
    (hbus : busRun es s.busOwned = some t.busOwned) : t.busOk := by
  rw [State.busOk, hev, busRun_append, show busRun s.events false = some s.busOwned from h]
  exact hbus

/-- One event of an operation that leaves the bus as it is. -/
theorem busOk_of_event {e : Event} {o : Bool} (h : s.busOk) (hev : t.events = s.events ++ [e]) (hs : s.busOwned = o)
    (ht : t.busOwned = o) (hbus : busAfter e o = some o) : t.busOk := by
  refine busOk_of_events h hev ?_
  rw [hs, ht, busRun, hbus]
  rfl

theorem Moves.busOk (hmove : Moves s t) (hinv : s.Inv) (h : s.busOk) : t.busOk := by
  have bus {p : Phase} {o : Bool} (hp : s.phase = p) (hrun : p.running = true) (ho : p.owns = o) : s.busOwned = o := by
    subst hp
    exact (hinv.busOwned_eq hrun).trans ho
  cases hmove with
  | waits _ _ eq => exact eq ▸ h
  | startsEmpty _ _ _ _ eq => exact eq ▸ h
  | starts _ _ _ _ eq => exact eq ▸ h
  | selects dt phase _ eq =>
    have hfree : s.busOwned = false := bus phase rfl rfl
    subst eq
    exact busOk_of_event h (events_emit _ dt) hfree hfree rfl
  | rejected dt phase _ _ eq =>
    have hfree : s.busOwned = false := bus phase rfl rfl
    subst eq
    exact busOk_of_event h (events_emit _ dt) hfree hfree rfl
  | acquires dt phase _ eq =>
    have hfree : s.busOwned = false := bus phase rfl rfl
    subst eq
    exact busOk_of_events h (events_emit _ dt) (by rw [hfree]; rfl)
  | configures dt phase _ eq =>
    have hown : s.busOwned = true := bus phase rfl rfl
    subst eq
    exact busOk_of_event h (events_emit _ dt) hown hown rfl
  | sends dt phase _ eq =>
    have hown : s.busOwned = true := bus phase rfl rfl
    subst eq
    exact busOk_of_event h ((events_congr (afterFrame_trace _)).trans (events_emit _ dt)) hown
      ((afterFrame_busOwned _).trans hown) rfl
  | aborts dt phase _ eq =>
    have hown : s.busOwned = true := bus phase rfl rfl
    subst eq
    refine busOk_of_events (es := .xfer s.famLine s.frame .fail :: if s.cfg.releaseOnAbort then [.rel] else []) h ?_ ?_
    · rw [events_congr (raiseFatal_trace _ _), events_releaseOnAbort, events_emit]
      exact List.append_assoc _ _ _
    · rw [hown]
      cases hrel : s.cfg.releaseOnAbort <;> simp [busRun, busAfter, hown, hrel]
  | releases dt n phase _ _ eq =>
    have hown : s.busOwned = true := bus phase rfl rfl
    subst eq
    exact busOk_of_events h ((events_congr (afterRelease_trace _ _ _)).trans (events_emit _ dt))
      (by rw [hown, afterRelease_busOwned]; rfl)
  | settles dt d phase _ _ _ eq =>
    have hfree : s.busOwned = false := bus phase rfl rfl
    subst eq
    exact busOk_of_event h ((events_congr (nextStage_trace _)).trans (events_emit _ dt)) hfree
      ((nextStage_busOwned _).trans hfree) rfl
  | settleFails dt d phase _ _ eq =>
    have hfree : s.busOwned = false := bus phase rfl rfl
    subst eq
    exact busOk_of_event h (events_emit _ dt) hfree hfree rfl
  | fsettles dt d phase _ _ _ eq =>
    have hfree : s.busOwned = false := bus phase rfl rfl
    subst eq
    exact busOk_of_event h (events_emit _ dt) hfree hfree rfl
  | fsettleFails dt d phase _ _ eq =>
    have hfree : s.busOwned = false := bus phase rfl rfl
    subst eq
    exact busOk_of_event h (events_emit _ dt) hfree hfree rfl

theorem step_busOk (hinv : s.Inv) (h : s.busOk) (hstep : step s = .next t) : t.busOk := by
  rcases step_reset_or_moves hstep with ⟨-, rfl⟩ | ⟨-, hmove⟩
  · rfl
  · exact hmove.busOk hinv h

end Sys2Proof.Machine
end

section
/-! The declared delays (41_sequencer.md R159, 43_delay_gate.md R211, R219), move by move: what is recorded of the last transfer,
and the time since it. -/

namespace Sys2Proof.Machine

variable {s t : State}

/-! ### The last transfer -/

theorem lastXferTime_eq (tr : List TraceEntry) :
    lastXferTime tr = ((tr.filter fun e => e.event.isXfer).getLast?).map TraceEntry.time := rfl

theorem lastXferTime_concat_xfer {tr : List TraceEntry} {e : TraceEntry} (h : e.event.isXfer = true) :
    lastXferTime (tr ++ [e]) = some e.time := by
  simp [lastXferTime_eq, List.filter_append, h]

theorem lastXferTime_concat_other {tr : List TraceEntry} {e : TraceEntry} (h : e.event.isXfer = false) :
    lastXferTime (tr ++ [e]) = lastXferTime tr := by
  simp [lastXferTime_eq, List.filter_append, h]

/-- The time of the last transfer is a recorded one. -/
theorem exists_mem_of_lastXferTime {tr : List TraceEntry} {x : Nat} (h : lastXferTime tr = some x) : ∃ e ∈ tr, e.time = x := by
  rw [lastXferTime_eq] at h
  obtain ⟨e, he, rfl⟩ := Option.map_eq_some_iff.1 h
  exact ⟨e, List.mem_of_mem_filter (List.mem_of_getLast? he), rfl⟩

/-! ### The time since it -/

/-- Every recorded time is past. -/
def State.timesPast (s : State) : Prop := ∀ e ∈ s.trace, e.time ≤ s.now

/-- At least `n` ms have passed since the last transfer. -/
def State.rested (s : State) (n : Nat) : Prop := ∀ x, lastXferTime s.trace = some x → x + n ≤ s.now

theorem State.timesPast.rested_zero (h : s.timesPast) : s.rested 0 := by
  intro x hx
  obtain ⟨e, he, rfl⟩ := exists_mem_of_lastXferTime hx
  exact h e he

theorem State.timesPast.emit (h : s.timesPast) (e : Event) (dt : Nat) : (s.emit e dt).timesPast := by
  intro x hx
  rcases List.mem_append.1 hx with hold | hnew
  · exact (h x hold).trans (Nat.le_add_right _ _)
  · rw [List.mem_singleton.1 hnew]
    rfl

theorem State.timesPast.releaseOnAbort (h : s.timesPast) : (releaseOnAbort s).timesPast := by
  unfold Machine.releaseOnAbort
  split
  · exact h.emit .rel 0
  · exact h

/-- An operation that is no transfer adds its time. -/
theorem State.rested.emit {n d : Nat} (h : s.rested n) {e : Event} {dt : Nat} (he : e.isXfer = false) (hd : d ≤ dt) :
    (s.emit e dt).rested (n + d) := by
  intro x hx
  rw [emit_trace, lastXferTime_concat_other he] at hx
  have := h x hx
  rw [emit_now]
  omega

theorem lastXferTime_emit_other {e : Event} {dt : Nat} (he : e.isXfer = false) :
    lastXferTime (s.emit e dt).trace = lastXferTime s.trace := lastXferTime_concat_other he

theorem lastXferTime_emit_xfer {e : Event} {dt : Nat} (he : e.isXfer = true) :
    lastXferTime (s.emit e dt).trace = some (s.now + dt) := lastXferTime_concat_xfer he

/-! ### Meeting the delays in each kind of phase -/

/-- Where no delay is being counted. -/
theorem delaysOk_of_rest (hpast : t.timesPast) (hphase : t.phase = .idle ∨ t.phase = .done ∨ t.phase = .fatal) : t.delaysOk where
  past := hpast
  sent := by rcases hphase with h | h | h <;> simp [h]
  family := by rcases hphase with h | h | h <;> simp [h]
  stage := by rcases hphase with h | h | h <;> simp [h, Phase.beforeXfer]

theorem delaysOk_of_beforeXfer (hpast : t.timesPast) (hphase : t.phase.beforeXfer = true)
    (hstage : t.k = 0 → t.rested (gapBefore t.word t.i.toNat t.j.toNat)) : t.delaysOk where
  past := hpast
  sent := by rintro (h | h | h) <;> simp [h, Phase.beforeXfer] at hphase
  family := by rintro h; simp [h, Phase.beforeXfer] at hphase
  stage := fun _ => hstage

theorem delaysOk_of_afterXfer (hpast : t.timesPast) (hphase : t.phase = .releasing ∨ t.phase = .settling)
    (hsent : (lastXferTime t.trace).isSome = true) : t.delaysOk where
  past := hpast
  sent := fun _ => hsent
  family := by rcases hphase with h | h <;> simp [h]
  stage := by rcases hphase with h | h <;> simp [h, Phase.beforeXfer]

theorem delaysOk_of_fsettling (hpast : t.timesPast) (hphase : t.phase = .fsettling)
    (hsent : (lastXferTime t.trace).isSome = true) (hfamily : t.rested (lastDelay t.word t.i.toNat)) : t.delaysOk where
  past := hpast
  sent := fun _ => hsent
  family := fun _ => hfamily
  stage := by simp [hphase, Phase.beforeXfer]

/-! ### Every move keeps them -/

/-- At the end of a stage and of its delay, `nextStage` leads to a state with the delays served. -/
theorem nextStage_delaysOk (hpast : s.timesPast) (hsent : (lastXferTime s.trace).isSome = true)
    (hrest : s.rested (msOf s.delay)) (hj : s.j.toNat < s.nstg) (hnord : s.nord ≤ 5) : (nextStage s).delaysOk := by
  have hlast (h : s.nstg ≤ s.j.toNat + 1) : msOf s.delay = lastDelay s.word s.i.toNat := by
    have hj' : s.j.toNat = storeNstg s.word s.i.toNat - 1 := by have : storeNstg s.word s.i.toNat = s.nstg := rfl; omega
    rw [State.delay, lastDelay, hj']
  rcases nextStage_cases s with ⟨hnext, heq⟩ | ⟨-, -, heq⟩ | ⟨hend, -, -, heq⟩ | ⟨hend, hnext, hnone, heq⟩ <;> rw [heq]
  · refine delaysOk_of_beforeXfer hpast rfl fun _ => ?_
    show s.rested (gapBefore s.word s.i.toNat (s.j + 1).toNat)
    rw [toNat_succ hnext nstg_lt.le]
    exact hrest
  · exact delaysOk_of_rest hpast (.inr (.inl rfl))
  · exact delaysOk_of_fsettling hpast rfl hsent (hlast hend ▸ hrest)
  · refine delaysOk_of_beforeXfer hpast rfl fun _ => ?_
    have hgap : gapBefore s.word (s.i.toNat + 1) 0 = lastDelay s.word s.i.toNat := by
      rw [gapBefore, show storeIfd s.word = none from hnone]
      rfl
    show s.rested (gapBefore s.word (s.i + 1).toNat 0)
    rw [family_succ hnext hnord, hgap, ← hlast hend]
    exact hrest

/-- A position's later frames need no delay: their counter is not 0. -/
theorem succ_ne_zero_of_nfrm (h : s.k.toNat + 1 < s.nfrm) : s.k + 1 ≠ 0 := by
  intro hk
  have hsucc := toNat_succ h nfrm_lt.le
  rw [hk] at hsucc
  exact absurd hsucc (by simp)

theorem afterFrame_delaysOk (hpast : s.timesPast) (hphase : s.phase = .framing)
    (hsent : (lastXferTime s.trace).isSome = true) : (afterFrame s).delaysOk := by
  rcases afterFrame_cases s with ⟨-, hnext, heq⟩ | ⟨-, heq⟩ <;> rw [heq]
  · exact delaysOk_of_beforeXfer hpast (by rw [hphase]; rfl) fun hk => absurd hk (succ_ne_zero_of_nfrm hnext)
  · exact delaysOk_of_afterXfer hpast (.inl rfl) hsent

theorem afterRelease_delaysOk {n : BitVec 8} (hpast : s.timesPast) (hsent : (lastXferTime s.trace).isSome = true)
    (hn : n.toNat = s.nfrm) (hj : s.j.toNat < s.nstg) (hnord : s.nord ≤ 5) : (afterRelease n s.delay s).delaysOk := by
  rcases afterRelease_cases n s.delay s hn with ⟨-, hnext, heq⟩ | ⟨-, ⟨-, heq⟩ | ⟨hnone, heq⟩⟩ <;> rw [heq]
  · exact delaysOk_of_beforeXfer hpast rfl fun hk => absurd hk (succ_ne_zero_of_nfrm hnext)
  · exact delaysOk_of_afterXfer hpast (.inr rfl) hsent
  · refine nextStage_delaysOk hpast hsent ?_ hj hnord
    rw [hnone]
    exact hpast.rested_zero

/-- Before a stage's first transfer an operation that stays at the position keeps its delay served. -/
theorem State.delaysOk.emit_rested (h : s.delaysOk) (hphase : s.phase.beforeXfer = true) (hk : s.k = 0) {e : Event} {dt : Nat}
    (he : e.isXfer = false) : (s.consume.emit e dt).rested (gapBefore s.word s.i.toNat s.j.toNat) :=
  State.rested.emit (s := s.consume) (h.stage hphase hk) he (Nat.zero_le dt)

theorem Moves.delaysOk (hmove : Moves s t) (hinv : s.Inv) (h : s.delaysOk) : t.delaysOk := by
  have hpast : s.consume.timesPast := h.past
  cases hmove with
  | waits _ _ eq => exact eq ▸ ⟨h.past, h.sent, h.family, h.stage⟩
  | startsEmpty _ _ _ _ eq => exact eq ▸ delaysOk_of_rest hpast (.inr (.inl rfl))
  | starts _ _ _ _ eq => exact eq ▸ delaysOk_of_beforeXfer hpast rfl fun _ => hpast.rested_zero
  | selects dt phase _ eq =>
    obtain ⟨hj, hk⟩ := hinv.progress_of_selecting phase
    have hrest := h.emit_rested (by rw [phase]; rfl) hk (e := .sel s.famMux .ok) (dt := dt) rfl
    rw [hj] at hrest
    subst eq
    exact delaysOk_of_beforeXfer (hpast.emit _ dt) rfl fun _ => hrest
  | rejected dt _ _ _ eq => exact eq ▸ delaysOk_of_rest (hpast.emit _ dt) (.inr (.inr rfl))
  | acquires dt phase _ eq =>
    subst eq
    exact delaysOk_of_beforeXfer (hpast.emit _ dt) rfl fun hk => h.emit_rested (by rw [phase]; rfl) hk rfl
  | configures dt phase _ eq =>
    subst eq
    exact delaysOk_of_beforeXfer (hpast.emit _ dt) rfl fun hk => h.emit_rested (by rw [phase]; rfl) hk rfl
  | sends dt phase _ eq =>
    subst eq
    exact afterFrame_delaysOk (hpast.emit _ dt) phase (by rw [lastXferTime_emit_xfer rfl]; rfl)
  | aborts dt _ _ eq => exact eq ▸ delaysOk_of_rest (hpast.emit _ dt).releaseOnAbort (.inr (.inr rfl))
  | releases dt n phase _ nfrm eq =>
    have hsent : (lastXferTime (s.consume.emit .rel dt).trace).isSome = true := by
      rw [lastXferTime_emit_other rfl]
      exact h.sent (.inl phase)
    subst eq
    exact afterRelease_delaysOk (hpast.emit .rel dt) hsent nfrm (hinv.position (by rw [phase]; rfl)).2.1
      (hinv.nord_le (by simp [phase]))
  | settles dt d phase _ delay le eq =>
    have hsent : (lastXferTime (s.consume.emit (.slp d .elapsed) dt).trace).isSome = true := by
      rw [lastXferTime_emit_other rfl]
      exact h.sent (.inr (.inl phase))
    have hrest : (s.consume.emit (.slp d .elapsed) dt).rested (msOf s.delay) := by
      rw [delay, ← Nat.zero_add (msOf _)]
      exact hpast.rested_zero.emit rfl le
    subst eq
    exact nextStage_delaysOk (hpast.emit _ dt) hsent hrest (hinv.position (by rw [phase]; rfl)).2.1
      (hinv.nord_le (by simp [phase]))
  | settleFails dt d _ _ _ eq => exact eq ▸ delaysOk_of_rest (hpast.emit _ dt) (.inr (.inr rfl))
  | fsettles dt d phase _ ifd le eq =>
    have hsucc := family_succ (hinv.progress_of_fsettling phase).2.1 (hinv.nord_le (by simp [phase]))
    have hfamily : s.consume.rested (lastDelay s.word s.i.toNat) := h.family phase
    have hgap : gapBefore s.word (s.i.toNat + 1) 0 = lastDelay s.word s.i.toNat + d.toNat := by
      rw [gapBefore, show storeIfd s.word = some d from ifd]
      rfl
    subst eq
    refine delaysOk_of_beforeXfer (hpast.emit _ dt) rfl fun _ => ?_
    show (s.consume.emit (.slp d .elapsed) dt).rested (gapBefore s.word (s.i + 1).toNat 0)
    rw [hsucc, hgap]
    exact hfamily.emit rfl le
  | fsettleFails dt d _ _ _ eq => exact eq ▸ delaysOk_of_rest (hpast.emit _ dt) (.inr (.inr rfl))

theorem step_delaysOk (hinv : s.Inv) (h : s.delaysOk) (hstep : step s = .next t) : t.delaysOk := by
  rcases step_reset_or_moves hstep with ⟨-, rfl⟩ | ⟨-, hmove⟩
  · exact delaysOk_of_rest (fun _ he => absurd he List.not_mem_nil) (.inl rfl)
  · exact hmove.delaysOk hinv h

end Sys2Proof.Machine
end

section
/-! The obligations of 41_sequencer.md and 43_delay_gate.md on what every step of a run keeps. -/

namespace Sys2Proof

open Machine

/-- Settles O47: every move adds to the trace what R152's loop demands at the position it leads to, or the failure. -/
theorem everyStepKeepsTheTraceOfTheProgram : Obligations.EveryStepKeepsTheTraceOfTheProgram := by
  unfold Obligations.EveryStepKeepsTheTraceOfTheProgram
  refine ⟨fun s t hinv h hstep => step_traceOk hinv h hstep, fun p => ?_⟩
  exact (traceOk_iff (by simp [State.resetWith, CoreState.reset])).2 rfl

/-- Settles O53: the event of every move is allowed by the bus as the invariant has it in the phase. -/
theorem everyStepKeepsTheBusDiscipline : Obligations.EveryStepKeepsTheBusDiscipline := by
  unfold Obligations.EveryStepKeepsTheBusDiscipline
  exact ⟨fun s t hinv h hstep => step_busOk hinv h hstep, fun _ => rfl⟩

/-- Settles O54: the time since the last transfer grows by every operation, and a delay's own at least by its length. -/
theorem everyStepServesTheDeclaredDelays : Obligations.EveryStepServesTheDeclaredDelays := by
  unfold Obligations.EveryStepServesTheDeclaredDelays
  refine ⟨fun s t hinv h hstep => step_delaysOk hinv h hstep, fun p => ?_⟩
  exact delaysOk_of_rest (fun _ he => absurd he List.not_mem_nil) (.inl rfl)

end Sys2Proof
end

section
/-! The step read forward: where it runs a record, and what the fetched record does in each phase with its operands read back as
look-ups of the store (30_encoding.md R104, 42_program_table.md R181). -/

namespace Sys2Proof.Machine

variable {s t : State} {p : Place} {i : Instr}

theorem waitsForStart_eq_false (h : s.phase = .idle → s.arrival.start = true) : s.waitsForStart = false := by
  by_cases hidle : s.phase = .idle
  · simp [State.waitsForStart, h hidle]
  · simp [State.waitsForStart, hidle]

/-- Where a record is fetched and decoded, the step is its meaning (R13). -/
theorem step_eq_exec (hreset : s.arrival.reset = false) (hstart : s.phase = .idle → s.arrival.start = true)
    (hplace : s.place = some p) (hpp : s.pp < s.cfg.romWords) (hdec : decodeAt p (s.word s.pp) = .ok i) :
    step s = exec i s := by
  rw [step_eq_cycle, cycle, if_neg (by simp [hreset]), hplace]
  simp only [waitsForStart_eq_false hstart, hdec, if_neg (show ¬s.cfg.romWords ≤ s.pp by omega)]
  rfl

/-- Before `start` IDLE waits (R40, R286). -/
theorem step_of_idle (hreset : s.arrival.reset = false) (hidle : s.phase = .idle) (hstart : s.arrival.start = false) :
    step s = .next s.consume := by
  have hplace : s.place = some .hdr := by rw [State.place, hidle]
  have hwait : s.waitsForStart = true := by simp [State.waitsForStart, hidle, hstart]
  rw [step_eq_cycle, cycle, if_neg (by simp [hreset]), hplace]
  simp only [hwait, if_true]

/-- FATAL issues nothing (R235). -/
theorem step_of_fatal (hreset : s.arrival.reset = false) (hfatal : s.phase = .fatal) : step s = .next s.consume := by
  have hplace : s.place = none := by rw [State.place, hfatal]
  rw [step_eq_cycle, cycle, if_neg (by simp [hreset]), hplace]

/-- The operation of the phase, on the look-ups at the position. -/
def State.operate (s : State) : Result :=
  match s.phase with
  | .idle => startRun (hdrNfam (s.word 0)) s
  | .selecting => sel s.famMux s
  | .acquiring => acq s
  | .configuring => configure s.famSpi s
  | .framing => xfer s.frame s
  | .releasing => rel (stgNfrm (storeStg s.word s.i.toNat s.j.toNat)) s.delay s
  | .settling => slpDeclared s.delay nextStage s
  | .fsettling => slpDeclared s.ifd nextFamily s
  | .done => .next s.consume
  | .fatal => .next s.consume

theorem inPhase_eq {ph : Phase} {r : Result} (h : s.phase = ph) : inPhase ph s r = r := if_pos h

/-- The record at a frame's address sends the frame of the table (R99). -/
theorem exec_frame (hphase : s.phase = .framing)
    (hdec : decodeFrm s.famW4 (s.word (frmAddr s.word s.i.toNat s.j.toNat s.k.toNat)) = .ok i) :
    exec i s = xfer s.frame s := by
  have hframe (b : Bool) (h : s.famW4 = b) :
      s.frame = frameBytes b (s.word (frmAddr s.word s.i.toNat s.j.toNat s.k.toNat)) := by rw [← h]; rfl
  rcases decodeFrm_ok hdec with ⟨hw4, rfl⟩ | ⟨hw4, -, rfl⟩
  · rw [hframe true hw4]
    exact inPhase_eq hphase
  · rw [hframe false hw4]
    exact inPhase_eq hphase

/-- What the fetched record does is the operation of the phase. -/
theorem exec_eq_operate (hplace : s.place = some p) (hdec : decodeAt p (s.word s.pp) = .ok i) : exec i s = s.operate := by
  rcases phase_of_place hplace with ⟨rfl, h | h⟩ | ⟨rfl, h⟩ | ⟨rfl, h | h | h | h⟩ | ⟨rfl, h⟩ | ⟨rfl, h⟩ <;>
    simp only [State.pp, h] at hdec <;> simp only [State.operate, h]
  · obtain ⟨-, -, -, rfl⟩ := decodeHdr_ok hdec
    simp only [exec, execHdr, h]
  · obtain ⟨-, -, -, rfl⟩ := decodeHdr_ok hdec
    simp only [exec, execHdr, h]
    rfl
  · obtain ⟨-, -, -, f, -, rfl⟩ := decodeFam_ok hdec
    exact inPhase_eq h
  · obtain ⟨-, -, -, kd, -, rfl⟩ := decodeStg_ok hdec
    rw [exec_stageRecord, runStage, h]
  · obtain ⟨-, -, -, kd, -, rfl⟩ := decodeStg_ok hdec
    rw [exec_stageRecord, runStage, h]
  · obtain ⟨-, -, -, kd, -, rfl⟩ := decodeStg_ok hdec
    rw [exec_stageRecord, runStage, h]
    rfl
  · obtain ⟨-, -, -, kd, -, rfl⟩ := decodeStg_ok hdec
    rw [exec_stageRecord, runStage, h]
    rfl
  · exact exec_frame h hdec
  · obtain ⟨-, rfl⟩ := decodeEnd_ok hdec
    exact inPhase_eq h

/-! ### Where a step is refused -/

/-- A step is refused by the fetch, the word there being no record of the place, or by the phase's operation. -/
theorem step_refused {x : Refusal} (h : step s = .refused x) :
    (∃ r, x = .storeRefused s.pp r) ∨ s.operate = .refused x := by
  rw [step_eq_cycle, cycle] at h
  split at h
  · simp at h
  · split at h
    · simp at h
    · next p hplace =>
      split at h
      · simp at h
      · split at h
        · simp at h
        · split at h
          · exact .inl ⟨_, by simpa using h.symm⟩
          · next i hdec => exact .inr (exec_eq_operate hplace hdec ▸ h)

theorem operate_refused {x : Refusal} (h : s.operate = .refused x) :
    StopsOnResponse s x ∨ x = .noDelayDeclared s.phase ∨ ∃ a r, x = .storeRefused a r := by
  unfold State.operate at h
  split at h
  · obtain ⟨a, r, -, hx⟩ := startRun_refused h
    exact .inr (.inr ⟨a, r, hx⟩)
  · exact .inl (sel_refused h)
  · exact .inl (acq_refused h)
  · exact .inl (configure_refused h)
  · exact .inl (xfer_refused h)
  · exact .inl (rel_refused h)
  · exact (slpDeclared_refused h).imp_right fun ⟨_, hx⟩ => .inl hx
  · exact (slpDeclared_refused h).imp_right fun ⟨_, hx⟩ => .inl hx
  · simp at h
  · simp at h

/-! ### Admitted answers are always answered by a next state -/

/-- Whatever response comes is one that the operation admits. -/
def State.hearsOnly (s : State) (op : Operation) : Prop := ∀ r, s.arrival.resp = some r → op.admits s.cfg r = true

theorem awaitResponse_answers {k : Response → Result} (h : ∀ r, s.arrival.resp = some r → ∃ t, k r = .next t) :
    ∃ t, awaitResponse s k = .next t := by
  unfold awaitResponse
  split
  · exact ⟨_, rfl⟩
  · next r hr => exact h r hr

theorem sel_answers {code : MuxCode} (h : s.hearsOnly (.sel code)) : ∃ t, sel code s = .next t := by
  refine awaitResponse_answers fun r hr => ?_
  have hadmit := h r hr
  cases r with
  | ok dt => exact ⟨_, rfl⟩
  | rejected dt => exact ⟨_, if_pos hadmit⟩
  | _ => exact absurd hadmit (by simp [Operation.admits])

theorem acq_answers (h : s.hearsOnly .acq) : ∃ t, acq s = .next t := by
  refine awaitResponse_answers fun r hr => ?_
  have hadmit := h r hr
  cases r with
  | granted dt => exact ⟨_, rfl⟩
  | _ => exact absurd hadmit (by simp [Operation.admits])

theorem configure_answers {spi : SpiConfig} (h : s.hearsOnly (.cfg spi)) : ∃ t, configure spi s = .next t := by
  refine awaitResponse_answers fun r hr => ?_
  have hadmit := h r hr
  cases r with
  | ok dt => exact ⟨_, rfl⟩
  | _ => exact absurd hadmit (by simp [Operation.admits])

theorem xfer_answers {line : BitVec 2} {bytes : Frame} (h : s.hearsOnly (.xfer line bytes)) :
    ∃ t, xfer bytes s = .next t := by
  refine awaitResponse_answers fun r hr => ?_
  have hadmit := h r hr
  cases r with
  | ok dt => exact ⟨_, rfl⟩
  | fail dt => exact ⟨_, rfl⟩
  | _ => exact absurd hadmit (by simp [Operation.admits])

theorem rel_answers {n : BitVec 8} {d : Option Millis} (h : s.hearsOnly .rel) : ∃ t, rel n d s = .next t := by
  refine awaitResponse_answers fun r hr => ?_
  have hadmit := h r hr
  cases r with
  | ok dt => exact ⟨_, rfl⟩
  | _ => exact absurd hadmit (by simp [Operation.admits])

theorem slp_answers {d : Millis} {after : State → State} (h : s.hearsOnly (.slp d)) : ∃ t, slp d after s = .next t := by
  refine awaitResponse_answers fun r hr => ?_
  have hadmit := h r hr
  cases r with
  | elapsed dt => exact ⟨_, if_pos (of_decide_eq_true hadmit)⟩
  | fail dt => exact ⟨_, rfl⟩
  | _ => exact absurd hadmit (by simp [Operation.admits])

theorem startRun_answers {n : BitVec 4} (h : s.storeAccepted) : ∃ t, startRun n s = .next t := by
  unfold startRun
  rw [show storeCheck s.word s.cfg.romWords = none from h]
  split
  · simp only []
    split <;> exact ⟨_, rfl⟩
  · exact ⟨_, rfl⟩

/-- A declared delay is served when what comes is admitted; a settle phase has one declared. -/
theorem slpDeclared_answers {d : Option Millis} {after : State → State} (hsome : d.isSome = true)
    (h : ∀ op, d.map Operation.slp = some op → s.hearsOnly op) : ∃ t, slpDeclared d after s = .next t := by
  obtain ⟨ms, rfl⟩ := Option.isSome_iff_exists.1 hsome
  exact slp_answers (h _ rfl)

/-- From a state of the invariant the phase's operation answers (R280). -/
theorem operate_answers (hinv : s.Inv) (hacc : s.storeAccepted) (hadmit : s.arrivalAdmitted) : ∃ t, s.operate = .next t := by
  have hears (op : Operation) (hop : s.outstanding = some op) : s.hearsOnly op := fun r hr => hadmit r op hr hop
  cases hphase : s.phase <;> simp only [State.operate, State.outstanding, hphase] at hears ⊢
  case idle => exact startRun_answers hacc
  case selecting => exact sel_answers (hears _ rfl)
  case acquiring => exact acq_answers (hears _ rfl)
  case configuring => exact configure_answers (hears _ rfl)
  case framing => exact xfer_answers (hears _ rfl)
  case releasing => exact rel_answers (hears _ rfl)
  case settling => exact slpDeclared_answers (hinv.progress_of_settling hphase).1 hears
  case fsettling => exact slpDeclared_answers (hinv.progress_of_fsettling hphase).1 hears
  case done => exact ⟨_, rfl⟩
  case fatal => exact ⟨_, rfl⟩

/-- In an accepted store the position of the invariant has the phase's record, below the store's end (R91, R104). -/
theorem fetch_of_inv (hinv : s.Inv) (hacc : s.storeAccepted) (hplace : s.place = some p) :
    s.pp < s.cfg.romWords ∧ ∃ i, decodeAt p (s.word s.pp) = .ok i := by
  have a := storeCheck_none.1 hacc
  have hstage (hrun : s.phase.running = true) (hpp : s.pp = stgAddr s.word s.i.toNat s.j.toNat) :
      s.pp < s.cfg.romWords ∧ ∃ i, decodeAt .stg (s.word s.pp) = .ok i := by
    obtain ⟨hi, hj, -⟩ := hinv.position hrun
    rw [hpp]
    exact ⟨a.stgIn _ hi _ hj, a.stg _ hi _ hj⟩
  rcases phase_of_place hplace with ⟨rfl, h | h⟩ | ⟨rfl, h⟩ | ⟨rfl, h | h | h | h⟩ | ⟨rfl, h⟩ | ⟨rfl, h⟩
  · rw [State.pp, h]
    exact ⟨a.hdrIn, a.hdr⟩
  · rw [State.pp, h]
    exact ⟨a.hdrIn, a.hdr⟩
  · obtain ⟨hi, -, -⟩ := hinv.position (by rw [h]; rfl)
    rw [State.pp, h]
    exact ⟨a.famIn _ hi, a.fam _ hi⟩
  · exact hstage (by rw [h]; rfl) (by rw [State.pp, h])
  · exact hstage (by rw [h]; rfl) (by rw [State.pp, h])
  · exact hstage (by rw [h]; rfl) (by rw [State.pp, h])
  · exact hstage (by rw [h]; rfl) (by rw [State.pp, h])
  · obtain ⟨hi, hj, hk⟩ := hinv.position (by rw [h]; rfl)
    rw [State.pp, h]
    exact ⟨a.frmIn _ hi _ hj _ hk, a.frm _ hi _ hj _ hk⟩
  · rw [State.pp, h]
    exact ⟨a.endIn, decodeEnd_ok_iff.2 a.endRec⟩

theorem step_answers (hinv : s.Inv) (hacc : s.storeAccepted) (hadmit : s.arrivalAdmitted) : ∃ t, step s = .next t := by
  cases hreset : s.arrival.reset with
  | true => exact ⟨_, step_of_reset hreset⟩
  | false =>
    cases hplace : s.place with
    | none => exact ⟨_, by rw [step_eq_cycle, cycle, if_neg (by simp [hreset]), hplace]⟩
    | some p =>
      by_cases hwait : s.phase = .idle ∧ s.arrival.start = false
      · exact ⟨_, step_of_idle hreset hwait.1 hwait.2⟩
      · obtain ⟨hpp, i, hdec⟩ := fetch_of_inv hinv hacc hplace
        have hstart (hidle : s.phase = .idle) : s.arrival.start = true := by simpa [hidle] using hwait
        obtain ⟨t, ht⟩ := operate_answers hinv hacc hadmit
        exact ⟨t, by rw [step_eq_exec hreset hstart hplace hpp hdec, exec_eq_operate hplace hdec, ht]⟩

end Sys2Proof.Machine
end

section
/-! The untimed view of a step (41_sequencer.md R161): no operation and no move of the position reads a selector line, the clock
or a duration, but for the length of a delay. -/

namespace Sys2Proof.Machine

variable {s t : State}

/-! ### Look-ups and updates -/

namespace SameUntimed

variable (h : SameUntimed s t)
include h

theorem word_eq : t.word = s.word := word_congr h.rom.symm
theorem nord_eq : t.nord = s.nord := nord_congr h.rom.symm
theorem ifd_eq : t.ifd = s.ifd := ifd_congr h.rom.symm
theorem nstg_eq : t.nstg = s.nstg := nstg_congr h.rom.symm h.i.symm
theorem nfrm_eq : t.nfrm = s.nfrm := nfrm_congr h.rom.symm h.i.symm h.j.symm
theorem delay_eq : t.delay = s.delay := delay_congr h.rom.symm h.i.symm h.j.symm
theorem famMux_eq : t.famMux = s.famMux := famMux_congr h.rom.symm h.i.symm
theorem famSpi_eq : t.famSpi = s.famSpi := famSpi_congr h.rom.symm h.i.symm
theorem famLine_eq : t.famLine = s.famLine := famLine_congr h.rom.symm h.i.symm
theorem famW4_eq : t.famW4 = s.famW4 := famW4_congr h.rom.symm h.i.symm
theorem frame_eq : t.frame = s.frame := frame_congr h.rom.symm h.i.symm h.j.symm h.k.symm

theorem place_eq : t.place = s.place := by rw [State.place, State.place, h.famW4_eq, h.phase]
theorem pp_eq : t.pp = s.pp := by rw [State.pp, State.pp, h.word_eq, h.phase, h.i, h.j, h.k]

theorem consume : SameUntimed s.consume t.consume :=
  ⟨h.phase, h.i, h.j, h.k, h.busOwned, h.cause, h.cfg, h.rom, h.events⟩

theorem emit (e : Event) (dt dt' : Nat) : SameUntimed (s.emit e dt) (t.emit e dt') :=
  ⟨h.phase, h.i, h.j, h.k, h.busOwned, h.cause, h.cfg, h.rom, by rw [events_emit, events_emit, h.events]⟩

theorem loseMux : SameUntimed s.loseMux t.loseMux :=
  ⟨h.phase, h.i, h.j, h.k, h.busOwned, h.cause, h.cfg, h.rom, h.events⟩

theorem raiseFatal (c : Cause) : SameUntimed (raiseFatal c s) (raiseFatal c t) :=
  ⟨rfl, h.i, h.j, h.k, h.busOwned, rfl, h.cfg, h.rom, h.events⟩

theorem resetCore : SameUntimed (resetCore s) (resetCore t) := ⟨rfl, rfl, rfl, rfl, rfl, rfl, h.cfg, h.rom, rfl⟩

theorem releaseOnAbort : SameUntimed (releaseOnAbort s) (releaseOnAbort t) := by
  unfold Machine.releaseOnAbort
  rw [h.cfg]
  split
  · have hemit := h.emit .rel 0 0
    exact ⟨hemit.phase, hemit.i, hemit.j, hemit.k, rfl, hemit.cause, hemit.cfg, hemit.rom, hemit.events⟩
  · exact h

/-! ### Moves of the position -/

theorem inPhase (p : Phase) : SameUntimed { s with phase := p } { t with phase := p } :=
  ⟨rfl, h.i, h.j, h.k, h.busOwned, h.cause, h.cfg, h.rom, h.events⟩

theorem nextFamily : SameUntimed (nextFamily s) (nextFamily t) :=
  ⟨rfl, congrArg (· + 1) h.i, rfl, rfl, h.busOwned, h.cause, h.cfg, h.rom, h.events⟩

theorem familyEnd : SameUntimed (familyEnd s) (familyEnd t) := by
  have hcond : (t.i.toNat + 1 < t.nord) = (s.i.toNat + 1 < s.nord) := by rw [h.nord_eq, h.i]
  unfold Machine.familyEnd
  simp only [hcond, h.ifd_eq]
  split
  · split
    · exact h.inPhase .fsettling
    · exact h.nextFamily
  · exact h.inPhase .done

theorem nextStage : SameUntimed (nextStage s) (nextStage t) := by
  have hcond : (t.j.toNat + 1 < t.nstg) = (s.j.toNat + 1 < s.nstg) := by rw [h.nstg_eq, h.j]
  unfold Machine.nextStage
  simp only [hcond]
  split
  · exact ⟨rfl, h.i, congrArg (· + 1) h.j, rfl, h.busOwned, h.cause, h.cfg, h.rom, h.events⟩
  · exact h.familyEnd

theorem stageEnd (d : Option Millis) : SameUntimed (stageEnd d s) (stageEnd d t) := by
  cases d with
  | none => exact h.nextStage
  | some ms => exact h.inPhase .settling

theorem afterFrame : SameUntimed (afterFrame s) (afterFrame t) := by
  have hcond : (t.cfg.acqMode = .perStage ∧ t.k.toNat + 1 < t.nfrm) =
      (s.cfg.acqMode = .perStage ∧ s.k.toNat + 1 < s.nfrm) := by rw [h.nfrm_eq, h.k, h.cfg]
  unfold Machine.afterFrame
  simp only [hcond]
  split
  · exact ⟨h.phase, h.i, h.j, congrArg (· + 1) h.k, h.busOwned, h.cause, h.cfg, h.rom, h.events⟩
  · exact h.inPhase .releasing

theorem afterRelease (n : BitVec 8) (d : Option Millis) : SameUntimed (afterRelease n d s) (afterRelease n d t) := by
  have hcond : (t.cfg.acqMode = .perFrame ∧ t.k.toNat + 1 < n.toNat) =
      (s.cfg.acqMode = .perFrame ∧ s.k.toNat + 1 < n.toNat) := by rw [h.k, h.cfg]
  unfold Machine.afterRelease
  simp only [hcond]
  split
  · exact ⟨rfl, h.i, h.j, congrArg (· + 1) h.k, h.busOwned, h.cause, h.cfg, h.rom, h.events⟩
  · exact h.stageEnd d

end SameUntimed

/-! ### Operations -/

/-- The same response, its operation having taken `dt`. -/
def Response.withTime (dt : Nat) : Response → Response
  | .ok _ => .ok dt
  | .granted _ => .granted dt
  | .rejected _ => .rejected dt
  | .fail _ => .fail dt
  | .elapsed _ => .elapsed dt

theorem eq_withTime_of_sameKind {r r' : Response} (h : r.sameKind r' = true) : r' = r.withTime r'.dt := by
  unfold Response.sameKind at h
  split at h
  · rfl
  · rfl
  · rfl
  · rfl
  · rfl
  · simp at h

/-- Wherever the first answers a next state, the second answers one that looks the same untimed. -/
def Follows (r r' : Result) : Prop := ∀ s', r = .next s' → ∃ t', r' = .next t' ∧ SameUntimed s' t'

theorem follows_next (h : SameUntimed s t) : Follows (.next s) (.next t) := by
  rintro s' hs'
  obtain rfl : s = s' := by simpa using hs'
  exact ⟨t, rfl, h⟩

theorem follows_refused {x : Refusal} {r' : Result} : Follows (.refused x) r' := by
  rintro s' hs'
  simp at hs'

section
variable (h : SameUntimed s t) (ha : s.arrival.sameKind t.arrival)
include h ha

theorem awaitResponse_follows {k k' : Response → Result}
    (hk : ∀ r dt', t.arrival.resp = some (r.withTime dt') → Follows (k r) (k' (r.withTime dt'))) :
    Follows (awaitResponse s k) (awaitResponse t k') := by
  obtain ⟨-, -, hresp⟩ := ha
  unfold awaitResponse
  cases hs : s.arrival.resp <;> cases ht : t.arrival.resp <;> simp only [hs, ht] at hresp
  case none.none => exact follows_next h.consume
  case some.some r r' =>
    have hr' := eq_withTime_of_sameKind hresp
    rw [hr'] at ht ⊢
    exact hk r _ ht

theorem sel_follows (code : MuxCode) : Follows (sel code s) (sel code t) := by
  refine awaitResponse_follows h ha fun r dt' _ => ?_
  cases r with
  | ok dt =>
    have hemit := h.consume.emit (.sel code .ok) dt dt'
    exact follows_next ⟨rfl, hemit.i, rfl, rfl, hemit.busOwned, hemit.cause, hemit.cfg, hemit.rom, hemit.events⟩
  | rejected dt =>
    simp only [Response.withTime, h.cfg]
    split
    · exact follows_next ((h.consume.emit (.sel code .rejected) dt dt').loseMux.raiseFatal .selectorFailure)
    · exact follows_refused
  | _ => exact follows_refused

theorem acq_follows : Follows (acq s) (acq t) := by
  refine awaitResponse_follows h ha fun r dt' _ => ?_
  cases r with
  | granted dt =>
    have hemit := h.consume.emit .acq dt dt'
    exact follows_next ⟨rfl, hemit.i, hemit.j, hemit.k, rfl, hemit.cause, hemit.cfg, hemit.rom, hemit.events⟩
  | _ => exact follows_refused

theorem configure_follows (spi : SpiConfig) : Follows (configure spi s) (configure spi t) := by
  refine awaitResponse_follows h ha fun r dt' _ => ?_
  cases r with
  | ok dt => exact follows_next ((h.consume.emit (.cfg spi) dt dt').inPhase .framing)
  | _ => exact follows_refused

theorem xfer_follows (bytes : Frame) : Follows (xfer bytes s) (xfer bytes t) := by
  refine awaitResponse_follows h ha fun r dt' _ => ?_
  have hemit (a : Answer) (dt : Nat) :
      SameUntimed (s.consume.emit (.xfer s.famLine bytes a) dt) (t.consume.emit (.xfer t.famLine bytes a) dt') := by
    rw [h.famLine_eq]
    exact h.consume.emit _ dt dt'
  cases r with
  | ok dt => exact follows_next (hemit .ok dt).afterFrame
  | fail dt => exact follows_next ((hemit .fail dt).releaseOnAbort.raiseFatal .transportFailure)
  | _ => exact follows_refused

theorem rel_follows (n : BitVec 8) (d : Option Millis) : Follows (rel n d s) (rel n d t) := by
  refine awaitResponse_follows h ha fun r dt' _ => ?_
  cases r with
  | ok dt =>
    have hemit := h.consume.emit .rel dt dt'
    have hfree : SameUntimed { s.consume.emit .rel dt with busOwned := false }
        { t.consume.emit .rel dt' with busOwned := false } :=
      ⟨hemit.phase, hemit.i, hemit.j, hemit.k, rfl, hemit.cause, hemit.cfg, hemit.rom, hemit.events⟩
    exact follows_next (hfree.afterRelease n d)
  | _ => exact follows_refused

/-- A delay is over in the second when what it hears is admitted there (R213). -/
theorem slp_follows {d : Millis} {after : State → State} (hafter : ∀ {u v}, SameUntimed u v → SameUntimed (after u) (after v))
    (hadmit : t.hearsOnly (.slp d)) : Follows (slp d after s) (slp d after t) := by
  refine awaitResponse_follows h ha fun r dt' hr => ?_
  cases r with
  | elapsed dt =>
    have hle : d.toNat ≤ dt' := of_decide_eq_true (hadmit _ hr)
    simp only [Response.withTime, if_pos hle]
    split
    · exact follows_next (hafter (h.consume.emit (.slp d .elapsed) dt dt'))
    · exact follows_refused
  | fail dt => exact follows_next ((h.consume.emit (.slp d .fail) dt dt').raiseFatal .timingFailure)
  | _ => exact follows_refused

theorem slpDeclared_follows {d : Option Millis} {after : State → State}
    (hafter : ∀ {u v}, SameUntimed u v → SameUntimed (after u) (after v))
    (hadmit : ∀ op, d.map Operation.slp = some op → t.hearsOnly op) :
    Follows (slpDeclared d after s) (slpDeclared d after t) := by
  cases d with
  | none => exact follows_refused
  | some ms => exact slp_follows h ha hafter (hadmit _ rfl)

theorem startRun_follows (n : BitVec 4) : Follows (startRun n s) (startRun n t) := by
  unfold startRun
  rw [h.word_eq, ← h.cfg, ← ha.2.1]
  split
  · split
    · exact follows_refused
    · split
      · exact follows_next (h.consume.inPhase .done)
      · exact follows_next ⟨rfl, rfl, rfl, rfl, h.busOwned, h.cause, h.cfg, h.rom, h.events⟩
  · exact follows_next h.consume

/-- The phase's operation, with an answer admitted in the second. -/
theorem operate_follows (hadmit : t.arrivalAdmitted) : Follows s.operate t.operate := by
  have hears (op : Operation) (hop : t.outstanding = some op) : t.hearsOnly op := fun r hr => hadmit r op hr hop
  unfold State.operate
  rw [← h.phase]
  cases hphase : s.phase <;> simp only [State.outstanding, ← h.phase, hphase] at hears
  case idle => rw [h.word_eq]; exact startRun_follows h ha _
  case selecting => rw [h.famMux_eq]; exact sel_follows h ha _
  case acquiring => exact acq_follows h ha
  case configuring => rw [h.famSpi_eq]; exact configure_follows h ha _
  case framing => rw [h.frame_eq]; exact xfer_follows h ha _
  case releasing => rw [h.word_eq, h.delay_eq, ← h.i, ← h.j]; exact rel_follows h ha _ _
  case settling => rw [h.delay_eq] at hears ⊢; exact slpDeclared_follows h ha SameUntimed.nextStage hears
  case fsettling => rw [h.ifd_eq] at hears ⊢; exact slpDeclared_follows h ha SameUntimed.nextFamily hears
  case done => exact follows_next h.consume
  case fatal => exact follows_next h.consume

theorem step_follows (hadmit : t.arrivalAdmitted) : Follows (step s) (step t) := by
  have hreset : t.arrival.reset = s.arrival.reset := ha.1.symm
  have hwaits : t.waitsForStart = s.waitsForStart := by rw [State.waitsForStart, State.waitsForStart, h.phase, ha.2.1]
  rw [step_eq_cycle, step_eq_cycle, cycle, cycle, hreset, hwaits, h.place_eq, h.pp_eq, h.word_eq, ← h.cfg]
  split
  · exact follows_next h.consume.resetCore
  · split
    · exact follows_next h.consume
    · next p hplace =>
      split
      · exact follows_next h.consume
      · split
        · rintro s' hs'
          simp at hs'
        · split
          · exact follows_refused
          · next i hdec =>
            rw [exec_eq_operate hplace hdec,
              exec_eq_operate (h.place_eq.trans hplace) (by rw [h.pp_eq, h.word_eq]; exact hdec)]
            exact operate_follows h ha hadmit

end

end Sys2Proof.Machine
end

section
/-! The obligations on one step: what it runs, when it goes on, and what it does not depend on. -/

namespace Sys2Proof

open Machine

/-- Settles O36: the fetch and the decoding of `cycle`, and its wait in IDLE. -/
theorem stepRunsTheFetchedRecord : Obligations.StepRunsTheFetchedRecord := by
  unfold Obligations.StepRunsTheFetchedRecord
  exact ⟨fun s p i hreset hstart hplace hpp hdec => step_eq_exec hreset hstart hplace hpp hdec,
    fun s hreset hidle hstart => step_of_idle hreset hidle hstart⟩

/-- Settles O37: the refusals of a step are the fetch's and those of the phase's own operation. -/
theorem stepNeverAppliesARecordOutOfPlace : Obligations.StepNeverAppliesARecordOutOfPlace := by
  unfold Obligations.StepNeverAppliesARecordOutOfPlace
  intro s x hstep
  rcases step_refused hstep with ⟨r, rfl⟩ | hop
  · exact ⟨fun _ => by simp, fun _ => by simp⟩
  · rcases operate_refused hop with ⟨r, -, rfl⟩ | rfl | ⟨a, r, rfl⟩ <;> exact ⟨fun _ => by simp, fun _ => by simp⟩

/-- Settles O45: the invariant's position has its record in an accepted store, and its operation answers what it admits. -/
theorem admittedStepsAlwaysGoOn : Obligations.AdmittedStepsAlwaysGoOn := by
  unfold Obligations.AdmittedStepsAlwaysGoOn
  intro s hinv hacc hadmit
  exact step_answers hinv hacc hadmit

/-- Settles O56: both states run the same operation on the same look-ups, and only a delay's length meets a duration. -/
theorem untimedRunDependsOnNoTimeAndNoLine : Obligations.UntimedRunDependsOnNoTimeAndNoLine := by
  unfold Obligations.UntimedRunDependsOnNoTimeAndNoLine
  intro s t s' h ha hadmit hstep
  exact step_follows h ha hadmit s' hstep

end Sys2Proof
end

section
/-! The encoding of one record read backwards (30_encoding.md R102): an accepted word has no bit that its record
does not spell. -/

namespace Sys2Proof

variable {w v : Word}

/-- Two words with one field in common agree on its bits. -/
theorem bit_eq_of_slice_eq {lo len n : Nat} (h : slice w lo len = slice v lo len) (hlo : lo ≤ n) (hhi : n < lo + len) :
    w.getLsbD n = v.getLsbD n := by
  have hbit := congrArg (fun x : BitVec len => x.getLsbD (n - lo)) h
  simpa [slice, show n - lo < len by omega, show lo + (n - lo) = n by omega] using hbit

/-- A delay field with a disabled delay of 0 is spelled by the optional delay it decodes to (R99, R102). -/
theorem delayOf_isSome (en : Bool) (ms : Millis) : (delayOf en ms).isSome = en := by cases en <;> rfl

theorem delayOf_getD {en : Bool} {ms : Millis} (h : en = false → ms = 0) : (delayOf en ms).getD 0 = ms := by
  cases en with
  | false => exact (h rfl).symm
  | true => rfl

theorem encodeHdr_decoded (htag : tagOf w = 1) (hzero : hdrZero w = 0) (hdelay : hdrIfdEn w = false → hdrIfdMs w = 0) :
    encodeHdr (hdrNfam w) (hdrIfd w) = w := by
  have hms : hdrIfdMs (encodeHdr (hdrNfam w) (hdrIfd w)) = hdrIfdMs w := by
    rw [hdrIfdMs_encodeHdr]
    exact delayOf_getD hdelay
  have hen : hdrIfdEn (encodeHdr (hdrNfam w) (hdrIfd w)) = hdrIfdEn w := by
    rw [hdrIfdEn_encodeHdr]
    exact delayOf_isSome _ _
  refine BitVec.eq_of_getLsbD_eq fun n hn => ?_
  rcases (by omega : n < 16 ∨ (16 ≤ n ∧ n < 23) ∨ n = 23 ∨ (24 ≤ n ∧ n < 28) ∨ 28 ≤ n) with h | h | rfl | h | h
  · exact bit_eq_of_slice_eq hms (Nat.zero_le n) (by omega)
  · exact bit_eq_of_slice_eq ((hdrZero_encodeHdr _ _).trans hzero.symm) h.1 (by omega)
  · exact hen
  · exact bit_eq_of_slice_eq (hdrNfam_encodeHdr _ _) h.1 (by omega)
  · exact bit_eq_of_slice_eq ((tagOf_encodeHdr _ _).trans htag.symm) h (by omega)

theorem number_of_familyOfCode {c : BitVec 3} {f : DeviceFamily} (h : familyOfCode c = some f) : f.number = c := by
  revert c
  cases f <;> decide

theorem kindNumber_of_kindOfCode {c : BitVec 2} {kd : StageKind} (h : kindOfCode c = some kd) : kindNumber kd = c := by
  revert c
  cases kd <;> decide

theorem encodeFam_decoded {f : DeviceFamily} (htag : tagOf w = 2) (hzero16 : bitOf w 16 = false) (hzero4 : slice w 4 4 = 0)
    (hfid : familyOfCode (famFid w) = some f) :
    encodeFam f (famMux w) (famW4 w) (famLine w) (famSpi w) (famNstg w) = w := by
  have hspi := famSpi_encodeFam f (famMux w) (famW4 w) (famLine w) (famSpi w) (famNstg w)
  refine BitVec.eq_of_getLsbD_eq fun n hn => ?_
  rcases (by omega : n < 4 ∨ (4 ≤ n ∧ n < 8) ∨ (8 ≤ n ∧ n < 16) ∨ n = 16 ∨ n = 17 ∨ n = 18 ∨ n = 19 ∨ (20 ≤ n ∧ n < 22) ∨
    n = 22 ∨ (23 ≤ n ∧ n < 25) ∨ (25 ≤ n ∧ n < 28) ∨ 28 ≤ n) with
    h | h | h | rfl | rfl | rfl | rfl | h | rfl | h | h | h
  · exact bit_eq_of_slice_eq (famNstg_encodeFam _ _ _ _ _ _) (Nat.zero_le n) (by omega)
  · exact bit_eq_of_slice_eq ((famZero4_encodeFam _ _ _ _ _ _).trans hzero4.symm) h.1 (by omega)
  · exact bit_eq_of_slice_eq (congrArg SpiConfig.clk hspi) h.1 (by omega)
  · exact (famZero16_encodeFam _ _ _ _ _ _).trans hzero16.symm
  · exact congrArg SpiConfig.lsbf hspi
  · exact congrArg SpiConfig.cpha hspi
  · exact congrArg SpiConfig.cpol hspi
  · exact bit_eq_of_slice_eq (famLine_encodeFam _ _ _ _ _ _) h.1 (by omega)
  · exact famW4_encodeFam _ _ _ _ _ _
  · exact bit_eq_of_slice_eq (famMux_encodeFam _ _ _ _ _ _) h.1 (by omega)
  · exact bit_eq_of_slice_eq ((famFid_encodeFam _ _ _ _ _ _).trans (number_of_familyOfCode hfid)) h.1 (by omega)
  · exact bit_eq_of_slice_eq ((tagOf_encodeFam _ _ _ _ _ _).trans htag.symm) h (by omega)

theorem encodeStg_decoded (htag : tagOf w = 3) (hzero : bitOf w 24 = false) (hdelay : stgDlyEn w = false → stgDlyMs w = 0) :
    encodeStg (stgKind w) (stgNfrm w) (stgDelay w) = w := by
  have hms : stgDlyMs (encodeStg (stgKind w) (stgNfrm w) (stgDelay w)) = stgDlyMs w := by
    rw [stgDlyMs_encodeStg]
    exact delayOf_getD hdelay
  have hen : stgDlyEn (encodeStg (stgKind w) (stgNfrm w) (stgDelay w)) = stgDlyEn w := by
    rw [stgDlyEn_encodeStg]
    exact delayOf_isSome _ _
  refine BitVec.eq_of_getLsbD_eq fun n hn => ?_
  rcases (by omega : n < 16 ∨ (16 ≤ n ∧ n < 24) ∨ n = 24 ∨ n = 25 ∨ (26 ≤ n ∧ n < 28) ∨ 28 ≤ n) with
    h | h | rfl | rfl | h | h
  · exact bit_eq_of_slice_eq hms (Nat.zero_le n) (by omega)
  · exact bit_eq_of_slice_eq (stgNfrm_encodeStg _ _ _) h.1 (by omega)
  · exact (stgZero_encodeStg _ _ _).trans hzero.symm
  · exact hen
  · exact bit_eq_of_slice_eq (stgKind_encodeStg _ _ _) h.1 (by omega)
  · exact bit_eq_of_slice_eq ((tagOf_encodeStg _ _ _).trans htag.symm) h (by omega)

/-! ### Each decoder, read backwards -/

theorem encode_of_decodeHdr {i : Instr} (h : decodeHdr w = .ok i) : encode i = w := by
  obtain ⟨htag, hzero, hdelay, rfl⟩ := decodeHdr_ok h
  exact encodeHdr_decoded htag hzero hdelay

theorem encode_of_decodeFam {i : Instr} (h : decodeFam w = .ok i) : encode i = w := by
  obtain ⟨htag, hzero16, hzero4, f, hfid, rfl⟩ := decodeFam_ok h
  exact encodeFam_decoded htag hzero16 hzero4 hfid

theorem encode_of_decodeStg {i : Instr} (h : decodeStg w = .ok i) : encode i = w := by
  obtain ⟨htag, hzero, hdelay, kd, hkd, rfl⟩ := decodeStg_ok h
  rw [encode_stageRecord, kindNumber_of_kindOfCode hkd]
  exact encodeStg_decoded htag hzero hdelay

theorem encode_of_decodeFrm {w4 : Bool} {i : Instr} (h : decodeFrm w4 w = .ok i) : encode i = w := by
  rcases decodeFrm_ok h with ⟨-, rfl⟩ | ⟨-, hzero, rfl⟩
  · exact append_frameBytes w
  · have hbytes := append_frameBytes w
    rw [hzero] at hbytes
    exact hbytes

theorem place_stageRecord (kd : StageKind) (n : BitVec 8) (d : Option Millis) : (stageRecord kd n d).place = .stg := by
  cases kd <;> rfl

/-- An accepted word is the encoding of its record, in its place. -/
theorem place_and_encode_of_decodeAt {p : Place} {i : Instr} (h : decodeAt p w = .ok i) : i.place = p ∧ encode i = w := by
  cases p with
  | hdr =>
    refine ⟨?_, encode_of_decodeHdr h⟩
    obtain ⟨-, -, -, rfl⟩ := decodeHdr_ok h
    rfl
  | fam =>
    refine ⟨?_, encode_of_decodeFam h⟩
    obtain ⟨-, -, -, f, -, rfl⟩ := decodeFam_ok h
    rfl
  | stg =>
    refine ⟨?_, encode_of_decodeStg h⟩
    obtain ⟨-, -, -, kd, -, rfl⟩ := decodeStg_ok h
    exact place_stageRecord _ _ _
  | frm w4 =>
    refine ⟨?_, encode_of_decodeFrm h⟩
    rcases decodeFrm_ok h with ⟨rfl, rfl⟩ | ⟨rfl, -, rfl⟩ <;> rfl
  | endRec =>
    obtain ⟨rfl, rfl⟩ := decodeEnd_ok h
    exact ⟨rfl, rfl⟩

end Sys2Proof
end

section
/-! Lists of words in a store: what it is for a store to spell a list from an address on, and how a concatenation is spelled piece
by piece. -/

namespace Sys2Proof

variable {rd : Nat → Word} {a : Nat}

/-- The store has the words of the list at the addresses from `a` on. -/
def Spells (rd : Nat → Word) (a : Nat) : List Word → Prop
  | [] => True
  | w :: ws => rd a = w ∧ Spells rd (a + 1) ws

theorem spells_append {xs ys : List Word} : Spells rd a (xs ++ ys) ↔ Spells rd a xs ∧ Spells rd (a + xs.length) ys := by
  induction xs generalizing a with
  | nil => simp [Spells]
  | cons x xs ih =>
    rw [List.cons_append, Spells, Spells, ih, List.length_cons, and_assoc, show a + 1 + xs.length = a + (xs.length + 1) by omega]

theorem spells_iff {ws : List Word} : Spells rd a ws ↔ ∀ n (hn : n < ws.length), rd (a + n) = ws[n] := by
  induction ws generalizing a with
  | nil => simp [Spells]
  | cons w ws ih =>
    rw [Spells, ih]
    constructor
    · rintro ⟨hhead, htail⟩ n hn
      cases n with
      | zero => exact hhead
      | succ n =>
        have := htail n (by simpa using hn)
        rwa [show a + 1 + n = a + (n + 1) by omega] at this
    · intro h
      refine ⟨h 0 (by simp), fun n hn => ?_⟩
      have := h (n + 1) (by simpa using hn)
      rwa [show a + (n + 1) = a + 1 + n by omega] at this

/-- A list of blocks, the next block's address standing after each block that is spelled: the concatenation is spelled exactly
when each block is, and the last address stands after it. -/
theorem spells_flatMap {α : Type} {l : List α} {f : α → List Word} {addr : Nat → Nat}
    (hnext : ∀ i (hi : i < l.length), Spells rd (addr i) (f l[i]) → addr (i + 1) = addr i + (f l[i]).length) :
    (Spells rd (addr 0) (l.flatMap f) ↔ ∀ i (hi : i < l.length), Spells rd (addr i) (f l[i])) ∧
    (Spells rd (addr 0) (l.flatMap f) → addr l.length = addr 0 + (l.flatMap f).length) := by
  induction l generalizing addr with
  | nil => simp [Spells]
  | cons x l ih =>
    have hhead := hnext 0 (by simp)
    obtain ⟨ihiff, ihend⟩ := ih (addr := fun i => addr (i + 1)) fun i hi => hnext (i + 1) (by simpa using hi)
    simp only [List.getElem_cons_zero] at hhead
    rw [List.flatMap_cons, spells_append, List.length_append]
    constructor
    · constructor
      · rintro ⟨hx, hl⟩ i hi
        cases i with
        | zero => exact hx
        | succ i => exact (ihiff.1 (hhead hx ▸ hl)) i (by simpa using hi)
      · intro h
        have hx := h 0 (by simp)
        exact ⟨hx, hhead hx ▸ ihiff.2 fun i hi => h (i + 1) (by simpa using hi)⟩
    · rintro ⟨hx, hl⟩
      have hend := ihend (hhead hx ▸ hl)
      have hstep := hhead hx
      show addr (l.length + 1) = _
      omega

theorem spells_readList (ws : List Word) : Spells (readList ws) 0 ws := by
  refine spells_iff.2 fun n hn => ?_
  simp [readList, hn]

end Sys2Proof
end

section
/-! The store of a profile (30_encoding.md R102), read back record by record: the words of a family and of a stage give
the look-ups of R181 and the addresses of R104. -/

namespace Sys2Proof

variable {rd : Nat → Word}

theorem ofNat_toNat_of_lt {n m : Nat} (h : n < 2 ^ m) : (BitVec.ofNat m n).toNat = n := by
  rw [BitVec.toNat_ofNat, Nat.mod_eq_of_lt h]

/-- A list by index is the list. -/
theorem map_range_eq {α : Type} {l : List α} {n : Nat} {g : Nat → α} (hn : n = l.length)
    (hg : ∀ i (hi : i < l.length), g i = l[i]) : (List.range n).map g = l := by
  subst hn
  exact List.ext_getElem (by simp) fun i hi hi' => by simpa using hg i hi'

/-! ### Frames -/

/-- The word of a frame of the family's width is a legal frame word with the frame's bytes (R96, R97). -/
theorem frameWord_decodes {f : Frame} {width : Nat} (hwidth : width = 3 ∨ width = 4) (hf : f.length = width) :
    (∃ r, decodeFrm (width == 4) (frameWord f) = .ok r) ∧ frameBytes (width == 4) (frameWord f) = f := by
  rcases hwidth with rfl | rfl
  · obtain ⟨b0, b1, b2, rfl⟩ := List.length_eq_three.1 hf
    refine ⟨⟨_, decodeFrm_encode_frm3 b0 b1 b2⟩, ?_⟩
    have h0 := frameByte_zero_append b0 b1 b2 0
    have h1 := frameByte_one_append b0 b1 b2 0
    have h2 := frameByte_two_append b0 b1 b2 0
    exact congrArg₂ List.cons h0 (congrArg₂ List.cons h1 (congrArg₂ List.cons h2 rfl))
  · match f, hf with
    | [b0, b1, b2, b3], _ =>
      refine ⟨⟨_, decodeFrm_encode_frm4 b0 b1 b2 b3⟩, ?_⟩
      simp [frameBytes, frameWord, encode, frameByte_zero_append, frameByte_one_append, frameByte_two_append,
        frameByte_three_append]

/-! ### Stages -/

section
variable {a : Nat} {st : ProgramStage} (hcount : st.countsOk = true)
include hcount

theorem frames_length_lt : st.frames.length < 2 ^ 8 := by
  have := of_decide_eq_true hcount
  omega

/-- The address after a spelled stage is that after its words. -/
theorem afterStage_of_spells (h : Spells rd a (stageWords st)) : afterStage rd a = a + (stageWords st).length := by
  rw [afterStage, h.1, encode_stageRecord, stgNfrm_encodeStg, ofNat_toNat_of_lt (frames_length_lt hcount)]
  simp [stageWords]
  omega

end

/-- What a spelled stage reads as. -/
structure ReadsStage (rd : Nat → Word) (i j : Nat) (st : ProgramStage) : Prop where
  word  : storeStg rd i j = encode (stageRecord st.kind (BitVec.ofNat 8 st.frames.length) st.delay)
  nfrm  : storeNfrm rd i j = st.frames.length
  delay : storeDelay rd i j = st.delay
  kind  : kindOfCode (stgKind (storeStg rd i j)) = some st.kind
  frm   : ∀ k (hk : k < st.frames.length), rd (frmAddr rd i j k) = frameWord st.frames[k]

theorem readsStage_of_spells {i j : Nat} {st : ProgramStage} (hcount : st.countsOk = true)
    (h : Spells rd (stgAddr rd i j) (stageWords st)) : ReadsStage rd i j st := by
  obtain ⟨hword, hframes⟩ := h
  have hstg : storeStg rd i j = encodeStg (kindNumber st.kind) (BitVec.ofNat 8 st.frames.length) st.delay :=
    hword.trans (encode_stageRecord _ _ _)
  exact {
    word := hword
    nfrm := by rw [storeNfrm, hstg, stgNfrm_encodeStg, ofNat_toNat_of_lt (frames_length_lt hcount)]
    delay := by rw [storeDelay, hstg, stgDelay_encodeStg]
    kind := by rw [hstg, stgKind_encodeStg, kindOfCode_kindNumber]
    frm := fun k hk => (spells_iff.1 hframes k (by simpa using hk)).trans (List.getElem_map _) }

/-! ### Families -/

/-- What a spelled family reads as. -/
structure ReadsFamily (rd : Nat → Word) (i : Nat) (f : DeviceFamily) (e : FamilyEntry) : Prop where
  word   : storeFam rd i = encodeFam f e.mux (e.width == 4) e.line e.spi (BitVec.ofNat 4 e.stages.length)
  nstg   : storeNstg rd i = e.stages.length
  stages : ∀ j (hj : j < e.stages.length), ReadsStage rd i j e.stages[j]

theorem stage_countsOk {e : FamilyEntry} (h : e.countsOk = true) {j : Nat} (hj : j < e.stages.length) :
    e.stages[j].countsOk = true :=
  List.all_eq_true.1 (Bool.and_eq_true_iff.1 h).2 _ (List.getElem_mem hj)

theorem stages_length {e : FamilyEntry} (h : e.countsOk = true) : 1 ≤ e.stages.length ∧ e.stages.length ≤ 15 :=
  of_decide_eq_true (Bool.and_eq_true_iff.1 h).1

/-- A spelled family reads as itself, and the next family stands after its words (R104). -/
theorem readsFamily_of_spells {i : Nat} {f : DeviceFamily} {e : FamilyEntry} (hcount : e.countsOk = true)
    (h : Spells rd (famAddr rd i) (familyWords f e)) :
    ReadsFamily rd i f e ∧ famAddr rd (i + 1) = famAddr rd i + (familyWords f e).length := by
  obtain ⟨hword, hstages⟩ := h
  have hfam : storeFam rd i = encodeFam f e.mux (e.width == 4) e.line e.spi (BitVec.ofNat 4 e.stages.length) := hword
  have hnstg : storeNstg rd i = e.stages.length := by
    have := stages_length hcount
    rw [storeNstg, hfam, famNstg_encodeFam, ofNat_toNat_of_lt (by omega)]
  obtain ⟨heach, hend⟩ := spells_flatMap (rd := rd) (l := e.stages) (f := stageWords) (addr := stgAddr rd i)
    fun j hj hst => afterStage_of_spells (stage_countsOk hcount hj) hst
  refine ⟨⟨hfam, hnstg, fun j hj => readsStage_of_spells (stage_countsOk hcount hj) (heach.1 hstages j hj)⟩, ?_⟩
  have hnext := hend hstages
  rw [← hnstg, stgAddr_nstg, stgAddr_zero] at hnext
  rw [hnext, familyWords, List.length_cons]
  omega

/-! ### Profiles -/

theorem order_length_le {p : Profile} (h : p.orderOk = true) : p.order.length ≤ 5 := by
  have hnodup : (p.order.map Prod.fst).Nodup := of_decide_eq_true h
  have hsub : p.order.map Prod.fst ⊆ [.synthesizerA, .synthesizerB, .gainStageA, .gainStageB, .adc] := by
    intro f _
    cases f <;> simp
  simpa using (List.subperm_of_subset hnodup hsub).length_le

/-- What a store that spells a well-formed profile reads as. -/
structure ReadsProfile (rd : Nat → Word) (p : Profile) : Prop where
  hdr      : rd 0 = encodeHdr (BitVec.ofNat 4 p.order.length) p.ifd
  nord     : storeNord rd = p.order.length
  families : ∀ i (hi : i < p.order.length), ReadsFamily rd i p.order[i].1 p.order[i].2
  endWord  : rd (endAddr rd) = 0xF0000000
  length   : endAddr rd + 1 = (encodeProfile p).length

theorem readsProfile_of_spells {p : Profile} (horder : p.orderOk = true) (hcount : p.countsOk = true)
    (h : Spells rd 0 (encodeProfile p)) : ReadsProfile rd p := by
  obtain ⟨hhdr, hrest⟩ := h
  obtain ⟨hfamilies, hend, -⟩ := spells_append.1 hrest
  have hhdr' : rd 0 = encodeHdr (BitVec.ofNat 4 p.order.length) p.ifd := hhdr
  have hnord : storeNord rd = p.order.length := by
    have := order_length_le horder
    rw [storeNord, hhdr', hdrNfam_encodeHdr, ofNat_toNat_of_lt (by omega)]
  have hcountAt (i : Nat) (hi : i < p.order.length) : p.order[i].2.countsOk = true :=
    List.all_eq_true.1 hcount _ (List.getElem_mem hi)
  obtain ⟨heach, hlast⟩ := spells_flatMap (rd := rd) (l := p.order) (f := fun fe => familyWords fe.1 fe.2) (addr := famAddr rd)
    fun i hi hf => (readsFamily_of_spells (hcountAt i hi) hf).2
  have hendAddr : endAddr rd = 1 + (p.order.flatMap fun fe => familyWords fe.1 fe.2).length := by
    rw [endAddr, hnord]
    exact hlast hfamilies
  exact {
    hdr := hhdr'
    nord := hnord
    families := fun i hi => (readsFamily_of_spells (hcountAt i hi) (heach.1 hfamilies i hi)).1
    endWord := by rw [hendAddr]; exact hend
    length := by simp only [encodeProfile, List.length_append, List.length_cons, List.length_nil]; omega }

end Sys2Proof
end

section
/-! Well-formed profiles (42_program_table.md R186 to R189), each check in words. -/

namespace Sys2Proof

theorem Profile.wellFormed_iff {p : Profile} : p.wellFormed = true ↔
    p.orderOk = true ∧ p.widthOk = true ∧ p.countsOk = true ∧ p.kindPattern = true := by
  simp [Profile.wellFormed, and_assoc]

theorem FamilyEntry.widthOk_iff {e : FamilyEntry} : e.widthOk = true ↔
    (e.width = 3 ∨ e.width = 4) ∧ ∀ st ∈ e.stages, ∀ f ∈ st.frames, f.length = e.width := by
  simp [FamilyEntry.widthOk, List.all_eq_true]

theorem FamilyEntry.countsOk_iff {e : FamilyEntry} : e.countsOk = true ↔
    (1 ≤ e.stages.length ∧ e.stages.length ≤ 15) ∧ ∀ st ∈ e.stages, 1 ≤ st.frames.length ∧ st.frames.length ≤ 255 := by
  simp [FamilyEntry.countsOk, ProgramStage.countsOk, List.all_eq_true]

theorem FamilyEntry.kindsOk_iff {e : FamilyEntry} : e.kindsOk = true ↔
    ∀ j (hj : j < e.stages.length), e.stages[j].kind = expectedKind e.stages.length j := by
  rw [FamilyEntry.kindsOk, beq_iff_eq]
  constructor
  · intro h j hj
    have hat := congrArg (fun l => l[j]?) h
    simpa [hj] using hat
  · intro h
    exact List.ext_getElem (by simp) fun j hj _ => by simpa using h j (by simpa using hj)

end Sys2Proof
end

section
/-! Decoding the store of a profile (30_encoding.md R102): a store that spells a well-formed profile is accepted
and answers it. -/

namespace Sys2Proof

variable {rd : Nat → Word} {p : Profile} {f : DeviceFamily} {e : FamilyEntry} {i j k depth : Nat}

/-! ### Every record stands before END -/

theorem famAddr_succ_le_end (hi : i < storeNord rd) : famAddr rd (i + 1) ≤ endAddr rd := famAddr_le hi

theorem famAddr_lt_end (hi : i < storeNord rd) : famAddr rd i < endAddr rd :=
  (famAddr_lt_succ i).trans_le (famAddr_succ_le_end hi)

theorem stgAddr_lt_end (hi : i < storeNord rd) (hj : j < storeNstg rd i) : stgAddr rd i j < endAddr rd := by
  have h1 := stgAddr_end_le hj
  have h2 := famAddr_succ_le_end hi
  omega

theorem frmAddr_lt_end (hi : i < storeNord rd) (hj : j < storeNstg rd i) (hk : k < storeNfrm rd i j) :
    frmAddr rd i j k < endAddr rd := by
  have h1 := stgAddr_end_le hj
  have h2 := famAddr_succ_le_end hi
  unfold frmAddr
  omega

/-! ### Look-ups of a family -/

theorem ReadsFamily.famW4_eq (h : ReadsFamily rd i f e) : famW4 (storeFam rd i) = (e.width == 4) := by
  rw [h.word, famW4_encodeFam]

theorem ReadsFamily.frame (h : ReadsFamily rd i f e) (hwidth : e.widthOk = true) (hj : j < e.stages.length)
    (hk : k < e.stages[j].frames.length) :
    (∃ r, decodeFrm (famW4 (storeFam rd i)) (rd (frmAddr rd i j k)) = .ok r) ∧
      storeFrame rd i j k = e.stages[j].frames[k] := by
  obtain ⟨hw, hall⟩ := FamilyEntry.widthOk_iff.1 hwidth
  have hlen := hall _ (List.getElem_mem hj) _ (List.getElem_mem hk)
  rw [storeFrame, h.famW4_eq, (h.stages j hj).frm k hk]
  exact frameWord_decodes hw hlen

theorem ReadsFamily.stageOf_eq (h : ReadsFamily rd i f e) (hwidth : e.widthOk = true) (hj : j < e.stages.length) :
    stageOf rd i j = e.stages[j] := by
  have hst := h.stages j hj
  have hframes : (List.range (storeNfrm rd i j)).map (storeFrame rd i j) = e.stages[j].frames :=
    map_range_eq hst.nfrm fun k hk => (h.frame hwidth hj hk).2
  rw [stageOf, hst.kind, hframes, hst.delay]
  rfl

theorem ReadsFamily.entryOf_eq (h : ReadsFamily rd i f e) (hwidth : e.widthOk = true) : entryOf rd i = e := by
  have hstages : (List.range (storeNstg rd i)).map (stageOf rd i) = e.stages :=
    map_range_eq h.nstg fun j hj => h.stageOf_eq hwidth hj
  have hw : (if (e.width == 4) = true then 4 else 3) = e.width := by
    rcases (FamilyEntry.widthOk_iff.1 hwidth).1 with hw | hw <;> rw [hw] <;> rfl
  rw [entryOf, hstages, h.famW4_eq, hw, h.word, famMux_encodeFam, famLine_encodeFam, famSpi_encodeFam]

theorem ReadsFamily.familyOfCode_eq (h : ReadsFamily rd i f e) : familyOfCode (famFid (storeFam rd i)) = some f := by
  rw [h.word, famFid_encodeFam, familyOfCode_number]

/-! ### The profile back, and its acceptance -/

theorem ReadsProfile.profileOf_eq (h : ReadsProfile rd p) (hwidth : p.widthOk = true) : profileOf rd = p := by
  have hentry (i : Nat) (hi : i < p.order.length) : p.order[i].2.widthOk = true :=
    List.all_eq_true.1 hwidth _ (List.getElem_mem hi)
  have horder : ((List.range (storeNord rd)).map fun i =>
      ((familyOfCode (famFid (storeFam rd i))).getD .synthesizerA, entryOf rd i)) = p.order := by
    refine map_range_eq h.nord fun i hi => ?_
    rw [(h.families i hi).familyOfCode_eq, (h.families i hi).entryOf_eq (hentry i hi)]
    rfl
  rw [profileOf, horder, storeIfd, h.hdr, hdrIfd_encodeHdr]

/-- No family of the order is read twice (R100 check 7, R186). -/
theorem ReadsProfile.fid_ne (h : ReadsProfile rd p) (horder : p.orderOk = true) {x : Nat} (hi : i < p.order.length) (hx : x < i) :
    famFid (storeFam rd x) ≠ famFid (storeFam rd i) := by
  intro heq
  have hcode := congrArg familyOfCode heq
  rw [(h.families x (hx.trans hi)).familyOfCode_eq, (h.families i hi).familyOfCode_eq, Option.some.injEq] at hcode
  have hnodup : (p.order.map Prod.fst).Nodup := of_decide_eq_true horder
  have hxi := (hnodup.getElem_inj_iff (i := x) (hi := by simpa using hx.trans hi) (j := i) (hj := by simpa using hi)).1
    (by simpa using hcode)
  omega

theorem ReadsProfile.accepted (h : ReadsProfile rd p) (hwf : p.wellFormed = true) (hfits : (encodeProfile p).length ≤ depth) :
    Accepted rd depth := by
  obtain ⟨horder, hwidth, hcounts, hkinds⟩ := Profile.wellFormed_iff.1 hwf
  have hwidthAt (i : Nat) (hi : i < p.order.length) : p.order[i].2.widthOk = true :=
    List.all_eq_true.1 hwidth _ (List.getElem_mem hi)
  have hcountsAt (i : Nat) (hi : i < p.order.length) :=
    FamilyEntry.countsOk_iff.1 (List.all_eq_true.1 hcounts _ (List.getElem_mem hi))
  have hkindsAt (i : Nat) (hi : i < p.order.length) :=
    FamilyEntry.kindsOk_iff.1 (List.all_eq_true.1 hkinds _ (List.getElem_mem hi))
  have hend : endAddr rd < depth := by
    have := h.length
    omega
  have family (i : Nat) (hi : i < storeNord rd) : ∃ hi' : i < p.order.length, ReadsFamily rd i p.order[i].1 p.order[i].2 :=
    ⟨h.nord ▸ hi, h.families i (h.nord ▸ hi)⟩
  exact {
    hdr := ⟨_, by rw [h.hdr]; exact decodeHdr_encodeHdr _ _⟩
    nord := h.nord ▸ order_length_le horder
    fam := fun i hi => by
      obtain ⟨hi', hf⟩ := family i hi
      exact ⟨_, by rw [hf.word]; exact decodeFam_encodeFam _ _ _ _ _ _⟩
    fid := fun i hi x hx => h.fid_ne horder (h.nord ▸ hi) hx
    nstg := fun i hi => by
      obtain ⟨hi', hf⟩ := family i hi
      exact hf.nstg ▸ (hcountsAt i hi').1.1
    stg := fun i hi j hj => by
      obtain ⟨hi', hf⟩ := family i hi
      exact ⟨_, by rw [(hf.stages j (hf.nstg ▸ hj)).word]; exact decodeAt_encode_stageRecord _ _ _⟩
    nfrm := fun i hi j hj => by
      obtain ⟨hi', hf⟩ := family i hi
      rw [(hf.stages j (hf.nstg ▸ hj)).nfrm]
      exact ((hcountsAt i hi').2 _ (List.getElem_mem _)).1
    kinds := fun i hi j hj => by
      obtain ⟨hi', hf⟩ := family i hi
      have hj' := hf.nstg ▸ hj
      rw [(hf.stages j hj').kind, hkindsAt i hi' j hj', hf.nstg]
    frm := fun i hi j hj k hk => by
      obtain ⟨hi', hf⟩ := family i hi
      have hj' := hf.nstg ▸ hj
      exact (hf.frame (hwidthAt i hi') hj' ((hf.stages j hj').nfrm ▸ hk)).1
    endRec := h.endWord
    hdrIn := by omega
    famIn := fun i hi => (famAddr_lt_end hi).trans hend
    stgIn := fun i hi j hj => (stgAddr_lt_end hi hj).trans hend
    frmIn := fun i hi j hj k hk => (frmAddr_lt_end hi hj hk).trans hend
    endIn := hend }

/-- A store that begins with the words of a well-formed profile, deep enough for them, decodes to the profile, whatever stands
after END. -/
theorem decodeStore_of_spells (hwf : p.wellFormed = true) (hspells : Spells rd 0 (encodeProfile p))
    (hfits : (encodeProfile p).length ≤ depth) : decodeStore rd depth = .ok p := by
  obtain ⟨horder, hwidth, hcounts, -⟩ := Profile.wellFormed_iff.1 hwf
  have hreads := readsProfile_of_spells horder hcounts hspells
  rw [decodeStore, storeCheck_none.2 (hreads.accepted hwf hfits), hreads.profileOf_eq hwidth]

end Sys2Proof
end

section
/-! An accepted store read as a profile (30_encoding.md R99, R100): the profile is well-formed, and its words are the store's. -/

namespace Sys2Proof

variable {rd : Nat → Word} {p : Profile} {i j k depth : Nat}

theorem decodeStore_ok_iff : decodeStore rd depth = .ok p ↔ Accepted rd depth ∧ profileOf rd = p := by
  rw [decodeStore, ← storeCheck_none]
  split <;> simp_all

/-! ### Well-formed -/

theorem frameBytes_length (w4 : Bool) (w : Word) : (frameBytes w4 w).length = if w4 then 4 else 3 := by
  cases w4 <;> rfl

/-- On any store the frames read have the width read (R187). -/
theorem entryOf_widthOk (rd : Nat → Word) (i : Nat) : (entryOf rd i).widthOk = true := by
  refine FamilyEntry.widthOk_iff.2 ⟨?_, fun st hst f hf => ?_⟩
  · show (if famW4 (storeFam rd i) then 4 else 3) = 3 ∨ (if famW4 (storeFam rd i) then 4 else 3) = 4
    split <;> simp
  · obtain ⟨j, -, rfl⟩ := List.mem_map.1 hst
    obtain ⟨k, -, rfl⟩ := List.mem_map.1 hf
    exact frameBytes_length _ _

@[simp] theorem entryOf_stages_length (rd : Nat → Word) (i : Nat) : (entryOf rd i).stages.length = storeNstg rd i := by
  simp [entryOf]

@[simp] theorem stageOf_frames_length (rd : Nat → Word) (i j : Nat) : (stageOf rd i j).frames.length = storeNfrm rd i j := by
  simp [stageOf]

@[simp] theorem entryOf_stages_getElem (rd : Nat → Word) (i j : Nat) (hj : j < (entryOf rd i).stages.length) :
    (entryOf rd i).stages[j] = stageOf rd i j := by
  simp [entryOf]

/-- The bytes of a legal frame word are spelled by that word (R144). -/
theorem frameWord_frameBytes {w4 : Bool} {w : Word} {r : Instr} (h : decodeFrm w4 w = .ok r) :
    frameWord (frameBytes w4 w) = w := by
  rcases decodeFrm_ok h with ⟨rfl, rfl⟩ | ⟨rfl, -, rfl⟩ <;> exact encode_of_decodeFrm h

namespace Accepted

theorem exists_family (h : Accepted rd depth) (hi : i < storeNord rd) :
    ∃ f, familyOfCode (famFid (storeFam rd i)) = some f := by
  obtain ⟨r, hr⟩ := h.fam i hi
  obtain ⟨-, -, -, f, hf, -⟩ := decodeFam_ok hr
  exact ⟨f, hf⟩

theorem entryOf_countsOk (h : Accepted rd depth) (hi : i < storeNord rd) : (entryOf rd i).countsOk = true := by
  refine FamilyEntry.countsOk_iff.2 ⟨?_, fun st hst => ?_⟩
  · have hpos := h.nstg i hi
    have hlt : storeNstg rd i < 16 := (famNstg (storeFam rd i)).isLt
    rw [entryOf_stages_length]
    omega
  · obtain ⟨j, hj, rfl⟩ := List.mem_map.1 hst
    have hpos := h.nfrm i hi j (List.mem_range.1 hj)
    have hlt : storeNfrm rd i j < 256 := (stgNfrm (storeStg rd i j)).isLt
    rw [stageOf_frames_length]
    omega

theorem entryOf_kindsOk (h : Accepted rd depth) (hi : i < storeNord rd) : (entryOf rd i).kindsOk = true := by
  refine FamilyEntry.kindsOk_iff.2 fun j hj => ?_
  rw [entryOf_stages_length] at hj
  rw [entryOf_stages_getElem, entryOf_stages_length, stageOf, h.kinds i hi j hj]
  rfl

theorem profileOf_orderOk (h : Accepted rd depth) : (profileOf rd).orderOk = true := by
  refine decide_eq_true ?_
  rw [profileOf, List.map_map, List.Nodup, List.pairwise_map]
  refine List.pairwise_lt_range.imp_of_mem fun {x i} _ hi hlt heq => ?_
  have hi' := List.mem_range.1 hi
  obtain ⟨f, hf⟩ := h.exists_family hi'
  obtain ⟨g, hg⟩ := h.exists_family (hlt.trans hi')
  have hfg : g = f := by simpa [hf, hg] using heq
  refine h.fid i hi' x hlt ?_
  rw [← number_of_familyOfCode hf, ← number_of_familyOfCode hg, hfg]

/-- What holds of every entry read holds of every entry of the profile. -/
theorem all_entries {q : FamilyEntry → Bool} (h : ∀ i < storeNord rd, q (entryOf rd i) = true) :
    ((profileOf rd).order.all fun fe => q fe.2) = true := by
  refine List.all_eq_true.2 fun fe hfe => ?_
  obtain ⟨i, hi, rfl⟩ := List.mem_map.1 hfe
  exact h i (List.mem_range.1 hi)

theorem profileOf_wellFormed (h : Accepted rd depth) : (profileOf rd).wellFormed = true :=
  Profile.wellFormed_iff.2 ⟨h.profileOf_orderOk, all_entries fun i _ => entryOf_widthOk rd i,
    all_entries fun _ hi => h.entryOf_countsOk hi, all_entries fun _ hi => h.entryOf_kindsOk hi⟩

/-! ### Spelled by the store -/

theorem spells_stage (h : Accepted rd depth) (hi : i < storeNord rd) (hj : j < storeNstg rd i) :
    Spells rd (stgAddr rd i j) (stageWords (stageOf rd i j)) := by
  constructor
  · obtain ⟨r, hr⟩ := h.stg i hi j hj
    obtain ⟨-, -, -, kd, hkd, rfl⟩ := decodeStg_ok hr
    have hn : BitVec.ofNat 8 (storeNfrm rd i j) = stgNfrm (storeStg rd i j) := by simp [storeNfrm]
    have hk : (stageOf rd i j).kind = kd := by rw [stageOf, hkd]; rfl
    rw [hk, stageOf_frames_length, hn]
    exact (encode_of_decodeStg hr).symm
  · refine spells_iff.2 fun k hk => ?_
    rw [List.length_map, stageOf_frames_length] at hk
    obtain ⟨r, hr⟩ := h.frm i hi j hj k hk
    have hword : frameWord (storeFrame rd i j k) = rd (stgAddr rd i j + 1 + k) := frameWord_frameBytes hr
    simp [stageOf, hword]

theorem spells_family (h : Accepted rd depth) (hi : i < storeNord rd) :
    Spells rd (famAddr rd i) (familyWords ((familyOfCode (famFid (storeFam rd i))).getD .synthesizerA) (entryOf rd i)) := by
  constructor
  · obtain ⟨r, hr⟩ := h.fam i hi
    obtain ⟨-, -, -, f, hf, rfl⟩ := decodeFam_ok hr
    have hn : BitVec.ofNat 4 (storeNstg rd i) = famNstg (storeFam rd i) := by simp [storeNstg]
    have hw : ((entryOf rd i).width == 4) = famW4 (storeFam rd i) := by
      rw [entryOf]
      cases famW4 (storeFam rd i) <;> rfl
    rw [hf, hw, entryOf_stages_length, hn]
    exact (encode_of_decodeFam hr).symm
  · refine (spells_flatMap (addr := stgAddr rd i) fun j hj hst => ?_).1.2 fun j hj => ?_
    · exact afterStage_of_spells (stage_countsOk (h.entryOf_countsOk hi) hj) hst
    · rw [entryOf_stages_getElem]
      exact h.spells_stage hi (by simpa using hj)

theorem spells_profile (h : Accepted rd depth) : Spells rd 0 (encodeProfile (profileOf rd)) := by
  have hlen : (profileOf rd).order.length = storeNord rd := by simp [profileOf]
  have hfamily (i : Nat) (hi : i < (profileOf rd).order.length) :
      Spells rd (famAddr rd i) (familyWords (profileOf rd).order[i].1 (profileOf rd).order[i].2) := by
    simpa [profileOf] using h.spells_family (hlen ▸ hi)
  obtain ⟨heach, hlast⟩ := spells_flatMap (rd := rd) (l := (profileOf rd).order) (f := fun fe => familyWords fe.1 fe.2)
    (addr := famAddr rd) fun i hi hf => by
      refine (readsFamily_of_spells ?_ hf).2
      simpa [profileOf] using h.entryOf_countsOk (hlen ▸ hi)
  have hfamilies := heach.2 hfamily
  have hend := hlast hfamilies
  rw [hlen] at hend
  refine spells_append.2 ⟨⟨?_, hfamilies⟩, ?_, trivial⟩
  · obtain ⟨r, hr⟩ := h.hdr
    have hword := encode_of_decodeHdr hr
    obtain ⟨-, -, -, rfl⟩ := decodeHdr_ok hr
    have hn : BitVec.ofNat 4 (storeNord rd) = hdrNfam (rd 0) := by simp [storeNord]
    rw [hlen, hn]
    exact hword.symm
  · have hword := h.endRec
    rw [endAddr, hend] at hword
    rw [List.length_cons, Nat.zero_add, Nat.add_comm]
    exact hword

end Accepted

end Sys2Proof
end

section
/-! Addresses as sums of sizes (30_encoding.md R104). -/

namespace Sys2Proof

open Machine

variable {rd : Nat → Word}

theorem stgAddr_eq_sum (i j : Nat) :
    stgAddr rd i j = famAddr rd i + 1 + ((List.range j).map fun y => 1 + storeNfrm rd i y).sum := by
  induction j with
  | zero => rfl
  | succ j ih =>
    rw [stgAddr_succ, ih, List.range_succ, List.map_append, List.sum_append]
    simp
    omega

theorem famAddr_eq_sum (i : Nat) : famAddr rd i = 1 + ((List.range i).map (familySize rd)).sum := by
  induction i with
  | zero => rfl
  | succ i ih =>
    rw [← stgAddr_nstg, stgAddr_eq_sum, ih, List.range_succ, List.map_append, List.sum_append]
    simp [familySize]
    omega

end Sys2Proof
end

section
/-! The obligations of 30_encoding.md on words and stores. -/

namespace Sys2Proof

/-- Settles O2: the record's word and the word agree in every field, and the fields cover the word. -/
theorem decodedWordIsTheEncoding : Obligations.DecodedWordIsTheEncoding := by
  unfold Obligations.DecodedWordIsTheEncoding
  intro p w i h
  exact place_and_encode_of_decodeAt h

/-- Settles O3: eight fixed words, decoded. -/
theorem wordsOfTheSpecDecodeAsWritten : Obligations.WordsOfTheSpecDecodeAsWritten := by
  unfold Obligations.WordsOfTheSpecDecodeAsWritten
  decide

/-- Settles O4: the store of the profile's words spells them, so it reads as the profile and meets every check. -/
theorem encodedProfileIsDecodedBack : Obligations.EncodedProfileIsDecodedBack := by
  unfold Obligations.EncodedProfileIsDecodedBack
  intro p depth hwf hfits
  exact decodeStore_of_spells hwf (spells_readList _) hfits

/-- Settles O5: an accepted store spells the words of the profile it reads as, END the last of them. -/
theorem acceptedStoreIsTheEncodingOfItsProfile : Obligations.AcceptedStoreIsTheEncodingOfItsProfile := by
  unfold Obligations.AcceptedStoreIsTheEncodingOfItsProfile
  intro rd depth p h
  obtain ⟨hacc, rfl⟩ := decodeStore_ok_iff.1 h
  obtain ⟨horder, -, hcounts, -⟩ := Profile.wellFormed_iff.1 hacc.profileOf_wellFormed
  have hspells := hacc.spells_profile
  have hlen := (readsProfile_of_spells horder hcounts hspells).length
  refine ⟨hlen.symm, fun a ha => ?_⟩
  have hlt : a < (encodeProfile (profileOf rd)).length := by omega
  have hword := spells_iff.1 hspells a hlt
  rw [Nat.zero_add] at hword
  simp [readList, hlt, hword]

/-- Settles O6: the checks of R100, record by record, are those of R186 to R189. -/
theorem acceptedStoreSpellsAWellFormedProfile : Obligations.AcceptedStoreSpellsAWellFormedProfile := by
  unfold Obligations.AcceptedStoreSpellsAWellFormedProfile
  intro rd depth p h
  obtain ⟨hacc, rfl⟩ := decodeStore_ok_iff.1 h
  exact hacc.profileOf_wellFormed

/-- Settles O7, by induction on the number of families and of stages before. -/
theorem recordAddressesAreSumsOfSizes : Obligations.RecordAddressesAreSumsOfSizes := by
  unfold Obligations.RecordAddressesAreSumsOfSizes
  exact fun rd => ⟨famAddr_eq_sum, stgAddr_eq_sum, fun _ _ _ => rfl, rfl⟩

/-- Settles O8: the other store spells the same profile's words, and a store that does decodes to it. -/
theorem wordsAfterEndPlayNoPart : Obligations.WordsAfterEndPlayNoPart := by
  unfold Obligations.WordsAfterEndPlayNoPart
  intro rd rd' depth h hagree
  have hacc := storeCheck_none.1 h
  have hdec : decodeStore rd depth = .ok (profileOf rd) := decodeStore_ok_iff.2 ⟨hacc, rfl⟩
  obtain ⟨hlen, -⟩ := acceptedStoreIsTheEncodingOfItsProfile rd depth _ hdec
  have hspells : Spells rd' 0 (encodeProfile (profileOf rd)) := by
    refine spells_iff.2 fun n hn => ?_
    rw [hagree _ (by omega)]
    exact spells_iff.1 hacc.spells_profile n hn
  have hend := hacc.endIn
  rw [hdec]
  exact decodeStore_of_spells hacc.profileOf_wellFormed hspells (by omega)

end Sys2Proof
end

section
/-! Each operation on each response its rule lists, as an equation (40_selector.md, 41_sequencer.md section 2, 43_delay_gate.md
section 2), and each record in its phases. -/

namespace Sys2Proof.Machine

variable {s : State} {dt : Nat} {d : Millis} {i : Instr}

theorem awaitResponse_of_some {r : Response} {k : Response → Result} (h : s.arrival.resp = some r) :
    awaitResponse s k = k r := by rw [awaitResponse, h]

theorem awaitResponse_of_none {k : Response → Result} (h : s.arrival.resp = none) : awaitResponse s k = .next s.waited := by
  rw [awaitResponse, h]
  rfl

theorem sel_ok {code : MuxCode} (h : s.arrival.resp = some (.ok dt)) :
    sel code s = .next { s.heard (.sel code .ok) dt with mux := code, j := 0, k := 0, phase := .acquiring } :=
  awaitResponse_of_some h

theorem sel_rejected {code : MuxCode} (h : s.arrival.resp = some (.rejected dt)) :
    sel code s = if s.cfg.selectorCanFail then
        .next (raiseFatal .selectorFailure (s.heard (.sel code .rejected) dt).loseMux)
      else .refused (.responseNotAdmitted s.phase (.rejected dt)) :=
  awaitResponse_of_some h

theorem acq_granted (h : s.arrival.resp = some (.granted dt)) :
    acq s = .next { s.heard .acq dt with busOwned := true, phase := .configuring } :=
  awaitResponse_of_some h

theorem configure_ok {spi : SpiConfig} (h : s.arrival.resp = some (.ok dt)) :
    configure spi s = .next { s.heard (.cfg spi) dt with phase := .framing } :=
  awaitResponse_of_some h

theorem xfer_ok {bytes : Frame} (h : s.arrival.resp = some (.ok dt)) :
    xfer bytes s = .next (afterFrame (s.heard (.xfer s.famLine bytes .ok) dt)) :=
  awaitResponse_of_some h

theorem xfer_fail {bytes : Frame} (h : s.arrival.resp = some (.fail dt)) :
    xfer bytes s = .next (raiseFatal .transportFailure (releaseOnAbort (s.heard (.xfer s.famLine bytes .fail) dt))) :=
  awaitResponse_of_some h

theorem rel_ok {n : BitVec 8} {dl : Option Millis} (h : s.arrival.resp = some (.ok dt)) :
    rel n dl s = .next (afterRelease n dl { s.heard .rel dt with busOwned := false }) :=
  awaitResponse_of_some h

section
variable {after : State → State}

theorem slp_elapsed (h : s.arrival.resp = some (.elapsed dt)) (hle : d.toNat ≤ dt) :
    slp d after s = .next (after (s.heard (.slp d .elapsed) dt)) :=
  (awaitResponse_of_some h).trans (if_pos hle)

theorem slp_early (h : s.arrival.resp = some (.elapsed dt)) (hlt : dt < d.toNat) :
    slp d after s = .refused (.responseNotAdmitted s.phase (.elapsed dt)) :=
  (awaitResponse_of_some h).trans (if_neg (by omega))

theorem slp_fail (h : s.arrival.resp = some (.fail dt)) :
    slp d after s = .next { s.heard (.slp d .fail) dt with cause := .timingFailure, phase := .fatal } :=
  awaitResponse_of_some h

end

theorem releaseOnAbort_of_false (h : s.cfg.releaseOnAbort = false) : releaseOnAbort s = s := if_neg (by simp [h])

theorem releaseOnAbort_of_true (h : s.cfg.releaseOnAbort = true) :
    releaseOnAbort s = { s.emit .rel 0 with busOwned := false } := if_pos h

/-! ### Moves of the position, as the rules write them -/

/-- R147 to R149 in one. -/
theorem nextStage_eq (s : State) : nextStage s =
    if s.j.toNat + 1 < storeNstg s.word s.i.toNat then { s with j := s.j + 1, k := 0, phase := .acquiring }
    else if storeNord s.word ≤ s.i.toNat + 1 then { s with phase := .done }
    else if storeIfd s.word ≠ none then { s with phase := .fsettling }
    else { s with i := s.i + 1, j := 0, k := 0, phase := .selecting } := by
  have hnstg : storeNstg s.word s.i.toNat = s.nstg := rfl
  have hnord : storeNord s.word = s.nord := rfl
  have hifd : storeIfd s.word = s.ifd := rfl
  rw [hnstg, hnord, hifd]
  rcases nextStage_cases s with ⟨h1, heq⟩ | ⟨h1, h2, heq⟩ | ⟨h1, h2, h3, heq⟩ | ⟨h1, h2, h3, heq⟩ <;> rw [heq]
  · rw [if_pos h1]
  · rw [if_neg (by omega), if_pos h2]
  · rw [if_neg (by omega), if_neg (by omega), if_pos (Option.isSome_iff_ne_none.1 h3)]
  · rw [if_neg (by omega), if_neg (by omega), if_neg (by simp [h3])]

/-! ### Records in their phases -/

/-- The stage records of the three kinds, with these operands. -/
def IsStageRecord (i : Instr) (n : BitVec 8) (dl : Option Millis) : Prop :=
  i = .stgSingle n dl ∨ i = .stgProv n dl ∨ i = .stgFinal n dl

theorem exec_stage {n : BitVec 8} {dl : Option Millis} (h : IsStageRecord i n dl) : exec i s = runStage n dl s := by
  rcases h with rfl | rfl | rfl <;> rfl

section
variable {n : BitVec 8} {dl : Option Millis} (h : IsStageRecord i n dl)
include h

theorem exec_stage_acquiring (hp : s.phase = .acquiring) : exec i s = acq s := by rw [exec_stage h, runStage, hp]
theorem exec_stage_configuring (hp : s.phase = .configuring) : exec i s = configure s.famSpi s := by
  rw [exec_stage h, runStage, hp]
theorem exec_stage_releasing (hp : s.phase = .releasing) : exec i s = rel n dl s := by rw [exec_stage h, runStage, hp]

end

theorem exec_stage_settling {n : BitVec 8} (h : IsStageRecord i n (some d)) (hp : s.phase = .settling) :
    exec i s = slp d nextStage s := by
  rw [exec_stage h, runStage, hp]
  rfl

theorem exec_hdr_idle {n : BitVec 4} {dl : Option Millis} (hp : s.phase = .idle) : exec (.hdr n dl) s = startRun n s := by
  rw [exec, execHdr, hp]

theorem exec_hdr_fsettling {n : BitVec 4} (hp : s.phase = .fsettling) : exec (.hdr n (some d)) s = slp d nextFamily s := by
  rw [exec, execHdr, hp]
  rfl

theorem exec_fam_selecting {f : DeviceFamily} {m : MuxCode} {w4 : Bool} {l : BitVec 2} {sp : SpiConfig} {n : BitVec 4}
    (hp : s.phase = .selecting) : exec (.fam f m w4 l sp n) s = sel m s := inPhase_eq hp

theorem exec_frm3_framing {b0 b1 b2 : Byte} (hp : s.phase = .framing) : exec (.frm3 b0 b1 b2) s = xfer [b0, b1, b2] s :=
  inPhase_eq hp

theorem exec_frm4_framing {b0 b1 b2 b3 : Byte} (hp : s.phase = .framing) :
    exec (.frm4 b0 b1 b2 b3) s = xfer [b0, b1, b2, b3] s := inPhase_eq hp

/-- A frame record of either width, with its bytes. -/
theorem exec_frame_framing {b0 b1 b2 b3 : Byte} {bytes : Frame} (hp : s.phase = .framing)
    (hi : (i = .frm3 b0 b1 b2 ∧ bytes = [b0, b1, b2]) ∨ (i = .frm4 b0 b1 b2 b3 ∧ bytes = [b0, b1, b2, b3])) :
    exec i s = xfer bytes s := by
  rcases hi with ⟨rfl, rfl⟩ | ⟨rfl, rfl⟩
  · exact exec_frm3_framing hp
  · exact exec_frm4_framing hp

/-! ### What a place says of its record -/

theorem fam_of_place (h : i.place = .fam) : ∃ f m w4 l sp n, i = .fam f m w4 l sp n := by
  cases i with
  | fam f m w4 l sp n => exact ⟨f, m, w4, l, sp, n, rfl⟩
  | _ => simp [Instr.place] at h

theorem isStageRecord_of_place (h : i.place = .stg) : ∃ n dl, IsStageRecord i n dl := by
  cases i with
  | stgSingle n dl => exact ⟨n, dl, .inl rfl⟩
  | stgProv n dl => exact ⟨n, dl, .inr (.inl rfl)⟩
  | stgFinal n dl => exact ⟨n, dl, .inr (.inr rfl)⟩
  | _ => simp [Instr.place] at h

theorem exec_frame_of_place (hp : s.phase = .framing) (h : i.place = .frm false ∨ i.place = .frm true) :
    ∃ bytes, exec i s = xfer bytes s := by
  cases i with
  | frm3 b0 b1 b2 => exact ⟨_, exec_frm3_framing hp⟩
  | frm4 b0 b1 b2 b3 => exact ⟨_, exec_frm4_framing hp⟩
  | _ => simp [Instr.place] at h

/-- SLP of either record, in its settle phase. -/
theorem exec_settle
    (h : (s.phase = .settling ∧ ∃ n, IsStageRecord i n (some d)) ∨ (s.phase = .fsettling ∧ ∃ n, i = .hdr n (some d))) :
    ∃ after, exec i s = slp d after s := by
  rcases h with ⟨hp, n, hi⟩ | ⟨hp, n, rfl⟩
  · exact ⟨_, exec_stage_settling hi hp⟩
  · exact ⟨_, exec_hdr_fsettling hp⟩

/-! ### START -/

theorem startRun_of_no_start {n : BitVec 4} (h : s.arrival.start = false) : startRun n s = .next s.waited := by
  rw [startRun, if_neg (by simp [h])]
  rfl

theorem startRun_of_refused {n : BitVec 4} {a : Nat} {r : RefuseReason} (h : s.arrival.start = true)
    (hcheck : storeCheck s.word s.cfg.romWords = some (a, r)) : startRun n s = .refused (.storeRefused a r) := by
  rw [startRun, if_pos h, hcheck]

theorem startRun_of_accepted {n : BitVec 4} (h : s.arrival.start = true) (hacc : s.storeAccepted) :
    startRun n s = .next (if n = 0 then { s.waited with phase := .done }
      else { s.waited with i := 0, j := 0, k := 0, phase := .selecting }) := by
  rw [startRun, if_pos h, show storeCheck s.word s.cfg.romWords = none from hacc]
  simp only []
  split <;> rfl

/-! ### `start` outside IDLE -/

/-- Outside IDLE no record reads `start` (R140). -/
theorem exec_start_irrelevant {c : CoreState} {p : Parameters} {a : Arrival} {rest : List Arrival} (hp : c.phase ≠ .idle)
    (i : Instr) :
    exec i { toCoreState := c, toParameters := p, arrivals := a :: rest } =
      exec i { toCoreState := c, toParameters := p, arrivals := { a with start := false } :: rest } := by
  have hstage (n : BitVec 8) (dl : Option Millis) :
      runStage n dl { toCoreState := c, toParameters := p, arrivals := a :: rest } =
        runStage n dl { toCoreState := c, toParameters := p, arrivals := { a with start := false } :: rest } := by
    unfold runStage
    cases hc : c.phase <;> rfl
  cases i with
  | hdr n dl =>
    simp only [exec, execHdr]
    cases hc : c.phase
    case idle => exact absurd hc hp
    all_goals rfl
  | stgSingle n dl => exact hstage n dl
  | stgProv n dl => exact hstage n dl
  | stgFinal n dl => exact hstage n dl
  | _ => rfl

/-- The step sees of a state its reset and start inputs, its fetch, and what its record does. -/
theorem step_congr {s t : State} (hreset : s.arrival.reset = t.arrival.reset) (hwait : s.waitsForStart = t.waitsForStart)
    (hplace : s.place = t.place) (hpp : s.pp = t.pp) (hword : s.word = t.word) (hcfg : s.cfg = t.cfg)
    (hconsume : s.consume = t.consume) (hexec : ∀ i, exec i s = exec i t) : step s = step t := by
  simp only [step_eq_cycle, cycle, hreset, hwait, hplace, hpp, hword, hcfg, hconsume, hexec]

theorem step_start_irrelevant {a : Arrival} {rest : List Arrival} (hp : s.phase ≠ .idle) (ha : s.arrivals = a :: rest) :
    step s = step { s with arrivals := { a with start := false } :: rest } := by
  obtain ⟨c, p, arr⟩ := s
  obtain rfl : arr = a :: rest := ha
  have hwait (b : Arrival) : State.waitsForStart { toCoreState := c, toParameters := p, arrivals := b :: rest } = false :=
    waitsForStart_eq_false fun hidle => absurd hidle hp
  exact step_congr rfl ((hwait _).trans (hwait _).symm) rfl rfl rfl rfl rfl (exec_start_irrelevant hp)

end Sys2Proof.Machine
end

section
/-! The obligations on what one record does, and on reset and start. -/

namespace Sys2Proof

open Machine

/-- Settles O9: `CoreState.reset`, field by field. -/
theorem resetStateIsIdleAtTheFirstPosition : Obligations.ResetStateIsIdleAtTheFirstPosition := by
  unfold Obligations.ResetStateIsIdleAtTheFirstPosition
  exact ⟨fun p => ⟨rfl, rfl, rfl, rfl, rfl, rfl, rfl, rfl, rfl, rfl⟩, _, rfl⟩

/-- Settles O10: reset is the first thing a step looks at. -/
theorem resetWinsOverEverything : Obligations.ResetWinsOverEverything := by
  unfold Obligations.ResetWinsOverEverything
  intro s hreset
  exact ⟨_, step_of_reset hreset, rfl, rfl, rfl, rfl, rfl, rfl, rfl, rfl, rfl, rfl, rfl⟩

/-- Settles O12, by START on an accepted store. -/
theorem hdrStartsTheRun : Obligations.HdrStartsTheRun := by
  unfold Obligations.HdrStartsTheRun
  intro n d s hidle hstart hacc
  rw [exec_hdr_idle hidle, startRun_of_accepted hstart hacc]

/-- Settles O13, by START without its input. -/
theorem hdrWaitsForStart : Obligations.HdrWaitsForStart := by
  unfold Obligations.HdrWaitsForStart
  intro n d s hidle hstart
  rw [exec_hdr_idle hidle, startRun_of_no_start hstart]

/-- Settles O14, by START on a refused store. -/
theorem refusedStoreHasNoRun : Obligations.RefusedStoreHasNoRun := by
  unfold Obligations.RefusedStoreHasNoRun
  intro n d s a r hidle hstart hcheck
  rw [exec_hdr_idle hidle, startRun_of_refused hstart hcheck]

/-- Settles O15: outside IDLE neither the fetch nor a record reads `start`. -/
theorem startIsIgnoredOutsideIdle : Obligations.StartIsIgnoredOutsideIdle := by
  unfold Obligations.StartIsIgnoredOutsideIdle
  intro s a rest hphase harrivals
  exact step_start_irrelevant hphase harrivals

/-- Settles O16, by SEL on `ok`. -/
theorem famWritesBothLines : Obligations.FamWritesBothLines := by
  unfold Obligations.FamWritesBothLines
  intro f m w4 l sp n s dt hphase hresp
  rw [exec_fam_selecting hphase, sel_ok hresp]

/-- Settles O17, by SEL on `rejected`. -/
theorem rejectedSelIsFatal : Obligations.RejectedSelIsFatal := by
  unfold Obligations.RejectedSelIsFatal
  intro f m w4 l sp n s dt hphase hresp
  rw [exec_fam_selecting hphase, sel_rejected hresp]
  constructor
  · intro hcan
    rw [if_pos hcan]
    exact ⟨_, rfl, rfl, rfl, rfl, rfl, rfl, rfl, rfl, rfl, rfl, rfl, rfl⟩
  · intro hcannot
    rw [if_neg (by simp [hcannot]), hphase]

/-- Settles O19, by ACQ on `granted`. -/
theorem stageAcquiresTheBus : Obligations.StageAcquiresTheBus := by
  unfold Obligations.StageAcquiresTheBus
  intro i n d s dt hi hphase hresp
  rw [exec_stage_acquiring hi hphase, acq_granted hresp]

/-- Settles O20, by CFG on `ok`. -/
theorem stageConfiguresTheBus : Obligations.StageConfiguresTheBus := by
  unfold Obligations.StageConfiguresTheBus
  intro i n d s dt hi hphase hresp
  rw [exec_stage_configuring hi hphase, configure_ok hresp]
  rfl

/-- Settles O21, by REL on `ok` and the moves of R145 to R149. -/
theorem stageReleasesTheBusAndMovesOn : Obligations.StageReleasesTheBusAndMovesOn := by
  unfold Obligations.StageReleasesTheBusAndMovesOn
  intro i n d s dt hi hphase hresp
  rw [exec_stage_releasing hi hphase, rel_ok hresp]
  congr 1
  unfold afterRelease
  refine if_congr Iff.rfl rfl ?_
  cases d with
  | none =>
    rw [if_neg (by simp)]
    exact nextStage_eq _
  | some ms =>
    rw [if_pos (by simp)]
    rfl

/-- Settles O22, by SLP on `elapsed` and the moves of R147 to R149. -/
theorem stageServesItsDelayAndMovesOn : Obligations.StageServesItsDelayAndMovesOn := by
  unfold Obligations.StageServesItsDelayAndMovesOn
  intro i n ms s dt hi hphase hresp hle
  rw [exec_stage_settling hi hphase, slp_elapsed hresp hle]
  exact congrArg _ (nextStage_eq _)

/-- Settles O23, by SLP on `elapsed`. -/
theorem hdrServesTheInterFamilyDelay : Obligations.HdrServesTheInterFamilyDelay := by
  unfold Obligations.HdrServesTheInterFamilyDelay
  intro n ms s dt hphase hresp hle
  rw [exec_hdr_fsettling hphase, slp_elapsed hresp hle]
  rfl

/-- Settles O24, by SLP on `fail`. -/
theorem failedDelayIsFatal : Obligations.FailedDelayIsFatal := by
  unfold Obligations.FailedDelayIsFatal
  intro i ms s dt hresp hphase
  obtain ⟨after, hexec⟩ := exec_settle hphase
  rw [hexec, slp_fail hresp]

/-- Settles O25, by SLP on `elapsed` too early. -/
theorem earlyElapsedIsNotAdmitted : Obligations.EarlyElapsedIsNotAdmitted := by
  unfold Obligations.EarlyElapsedIsNotAdmitted
  intro i ms s dt hresp hlt hphase
  obtain ⟨after, hexec⟩ := exec_settle hphase
  rw [hexec, slp_early hresp hlt]

/-- Settles O26, by XFER on `ok`. -/
theorem frameIsSentAsOneTransaction : Obligations.FrameIsSentAsOneTransaction := by
  unfold Obligations.FrameIsSentAsOneTransaction
  intro i b0 b1 b2 b3 bytes s dt hi hphase hresp
  rw [exec_frame_framing hphase hi, xfer_ok hresp]
  rfl

/-- Settles O27, by XFER on `fail` with the two settings of RELEASE_ON_ABORT. -/
theorem failedTransferIsFatal : Obligations.FailedTransferIsFatal := by
  unfold Obligations.FailedTransferIsFatal
  intro i b0 b1 b2 b3 bytes s dt hi hphase hresp
  rw [exec_frame_framing hphase hi, xfer_fail hresp]
  have hline : s.famLine = famLine (storeFam s.word s.i.toNat) := rfl
  rw [← hline]
  refine ⟨_, rfl, rfl, rfl, releaseOnAbort_i _, releaseOnAbort_j _, releaseOnAbort_k _, releaseOnAbort_mux _,
    releaseOnAbort_cfg _, releaseOnAbort_rom _, fun hkeep => ?_, fun hrelease => ?_⟩
  · rw [raiseFatal_busOwned, raiseFatal_trace, releaseOnAbort_of_false (s := s.heard _ dt) hkeep]
    exact ⟨rfl, rfl⟩
  · rw [events_congr (raiseFatal_trace _ _), releaseOnAbort_of_true (s := s.heard _ dt) hrelease]
    exact ⟨rfl, by simp [State.events, State.heard]⟩

/-- Settles O28, by END in its phase. -/
theorem endHoldsEverything : Obligations.EndHoldsEverything := by
  unfold Obligations.EndHoldsEverything
  intro s hphase
  exact inPhase_eq hphase

/-- Settles O29: one meaning for the three kinds. -/
theorem stageKindPlaysNoPart : Obligations.StageKindPlaysNoPart := by
  unfold Obligations.StageKindPlaysNoPart
  exact fun n d s => ⟨rfl, rfl⟩

/-- Settles O30: each operation waits for its response. -/
theorem recordWaitsForItsResponse : Obligations.RecordWaitsForItsResponse := by
  unfold Obligations.RecordWaitsForItsResponse
  rintro i s hresp (⟨hphase, hi⟩ | ⟨hphase, hi⟩ | ⟨hphase, hi⟩ | ⟨hphase, n, ms, hi⟩ | ⟨hphase, n, ms, hi⟩)
  · obtain ⟨f, m, w4, l, sp, n, rfl⟩ := fam_of_place hi
    exact (exec_fam_selecting hphase).trans (awaitResponse_of_none hresp)
  · obtain ⟨n, dl, hi⟩ := isStageRecord_of_place hi
    rcases hphase with hphase | hphase | hphase
    · exact (exec_stage_acquiring hi hphase).trans (awaitResponse_of_none hresp)
    · exact (exec_stage_configuring hi hphase).trans (awaitResponse_of_none hresp)
    · exact (exec_stage_releasing hi hphase).trans (awaitResponse_of_none hresp)
  · obtain ⟨bytes, hexec⟩ := exec_frame_of_place hphase hi
    exact hexec.trans (awaitResponse_of_none hresp)
  · exact (exec_stage_settling hi hphase).trans (awaitResponse_of_none hresp)
  · subst hi
    exact (exec_hdr_fsettling hphase).trans (awaitResponse_of_none hresp)

/-- Settles O42: the fields of a concatenation. -/
theorem statusShowsTheState : Obligations.StatusShowsTheState := by
  unfold Obligations.StatusShowsTheState
  intro s
  refine ⟨?_, ?_, ?_, ?_, ?_, ?_, ?_, ?_⟩ <;>
    simp (disch := omega) only [slice, bitOf, State.status, extract_low, extract_high, bit_low, bit_high]
  all_goals simp

end Sys2Proof
end

section
/-! Frames (10_state.md R27 to R29, 20_memory.md R61): what each operation and each record leaves unchanged. -/

namespace Sys2Proof.Machine

variable {s t : State}

theorem relay_eq_next {r : Result} (h : relay s r = .next t) :
    t.toParameters = s.toParameters ∧ t.arrivals = s.arrivals.tail := by
  cases r with
  | next u =>
    obtain rfl : _ = t := by simpa [relay] using h
    exact ⟨rfl, rfl⟩
  | fault f => simp [relay] at h
  | refused x => simp [relay] at h

/-- No record touches the parameters; each uses up one arrival. -/
theorem exec_keeps {i : Instr} (h : exec i s = .next t) : t.toParameters = s.toParameters ∧ t.arrivals = s.arrivals.tail :=
  relay_eq_next ((exec_relay i s).trans h)

/-- From `s` to `t` no line is written and no free value drawn, the trace only grows, and outside FATAL no cause is raised. -/
structure KeepsLines (s t : State) : Prop where
  mux   : t.mux = s.mux
  draws : t.draws = s.draws
  trace : s.trace <+: t.trace
  cause : t.phase ≠ .fatal → t.cause = s.cause

theorem keepsLines_consume (s : State) : KeepsLines s s.consume := ⟨rfl, rfl, List.prefix_rfl, fun _ => rfl⟩

/-- An operation that is heard out adds its event and leaves the rest to what follows. -/
theorem keepsLines_of_emit {e : Event} {dt : Nat} (hmux : t.mux = s.mux) (hdraws : t.draws = s.draws)
    (htrace : t.trace = (s.consume.emit e dt).trace) (hcause : t.phase ≠ .fatal → t.cause = s.cause) : KeepsLines s t :=
  ⟨hmux, hdraws, htrace ▸ List.prefix_append _ _, hcause⟩

theorem acq_keepsLines (h : acq s = .next t) : KeepsLines s t := by
  rcases acq_next h with ⟨-, rfl⟩ | ⟨dt, -, rfl⟩
  · exact keepsLines_consume s
  · exact keepsLines_of_emit (e := .acq) (dt := dt) rfl rfl rfl fun _ => rfl

theorem configure_keepsLines {spi : SpiConfig} (h : configure spi s = .next t) : KeepsLines s t := by
  rcases configure_next h with ⟨-, rfl⟩ | ⟨dt, -, rfl⟩
  · exact keepsLines_consume s
  · exact keepsLines_of_emit (e := .cfg spi) (dt := dt) rfl rfl rfl fun _ => rfl

theorem rel_keepsLines {n : BitVec 8} {d : Option Millis} (h : rel n d s = .next t) : KeepsLines s t := by
  rcases rel_next h with ⟨-, rfl⟩ | ⟨dt, -, rfl⟩
  · exact keepsLines_consume s
  · exact keepsLines_of_emit (e := .rel) (dt := dt) (afterRelease_mux _ _ _) (afterRelease_draws _ _ _)
      (afterRelease_trace _ _ _) fun _ => afterRelease_cause _ _ _

theorem xfer_keepsLines {bytes : Frame} (h : xfer bytes s = .next t) : KeepsLines s t := by
  rcases xfer_next h with ⟨-, rfl⟩ | ⟨dt, -, rfl⟩ | ⟨dt, -, rfl⟩
  · exact keepsLines_consume s
  · exact keepsLines_of_emit (e := .xfer s.famLine bytes .ok) (dt := dt) (afterFrame_mux _) (afterFrame_draws _)
      (afterFrame_trace _) fun _ => afterFrame_cause _
  · refine ⟨releaseOnAbort_mux _, releaseOnAbort_draws _, ?_, fun hlive => absurd rfl hlive⟩
    rw [raiseFatal_trace, releaseOnAbort_trace, emit_trace, List.append_assoc]
    exact List.prefix_append _ _

/-- SLP leaves the bus too, when what follows it does. -/
theorem slp_keepsLines {d : Millis} {after : State → State} (hmux : ∀ u, (after u).mux = u.mux)
    (hdraws : ∀ u, (after u).draws = u.draws) (htrace : ∀ u, (after u).trace = u.trace)
    (hcause : ∀ u, (after u).cause = u.cause) (hbus : ∀ u, (after u).busOwned = u.busOwned)
    (h : slp d after s = .next t) : KeepsLines s t ∧ t.busOwned = s.busOwned := by
  rcases slp_next h with ⟨-, rfl⟩ | ⟨dt, -, -, rfl⟩ | ⟨dt, -, rfl⟩
  · exact ⟨keepsLines_consume s, rfl⟩
  · exact ⟨keepsLines_of_emit (e := .slp d .elapsed) (dt := dt) (hmux _) (hdraws _) (htrace _) fun _ => hcause _, hbus _⟩
  · exact ⟨keepsLines_of_emit (e := .slp d .fail) (dt := dt) rfl rfl rfl fun hlive => absurd rfl hlive, rfl⟩

theorem startRun_keepsLines {n : BitVec 4} (h : startRun n s = .next t) : KeepsLines s t ∧ t.busOwned = s.busOwned := by
  rcases startRun_next h with ⟨-, rfl⟩ | ⟨-, -, ⟨-, rfl⟩ | ⟨-, rfl⟩⟩
  · exact ⟨keepsLines_consume s, rfl⟩
  · exact ⟨⟨rfl, rfl, List.prefix_rfl, fun _ => rfl⟩, rfl⟩
  · exact ⟨⟨rfl, rfl, List.prefix_rfl, fun _ => rfl⟩, rfl⟩

theorem execHdr_keepsLines {n : BitVec 4} {d : Option Millis} (h : execHdr n d s = .next t) :
    KeepsLines s t ∧ t.busOwned = s.busOwned := by
  rcases execHdr_next h with ⟨-, h⟩ | ⟨-, ms, -, h⟩
  · exact startRun_keepsLines h
  · exact slp_keepsLines nextFamily_mux nextFamily_draws nextFamily_trace nextFamily_cause nextFamily_busOwned h

theorem runStage_keepsLines {n : BitVec 8} {d : Option Millis} (h : runStage n d s = .next t) : KeepsLines s t := by
  rcases runStage_next h with ⟨-, h⟩ | ⟨-, h⟩ | ⟨-, h⟩ | ⟨-, ms, -, h⟩
  · exact acq_keepsLines h
  · exact configure_keepsLines h
  · exact rel_keepsLines h
  · exact (slp_keepsLines nextStage_mux nextStage_draws nextStage_trace nextStage_cause nextStage_busOwned h).1

/-- CFG and SLP leave the bus (R28). -/
theorem runStage_keepsBus {n : BitVec 8} {d : Option Millis} (hp : s.phase = .configuring ∨ s.phase = .settling)
    (h : runStage n d s = .next t) : t.busOwned = s.busOwned := by
  rcases runStage_next h with ⟨hp', h⟩ | ⟨-, h⟩ | ⟨hp', h⟩ | ⟨-, ms, -, h⟩
  · simp [hp'] at hp
  · rcases configure_next h with ⟨-, rfl⟩ | ⟨dt, -, rfl⟩ <;> rfl
  · simp [hp'] at hp
  · exact (slp_keepsLines nextStage_mux nextStage_draws nextStage_trace nextStage_cause nextStage_busOwned h).2

/-- ACQ and CFG leave the position (R142, R143). -/
theorem runStage_keepsPosition {n : BitVec 8} {d : Option Millis} (hp : s.phase = .acquiring ∨ s.phase = .configuring)
    (h : runStage n d s = .next t) : t.i = s.i ∧ t.j = s.j ∧ t.k = s.k := by
  rcases runStage_next h with ⟨-, h⟩ | ⟨-, h⟩ | ⟨hp', -⟩ | ⟨hp', -⟩
  · rcases acq_next h with ⟨-, rfl⟩ | ⟨dt, -, rfl⟩ <;> exact ⟨rfl, rfl, rfl⟩
  · rcases configure_next h with ⟨-, rfl⟩ | ⟨dt, -, rfl⟩ <;> exact ⟨rfl, rfl, rfl⟩
  · simp [hp'] at hp
  · simp [hp'] at hp

/-- XFER leaves the family and stage index, and the bus but on an abort (R144, R236). -/
theorem xfer_keepsStage {bytes : Frame} (h : xfer bytes s = .next t) :
    t.i = s.i ∧ t.j = s.j ∧ (t.phase ≠ .fatal → t.busOwned = s.busOwned) := by
  rcases xfer_next h with ⟨-, rfl⟩ | ⟨dt, -, rfl⟩ | ⟨dt, -, rfl⟩
  · exact ⟨rfl, rfl, fun _ => rfl⟩
  · exact ⟨afterFrame_i _, afterFrame_j _, fun _ => afterFrame_busOwned _⟩
  · exact ⟨releaseOnAbort_i _, releaseOnAbort_j _, fun hlive => absurd rfl hlive⟩

theorem exec_frame_next {i : Instr} {b0 b1 b2 b3 : Byte} (hi : i = .frm3 b0 b1 b2 ∨ i = .frm4 b0 b1 b2 b3)
    (h : exec i s = .next t) : ∃ bytes, xfer bytes s = .next t := by
  rcases hi with rfl | rfl <;> exact ⟨_, (inPhase_next h).2⟩

end Sys2Proof.Machine
end

section
/-! The obligations on frames. -/

namespace Sys2Proof

open Machine

/-- Settles O18: a move outside SELECTING leaves the lines. -/
theorem linesChangeOnlyBySelOrReset : Obligations.LinesChangeOnlyBySelOrReset := by
  unfold Obligations.LinesChangeOnlyBySelOrReset
  intro s t hstep hchange
  rcases step_reset_or_moves hstep with ⟨hreset, -⟩ | ⟨-, hmove⟩
  · exact .inl hreset
  · by_contra hnot
    exact hchange (hmove.mux_eq fun hphase => hnot (.inr hphase))

/-- Settles O31: a record's outcome is put back into the bundle it came from. -/
theorem noRecordWritesStoreOrParameters : Obligations.NoRecordWritesStoreOrParameters := by
  unfold Obligations.NoRecordWritesStoreOrParameters
  intro i s t h
  obtain ⟨hparam, harr⟩ := exec_keeps h
  have hrom : t.rom = s.rom := congrArg Parameters.rom hparam
  exact ⟨fun a => by rw [hrom], hrom, congrArg Parameters.cfg hparam, harr⟩

/-- Settles O32: HDR is START or SLP. -/
theorem hdrLeavesLinesAndBus : Obligations.HdrLeavesLinesAndBus := by
  unfold Obligations.HdrLeavesLinesAndBus
  intro n d s t h
  obtain ⟨hkeep, hbus⟩ := execHdr_keepsLines h
  exact ⟨hkeep.mux, hbus, hkeep.draws, hkeep.trace, hkeep.cause⟩

/-- Settles O33: FAM is SEL. -/
theorem famLeavesFamilyIndexAndBus : Obligations.FamLeavesFamilyIndexAndBus := by
  unfold Obligations.FamLeavesFamilyIndexAndBus
  intro f m w4 l sp n s t h
  obtain ⟨hphase, h⟩ := inPhase_next h
  rcases sel_next h with ⟨-, rfl⟩ | ⟨dt, -, rfl⟩ | ⟨dt, -, -, rfl⟩
  · exact ⟨rfl, rfl, List.prefix_rfl, fun _ => rfl, fun _ => ⟨rfl, rfl⟩, fun _ => rfl⟩
  · exact ⟨rfl, rfl, List.prefix_append _ _, fun _ => rfl, fun hnot => absurd rfl hnot, fun hsel => by simp at hsel⟩
  · exact ⟨rfl, rfl, List.prefix_append _ _, fun hlive => absurd rfl hlive, fun _ => ⟨rfl, rfl⟩, fun hsel => by simp at hsel⟩

/-- Settles O34: a stage record is ACQ, CFG, REL or SLP. -/
theorem stageLeavesLines : Obligations.StageLeavesLines := by
  unfold Obligations.StageLeavesLines
  intro i n d s t hi h
  rw [exec_stage hi] at h
  have hkeep := runStage_keepsLines h
  exact ⟨hkeep.mux, hkeep.draws, hkeep.trace, hkeep.cause, fun hp => runStage_keepsBus hp h,
    fun hp => runStage_keepsPosition hp h⟩

/-- Settles O35: a frame record is XFER. -/
theorem frameLeavesLinesAndStage : Obligations.FrameLeavesLinesAndStage := by
  unfold Obligations.FrameLeavesLinesAndStage
  intro i b0 b1 b2 b3 s t hi h
  obtain ⟨bytes, h⟩ := exec_frame_next hi h
  have hkeep := xfer_keepsLines h
  obtain ⟨hti, htj, hbus⟩ := xfer_keepsStage h
  exact ⟨hkeep.mux, hti, htj, hkeep.draws, hkeep.trace, fun hlive => ⟨hkeep.cause hlive, hbus hlive⟩⟩

end Sys2Proof
end

section
/-! What a move records, what it does when nothing arrives, and where it leaves the position. -/

namespace Sys2Proof.Machine

variable {s t : State} {r : Response}

/-- Nothing moves while no response comes, and in IDLE no `start` (R286). -/
theorem Moves.eq_consume_of_silent (h : Moves s t) (hresp : s.arrival.resp = none)
    (hstart : s.phase = .idle → s.arrival.start = false) : t = s.consume := by
  cases h with
  | waits _ _ eq => exact eq
  | startsEmpty phase start => simp [hstart phase] at start
  | starts phase start => simp [hstart phase] at start
  | _ => simp_all -- the other moves hear a response

/-! ### The record of the outstanding operation (R33, R34, R75) -/

/-- From `s` to `t` the trace has one more event, that of the operation outstanding in `s`, at the time of the response `r`; or,
with RELEASE_ON_ABORT, a failed transfer and a `Rel` after it. -/
def Records (s t : State) (r : Response) : Prop :=
  ∃ e, s.outstanding = some e.operation ∧
    ((t.trace = s.trace ++ [{ event := e, time := s.now + r.dt }] ∧ t.now = s.now + r.dt) ∨
      (e.operation.failure s.cfg = [e, .rel] ∧ t.events = s.events ++ [e, .rel] ∧ s.now + r.dt ≤ t.now))

theorem records_of_emit (e : Event) {r' : Response} (hr' : s.arrival.resp = some r') (hr : s.arrival.resp = some r)
    (hop : s.outstanding = some e.operation) (htrace : t.trace = (s.consume.emit e r'.dt).trace)
    (hnow : t.now = s.now + r'.dt) : Records s t r := by
  obtain rfl : r' = r := Option.some.inj (hr'.symm.trans hr)
  exact ⟨e, hop, .inl ⟨htrace, hnow⟩⟩

/-- A failed transfer, with either setting of RELEASE_ON_ABORT (R236). -/
theorem records_of_abort {line : BitVec 2} {bytes : Frame} {dt : Nat} (hr' : s.arrival.resp = some (.fail dt))
    (hr : s.arrival.resp = some r) (hop : s.outstanding = some (.xfer line bytes))
    (ht : t = raiseFatal .transportFailure (releaseOnAbort (s.consume.emit (.xfer line bytes .fail) dt))) : Records s t r := by
  obtain rfl : .fail dt = r := Option.some.inj (hr'.symm.trans hr)
  refine ⟨.xfer line bytes .fail, hop, ?_⟩
  subst ht
  cases hrel : s.cfg.releaseOnAbort with
  | false =>
    rw [releaseOnAbort_of_false (s := s.consume.emit _ dt) hrel]
    exact .inl ⟨rfl, rfl⟩
  | true =>
    refine .inr ⟨by simp [Event.operation, Operation.failure, hrel], ?_, by simp [Response.dt]⟩
    rw [events_congr (raiseFatal_trace _ _), events_releaseOnAbort, events_emit, List.append_assoc]
    simp [hrel, State.events]

theorem Moves.records (h : Moves s t) (hrun : s.phase.running = true) (hr : s.arrival.resp = some r) : Records s t r := by
  cases h with
  | waits phase _ _ =>
    have hsilent := phase (ne_of_running hrun rfl) (ne_of_running hrun rfl) (ne_of_running hrun rfl)
    simp [hsilent] at hr
  | startsEmpty phase => simp [phase, Phase.running] at hrun
  | starts phase => simp [phase, Phase.running] at hrun
  | selects dt phase resp eq =>
    exact eq ▸ records_of_emit (.sel s.famMux .ok) resp hr (by rw [State.outstanding, phase]; rfl) rfl rfl
  | rejected dt phase resp _ eq =>
    exact eq ▸ records_of_emit (.sel s.famMux .rejected) resp hr (by rw [State.outstanding, phase]; rfl) rfl rfl
  | acquires dt phase resp eq =>
    exact eq ▸ records_of_emit .acq resp hr (by rw [State.outstanding, phase]; rfl) rfl rfl
  | configures dt phase resp eq =>
    exact eq ▸ records_of_emit (.cfg s.famSpi) resp hr (by rw [State.outstanding, phase]; rfl) rfl rfl
  | sends dt phase resp eq =>
    exact eq ▸ records_of_emit (.xfer s.famLine s.frame .ok) resp hr (by rw [State.outstanding, phase]; rfl)
      (afterFrame_trace _) (afterFrame_now _)
  | aborts dt phase resp eq => exact records_of_abort resp hr (by rw [State.outstanding, phase]) eq
  | releases dt n phase resp _ eq =>
    exact eq ▸ records_of_emit .rel resp hr (by rw [State.outstanding, phase]; rfl)
      (afterRelease_trace _ _ _) (afterRelease_now _ _ _)
  | settles dt d phase resp delay _ eq =>
    exact eq ▸ records_of_emit (.slp d .elapsed) resp hr (by rw [State.outstanding, phase, delay]; rfl)
      (nextStage_trace _) (nextStage_now _)
  | settleFails dt d phase resp delay eq =>
    exact eq ▸ records_of_emit (.slp d .fail) resp hr (by rw [State.outstanding, phase, delay]; rfl) rfl rfl
  | fsettles dt d phase resp ifd _ eq =>
    exact eq ▸ records_of_emit (.slp d .elapsed) resp hr (by rw [State.outstanding, phase, ifd]; rfl) rfl rfl
  | fsettleFails dt d phase resp ifd eq =>
    exact eq ▸ records_of_emit (.slp d .fail) resp hr (by rw [State.outstanding, phase, ifd]; rfl) rfl rfl

/-! ### The position (R21, R154) -/

theorem posLe_of_eq (hi : t.i = s.i) (hj : t.j = s.j) (hk : t.k = s.k) : s.posLe t :=
  .inr ⟨hi.symm, .inr ⟨hj.symm, by rw [hk]⟩⟩

theorem posLe_of_frame (hi : t.i = s.i) (hj : t.j = s.j) (hk : s.k.toNat + 1 < s.nfrm) (ht : t.k = s.k + 1) : s.posLe t := by
  have hsucc := toNat_succ hk nfrm_lt.le
  exact .inr ⟨hi.symm, .inr ⟨hj.symm, by rw [ht]; omega⟩⟩

theorem posLe_of_family (hnext : s.i.toNat + 1 < s.nord) (hnord : s.nord ≤ 5) (ht : t.i = s.i + 1) : s.posLe t := by
  have hsucc := family_succ hnext hnord
  exact .inl (by rw [ht]; omega)

theorem nextStage_posLe (hnord : s.nord ≤ 5) : s.posLe (nextStage s) := by
  rcases nextStage_cases s with ⟨hnext, heq⟩ | ⟨-, -, heq⟩ | ⟨-, -, -, heq⟩ | ⟨-, hnext, -, heq⟩ <;> rw [heq]
  · have hsucc := toNat_succ hnext nstg_lt.le
    refine .inr ⟨rfl, .inl ?_⟩
    show s.j.toNat < (s.j + 1).toNat
    omega
  · exact posLe_of_eq rfl rfl rfl
  · exact posLe_of_eq rfl rfl rfl
  · exact posLe_of_family hnext hnord rfl

theorem afterFrame_posLe (s : State) : s.posLe (afterFrame s) := by
  rcases afterFrame_cases s with ⟨-, hnext, heq⟩ | ⟨-, heq⟩ <;> rw [heq]
  · exact posLe_of_frame rfl rfl hnext rfl
  · exact posLe_of_eq rfl rfl rfl

theorem afterRelease_posLe {n : BitVec 8} {d : Option Millis} (hn : n.toNat = s.nfrm) (hnord : s.nord ≤ 5) :
    s.posLe (afterRelease n d s) := by
  rcases afterRelease_cases n d s hn with ⟨-, hnext, heq⟩ | ⟨-, ⟨-, heq⟩ | ⟨-, heq⟩⟩ <;> rw [heq]
  · exact posLe_of_frame rfl rfl hnext rfl
  · exact posLe_of_eq rfl rfl rfl
  · exact nextStage_posLe hnord

theorem Moves.posLe (h : Moves s t) (hinv : s.Inv) : s.posLe t := by
  cases h with
  | waits _ _ eq => exact eq ▸ posLe_of_eq rfl rfl rfl
  | startsEmpty _ _ _ _ eq => exact eq ▸ posLe_of_eq rfl rfl rfl
  | starts phase _ _ _ eq =>
    obtain ⟨hi, hj, hk⟩ := hinv.progress_of_idle phase
    exact eq ▸ posLe_of_eq hi.symm hj.symm hk.symm
  | selects dt phase _ eq =>
    obtain ⟨hj, hk⟩ := hinv.progress_of_selecting phase
    exact eq ▸ posLe_of_eq rfl hj.symm hk.symm
  | rejected dt _ _ _ eq => exact eq ▸ posLe_of_eq rfl rfl rfl
  | acquires dt _ _ eq => exact eq ▸ posLe_of_eq rfl rfl rfl
  | configures dt _ _ eq => exact eq ▸ posLe_of_eq rfl rfl rfl
  | sends dt _ _ eq => exact eq ▸ afterFrame_posLe (s.consume.emit _ dt)
  | aborts dt _ _ eq => exact eq ▸ posLe_of_eq (releaseOnAbort_i _) (releaseOnAbort_j _) (releaseOnAbort_k _)
  | releases dt n phase _ nfrm eq =>
    exact eq ▸ afterRelease_posLe (s := { s.consume.emit .rel dt with busOwned := false }) nfrm (hinv.nord_le (by simp [phase]))
  | settles dt d phase _ _ _ eq => exact eq ▸ nextStage_posLe (s := s.consume.emit _ dt) (hinv.nord_le (by simp [phase]))
  | settleFails dt d _ _ _ eq => exact eq ▸ posLe_of_eq rfl rfl rfl
  | fsettles dt d phase _ _ _ eq =>
    exact posLe_of_family (hinv.progress_of_fsettling phase).2.1 (hinv.nord_le (by simp [phase])) (by rw [eq]; rfl)
  | fsettleFails dt d _ _ _ eq => exact eq ▸ posLe_of_eq rfl rfl rfl

/-! ### Transfers (R144, R159, R162) -/

/-- The moves of FRAMING. -/
theorem Moves.of_framing (h : Moves s t) (hphase : s.phase = .framing) :
    (s.arrival.resp = none ∧ t = s.consume) ∨
    (∃ dt, s.arrival.resp = some (.ok dt) ∧ t = afterFrame (s.consume.emit (.xfer s.famLine s.frame .ok) dt)) ∨
    (∃ dt, s.arrival.resp = some (.fail dt) ∧
      t = raiseFatal .transportFailure (releaseOnAbort (s.consume.emit (.xfer s.famLine s.frame .fail) dt))) := by
  cases h with
  | waits phase _ eq => exact .inl ⟨phase (by simp [hphase]) (by simp [hphase]) (by simp [hphase]), eq⟩
  | sends dt _ resp eq => exact .inr (.inl ⟨dt, resp, eq⟩)
  | aborts dt _ resp eq => exact .inr (.inr ⟨dt, resp, eq⟩)
  | _ => simp_all -- the other moves start in another phase

/-- What FRAMING adds is recorded no earlier than the step began. -/
theorem Moves.time_le_of_framing (h : Moves s t) (hphase : s.phase = .framing) {e : TraceEntry}
    (he : e ∈ t.trace.drop s.trace.length) : s.now ≤ e.time := by
  rcases h.of_framing hphase with ⟨-, rfl⟩ | ⟨dt, -, rfl⟩ | ⟨dt, -, rfl⟩
  · simp at he
  · rw [afterFrame_trace, emit_trace, consume_trace, List.drop_left, List.mem_singleton] at he
    rw [he]
    exact Nat.le_add_right _ _
  · rw [raiseFatal_trace, releaseOnAbort_trace, emit_trace, consume_trace, List.append_assoc, List.drop_left] at he
    have htime : e.time = s.now + dt := by
      split at he
      · rcases List.mem_pair.1 he with rfl | rfl <;> rfl
      · rw [List.mem_singleton.1 he]
        rfl
    omega

/-- A step that adds a transfer is a move of FRAMING, and the transfer is recorded no earlier than the step began. -/
theorem xfer_time_of_step {e : TraceEntry} (hstep : step s = .next t) (he : e ∈ t.trace.drop s.trace.length)
    (hxfer : e.event.isXfer = true) : s.phase = .framing ∧ s.now ≤ e.time := by
  have hnew : e.event ∈ t.events.drop s.events.length := by
    rw [State.events, State.events, List.length_map, ← List.map_drop]
    exact List.mem_map_of_mem he
  cases hev : e.event with
  | xfer line bytes r =>
    obtain ⟨hphase, hmove⟩ := framing_of_step_adds_xfer hstep (hev ▸ hnew)
    exact ⟨hphase, hmove.time_le_of_framing hphase he⟩
  | _ => simp [hev, Event.isXfer] at hxfer

/-! ### After a failure (R235, R236) -/

/-- Without a reset FATAL only uses up arrivals, for any number of steps. -/
theorem run_of_fatal (n : Nat) (hphase : s.phase = .fatal) (hno : ∀ a ∈ s.arrivals.take n, a.reset = false) :
    Host.Core.run Sys2Proof.core n s = .next { s with arrivals := s.arrivals.drop n } := by
  induction n generalizing s with
  | zero => rfl
  | succ n ih =>
    have hreset : s.arrival.reset = false := by
      cases harr : s.arrivals with
      | nil => rw [State.arrival, harr]; rfl
      | cons a rest =>
        rw [State.arrival, harr]
        exact hno a (by simp [harr])
    refine (run_of_next (step_of_fatal hreset hphase)).trans ((ih (s := s.consume) hphase fun a ha => hno a ?_).trans ?_)
    · rw [consume_arrivals] at ha
      cases harr : s.arrivals with
      | nil => simp [harr] at ha
      | cons b rest =>
        rw [harr] at ha
        exact List.mem_cons_of_mem _ ha
    · rw [consume_arrivals, List.drop_tail]
      rfl

theorem failure_of_fatal (hphase : s.phase = .fatal) (h : s.traceOk) :
    ∃ (es : List Event) (op : Operation), s.cause = op.failureCause ∧ s.cause ≠ .noCause ∧ s.events = es ++ op.failure s.cfg := by
  rw [State.traceOk, if_pos hphase] at h
  obtain ⟨p, op, -, -, hcause, hno, hev⟩ := h
  exact ⟨_, op, hcause, hno, hev⟩

/-- One event records a failure, but for a transfer's with RELEASE_ON_ABORT. -/
theorem failure_single {op : Operation} {cfg : Config} (hcause : op.failureCause ≠ .noCause)
    (hkeep : cfg.releaseOnAbort = false ∨ op.failureCause ≠ .transportFailure) :
    ∃ e, e.failed = true ∧ op.failure cfg = [e] := by
  cases op with
  | sel code => exact ⟨_, rfl, rfl⟩
  | slp d => exact ⟨_, rfl, rfl⟩
  | xfer line bytes =>
    have hoff : cfg.releaseOnAbort = false := hkeep.resolve_right (fun h => h rfl)
    exact ⟨.xfer line bytes .fail, rfl, by simp [Operation.failure, hoff]⟩
  | _ => exact absurd rfl hcause

theorem failure_released {op : Operation} {cfg : Config} (hcause : op.failureCause = .transportFailure)
    (hrel : cfg.releaseOnAbort = true) : ∃ line bytes, op.failure cfg = [.xfer line bytes .fail, .rel] := by
  cases op with
  | xfer line bytes => exact ⟨line, bytes, by simp [Operation.failure, hrel]⟩
  | _ => simp [Operation.failureCause] at hcause

/-! ### Runs keep the parameters (R32) -/

theorem step_parameters (h : step s = .next t) : t.toParameters = s.toParameters ∧ t.arrivals = s.arrivals.tail := by
  unfold step at h
  split at h
  · obtain rfl : _ = t := by simpa using h
    exact ⟨rfl, rfl⟩
  · simp at h
  · simp at h

theorem run_parameters {n : Nat} (h : Host.Core.run Sys2Proof.core n s = .next t) :
    t.toParameters = s.toParameters ∧ t.arrivals = s.arrivals.drop n := by
  induction n generalizing s with
  | zero =>
    obtain rfl : s = t := Host.Outcome.next.inj h
    exact ⟨rfl, rfl⟩
  | succ n ih =>
    cases hstep : step s with
    | next u =>
      rw [run_of_next hstep] at h
      obtain ⟨hparam, harr⟩ := step_parameters hstep
      obtain ⟨hparam', harr'⟩ := ih h
      exact ⟨hparam'.trans hparam, by rw [harr', harr, List.drop_tail]⟩
    | fault f =>
      have hcore : Sys2Proof.core.step s = .fault f := hstep
      simp [Host.Core.run, hcore] at h
    | refused x =>
      have hcore : Sys2Proof.core.step s = .refused x := hstep
      simp [Host.Core.run, hcore] at h

theorem step_of_coreStep {c : CoreState} (h : coreStep s.toParameters s.arrival s.toCoreState = .next c) :
    step s = .next { toCoreState := c, toParameters := s.toParameters, arrivals := s.arrivals.tail } := by
  rw [step, h]

theorem coreStep_of_step (h : step s = .next t) : coreStep s.toParameters s.arrival s.toCoreState = .next t.toCoreState := by
  unfold step at h
  split at h
  · next c hcore =>
    obtain rfl : _ = t := by simpa using h
    exact hcore
  · simp at h
  · simp at h

end Sys2Proof.Machine
end

section
/-! The obligations of 60_exceptions.md and of 70_reset_and_hazards.md, and those on one step's event, time and position. -/

namespace Sys2Proof

open Machine

/-- Settles O38: the move of a phase that hears a response records the phase's operation. -/
theorem eventOfAStepIsTheOutstandingOperation : Obligations.EventOfAStepIsTheOutstandingOperation := by
  unfold Obligations.EventOfAStepIsTheOutstandingOperation
  intro s t r hreset hrun hresp hstep
  exact (step_moves hreset hstep).records hrun hresp

/-- Settles O39: every move but a wait hears a response or `start`. -/
theorem nothingHappensWhileNothingArrives : Obligations.NothingHappensWhileNothingArrives := by
  unfold Obligations.NothingHappensWhileNothingArrives
  intro s t hreset hstart hresp hstep
  exact (step_moves hreset hstep).eq_consume_of_silent hresp fun _ => hstart

/-- Settles O40, the run by induction on its length; the last events are those of the failure in the demanded trace. -/
theorem fatalIsAStop : Obligations.FatalIsAStop := by
  unfold Obligations.FatalIsAStop
  refine ⟨fun s n hphase hno => run_of_fatal n hphase hno, fun s hphase => ?_, fun s hphase htrace => ?_⟩
  · exact ⟨by rw [State.outstanding, hphase], decide_eq_true hphase, decide_eq_false (by simp [hphase])⟩
  · obtain ⟨es, op, hcause, hno, hev⟩ := failure_of_fatal hphase htrace
    by_cases hrel : s.cfg.releaseOnAbort = true ∧ op.failureCause = .transportFailure
    · obtain ⟨line, bytes, hfail⟩ := failure_released hrel.2 hrel.1
      exact ⟨es, .xfer line bytes .fail, rfl, .inr ⟨hrel.1, hfail ▸ hev⟩⟩
    · have hkeep : s.cfg.releaseOnAbort = false ∨ op.failureCause ≠ .transportFailure := by
        cases hoff : s.cfg.releaseOnAbort
        · exact .inl rfl
        · exact .inr fun h => hrel ⟨hoff, h⟩
      obtain ⟨e, hfailed, hfail⟩ := failure_single (hcause ▸ hno) hkeep
      exact ⟨es, e, hfailed, .inl (hfail ▸ hev)⟩

/-- Settles O41: the move of FRAMING on `fail`, and then FATAL. -/
theorem nothingFollowsAFailedTransfer : Obligations.NothingFollowsAFailedTransfer := by
  unfold Obligations.NothingFollowsAFailedTransfer
  intro s t dt n hphase hreset hresp hkeep hstep hno
  rcases (step_moves hreset hstep).of_framing hphase with ⟨hnone, -⟩ | ⟨dt', hok, -⟩ | ⟨dt', -, rfl⟩
  · simp [hnone] at hresp
  · simp [hok] at hresp
  · refine ⟨run_of_fatal n rfl hno, rfl, by rw [raiseFatal_cause]; rfl, by simp [State.done], s.famLine, s.frame, ?_⟩
    rw [events_congr (raiseFatal_trace _ _), releaseOnAbort_of_false (s := s.consume.emit _ _) hkeep, events_emit]
    rfl

/-- Settles O46: every move leaves the position, counts on one index, or starts the indices after it again. -/
theorem positionOnlyMovesForward : Obligations.PositionOnlyMovesForward := by
  unfold Obligations.PositionOnlyMovesForward
  intro s t hinv hreset hstep
  exact (step_moves hreset hstep).posLe hinv

/-- Settles O55: the delay is served when FRAMING begins, and the transfer is recorded after that. -/
theorem transferComesAfterItsDelay : Obligations.TransferComesAfterItsDelay := by
  unfold Obligations.TransferComesAfterItsDelay
  intro s t e t1 hinv hdelays hstep hk he hxfer hlast
  obtain ⟨hphase, htime⟩ := xfer_time_of_step hstep he hxfer
  exact (hdelays.stage (by rw [hphase]; rfl) hk t1 hlast).trans htime

/-- Settles O57: `step` is `coreStep` on the bundle; the runs by induction on their length. -/
theorem stepTakesParametersAndInputAsArguments : Obligations.StepTakesParametersAndInputAsArguments := by
  unfold Obligations.StepTakesParametersAndInputAsArguments
  exact ⟨fun s c h => step_of_coreStep h, fun s t h => coreStep_of_step h, fun n s t h => run_parameters h⟩

/-- Settles O58: the cause says which operation failed, and its failure ends the demanded trace. -/
theorem failingEventIsTheLastOfTheTrace : Obligations.FailingEventIsTheLastOfTheTrace := by
  unfold Obligations.FailingEventIsTheLastOfTheTrace
  intro s hphase htrace
  obtain ⟨es, op, hcause, hno, hev⟩ := failure_of_fatal hphase htrace
  constructor
  · intro hkeep
    obtain ⟨e, hfailed, hfail⟩ := failure_single (hcause ▸ hno) (hcause ▸ hkeep)
    exact ⟨es, e, hfailed, hfail ▸ hev⟩
  · intro hrel htransport
    obtain ⟨line, bytes, hfail⟩ := failure_released (hcause ▸ htransport) hrel
    exact ⟨es, line, bytes, hfail ▸ hev⟩

end Sys2Proof
end

section
/-! The demanded trace as a beginning of the program's events (41_sequencer.md R152, R153, R157): wherever an operation is
outstanding, the program goes on with one more event. -/

namespace Sys2Proof.Machine

variable {mode : AcqMode} {rd : Nat → Word} {i j k : Nat} {s : State}

/-- A list that grows with a counter begins its later values. -/
theorem prefix_of_le {f : Nat → List Event} (hsucc : ∀ n, f n <+: f (n + 1)) {m n : Nat} (h : m ≤ n) : f m <+: f n := by
  induction h with
  | refl => exact List.prefix_rfl
  | step _ ih => exact ih.trans (hsucc _)

theorem familiesPart_prefix {m n : Nat} (h : m ≤ n) : familiesPart mode rd m <+: familiesPart mode rd n :=
  prefix_of_le (fun x => by rw [familiesPart_succ, List.append_assoc]; exact List.prefix_append _ _) h

theorem familyPart_prefix {m n : Nat} (h : m ≤ n) : familyPart mode rd i m <+: familyPart mode rd i n :=
  prefix_of_le (fun x => by rw [familyPart_succ, List.append_assoc]; exact List.prefix_append _ _) h

theorem xferEvents_prefix {m n : Nat} (h : m ≤ n) : xferEvents rd i j m <+: xferEvents rd i j n :=
  prefix_of_le (fun x => by rw [xferEvents_succ]; exact List.prefix_append _ _) h

theorem frameCycles_prefix {m n : Nat} (h : m ≤ n) :
    (List.range m).flatMap (fun x => frameCycle rd i j x) <+: (List.range n).flatMap (fun x => frameCycle rd i j x) :=
  prefix_of_le (f := fun n => (List.range n).flatMap fun x => frameCycle rd i j x)
    (fun x => by simp only [frameCycles_succ]; exact List.prefix_append _ _) h

/-! ### Families -/

/-- A family of the order ends within the program. -/
theorem family_prefix (hi : i < storeNord rd) :
    familiesPart mode rd i ++ familyEvents mode rd i <+: programEvents mode rd := by
  obtain ⟨n, hn⟩ : ∃ n, storeNord rd = n + 1 := ⟨storeNord rd - 1, by omega⟩
  rw [programEvents_last hn]
  rcases Nat.lt_or_ge i n with hlt | hge
  · have hnext : familiesPart mode rd i ++ familyEvents mode rd i <+: familiesPart mode rd (i + 1) := by
      rw [familiesPart_succ]
      exact List.prefix_append _ _
    exact (hnext.trans (familiesPart_prefix hlt)).trans (List.prefix_append _ _)
  · rw [show i = n by omega]

/-- Between two families the delay is in the program too (R148). -/
theorem families_prefix (hi : i < storeNord rd) : familiesPart mode rd i <+: programEvents mode rd :=
  (List.prefix_append _ _).trans (family_prefix hi)

/-- What a family has begun with is in the program. -/
theorem familyPart_prefix_program (hi : i < storeNord rd) (hj : j ≤ storeNstg rd i) :
    familiesPart mode rd i ++ familyPart mode rd i j <+: programEvents mode rd :=
  ((List.prefix_append_right_inj _).2 (familyPart_prefix hj)).trans (family_prefix hi)

/-- What a stage of the family has begun with is in the program. -/
theorem stage_prefix_program {es : List Event} (hi : i < storeNord rd) (hj : j < storeNstg rd i)
    (h : es <+: stageBody mode rd i j ++ slpEvents (storeDelay rd i j)) :
    familiesPart mode rd i ++ familyPart mode rd i j ++ es <+: programEvents mode rd := by
  refine List.IsPrefix.trans ?_ (familyPart_prefix_program (j := j + 1) hi hj)
  rw [familyPart_succ, List.append_assoc, List.append_assoc]
  exact (List.prefix_append_right_inj _).2 ((List.prefix_append_right_inj _).2 h)

/-! ### Stages -/

/-- Up to its current frame's transfer a stage's part is in its body. -/
theorem releasing_prefix (hk : k < storeNfrm rd i j) : stagePart mode rd .releasing i j k <+: stageBody mode rd i j := by
  cases mode with
  | perStage =>
    have hx : xferEvents rd i j (k + 1) <+: xferEvents rd i j (storeNfrm rd i j) := xferEvents_prefix hk
    exact ((List.prefix_append_right_inj _).2 hx).trans (List.prefix_append _ _)
  | perFrame =>
    have hcycle : stagePart .perFrame rd .releasing i j k <+: stagePart .perFrame rd .acquiring i j (k + 1) := by
      rw [stagePart_acquiring_succ]
      exact List.prefix_append _ _
    refine hcycle.trans ?_
    simpa [stagePart, stageBody] using frameCycles_prefix (i := i) (j := j) hk

/-- In each phase of a stage that has a bus operation outstanding, its event goes on within the stage's body. -/
theorem stagePart_concat_prefix {p : Phase} (hk : k < storeNfrm rd i j)
    (hp : (p = .acquiring ∨ p = .configuring) ∧ (mode = .perStage → k = 0) ∨ p = .framing ∨
      p = .releasing ∧ (mode = .perStage → k + 1 = storeNfrm rd i j)) :
    ∃ e, stagePart mode rd p i j k ++ [e] <+: stageBody mode rd i j := by
  have hrel := releasing_prefix (mode := mode) (rd := rd) (i := i) (j := j) hk
  have hfrm : stagePart mode rd .framing i j k <+: stageBody mode rd i j := by
    rw [stagePart_releasing] at hrel
    exact (List.prefix_append _ _).trans hrel
  rcases hp with ⟨rfl | rfl, hfirst⟩ | rfl | ⟨rfl, hlast⟩
  · rw [stagePart_framing hfirst, stagePart_configuring] at hfrm
    exact ⟨.acq, (List.prefix_append _ _).trans hfrm⟩
  · rw [stagePart_framing hfirst] at hfrm
    exact ⟨_, hfrm⟩
  · rw [stagePart_releasing] at hrel
    exact ⟨_, hrel⟩
  · refine ⟨.rel, ?_⟩
    cases mode with
    | perStage => rw [stageBody_eq (hlast rfl)]
    | perFrame =>
      rw [← stagePart_acquiring_succ]
      simpa [stagePart, stageBody] using frameCycles_prefix (i := i) (j := j) hk

/-! ### States -/

/-- The phases of a stage with a bus operation outstanding, with what the invariant says of the frame index there. -/
theorem State.Inv.concat_prefix_of_stage (hinv : s.Inv) (h : s.traceOk)
    (hp : s.phase = .acquiring ∨ s.phase = .configuring ∨ s.phase = .framing ∨ s.phase = .releasing) :
    ∃ e, s.events ++ [e] <+: programEvents s.cfg.acqMode s.word := by
  have hstage : s.phase.inStage = true := by rcases hp with hp | hp | hp | hp <;> rw [hp] <;> rfl
  have hrun : s.phase.running = true := by rcases hp with hp | hp | hp | hp <;> rw [hp] <;> rfl
  obtain ⟨hi, hj, hk⟩ := hinv.position hrun
  have hzero (hk : s.cfg.acqMode = .perStage → s.k = 0) (hmode : s.cfg.acqMode = .perStage) : s.k.toNat = 0 := by
    rw [hk hmode]; rfl
  have hpart : (s.phase = .acquiring ∨ s.phase = .configuring) ∧ (s.cfg.acqMode = .perStage → s.k.toNat = 0) ∨
      s.phase = .framing ∨ s.phase = .releasing ∧ (s.cfg.acqMode = .perStage → s.k.toNat + 1 = s.nfrm) := by
    rcases hp with hp | hp | hp | hp
    · exact .inl ⟨.inl hp, hzero (hinv.progress_of_acquiring hp)⟩
    · exact .inl ⟨.inr hp, hzero (hinv.progress_of_configuring hp)⟩
    · exact .inr (.inl hp)
    · exact .inr (.inr ⟨hp, hinv.progress_of_releasing hp⟩)
  obtain ⟨e, he⟩ := stagePart_concat_prefix (mode := s.cfg.acqMode) hk hpart
  refine ⟨e, ?_⟩
  rw [(traceOk_iff_of_inStage hstage).1 h, List.append_assoc]
  exact stage_prefix_program hi hj (he.trans (List.prefix_append _ _))

/-- Wherever an operation is outstanding, the program demands one more event. -/
theorem State.Inv.concat_prefix (hinv : s.Inv) (h : s.traceOk) (hrun : s.phase.running = true) :
    ∃ e, s.events ++ [e] <+: programEvents s.cfg.acqMode s.word := by
  obtain ⟨hi, hj, -⟩ := hinv.position hrun
  have hev := (traceOk_iff (ne_of_running hrun rfl)).1 h
  cases hp : s.phase <;> rw [hp] at hev hrun
  case selecting =>
    refine ⟨selEvent s.word s.i.toNat, ?_⟩
    rw [hev]
    exact familyPart_prefix_program (j := 0) hi (Nat.zero_le _)
  case acquiring => exact hinv.concat_prefix_of_stage h (by simp [hp])
  case configuring => exact hinv.concat_prefix_of_stage h (by simp [hp])
  case framing => exact hinv.concat_prefix_of_stage h (by simp [hp])
  case releasing => exact hinv.concat_prefix_of_stage h (by simp [hp])
  case settling =>
    obtain ⟨ms, hms⟩ := Option.isSome_iff_exists.1 (hinv.progress_of_settling hp).1
    have hdelay : storeDelay s.word s.i.toNat s.j.toNat = some ms := hms
    refine ⟨.slp ms .elapsed, ?_⟩
    rw [hev, eventsAt_of_inStage rfl, stagePart_settling, List.append_assoc]
    exact stage_prefix_program hi hj (by rw [hdelay, slpEvents_some])
  case fsettling =>
    obtain ⟨hsome, hnext, -⟩ := hinv.progress_of_fsettling hp
    obtain ⟨ms, hms⟩ := Option.isSome_iff_exists.1 hsome
    have hifd : storeIfd s.word = some ms := hms
    have hprefix := families_prefix (mode := s.cfg.acqMode) (show s.i.toNat + 1 < storeNord s.word from hnext)
    rw [familiesPart_succ, hifd] at hprefix
    refine ⟨.slp ms .elapsed, ?_⟩
    rw [hev]
    exact hprefix
  all_goals exact absurd hrun (by decide)

theorem State.Inv.prefix_of_traceOk (hinv : s.Inv) (h : s.traceOk) (hlive : s.phase ≠ .fatal) :
    s.events <+: programEvents s.cfg.acqMode s.word := by
  cases hrun : s.phase.running with
  | true =>
    obtain ⟨e, he⟩ := hinv.concat_prefix h hrun
    exact (List.prefix_append _ _).trans he
  | false =>
    have hev := (traceOk_iff hlive).1 h
    cases hp : s.phase <;> rw [hp] at hev hrun
    case idle =>
      rw [hev]
      exact List.nil_prefix
    case done =>
      rw [hev]
      exact List.prefix_rfl
    case fatal => exact absurd hp hlive
    all_goals exact absurd hrun (by decide)

end Sys2Proof.Machine
end

section
/-! The numbers of events of a program (41_sequencer.md R163), each as a sum over the families and stages. -/

namespace Sys2Proof.Machine

variable {mode : AcqMode} {rd : Nat → Word} {p : Event → Bool}

/-- The events of a program that satisfy `p`, by family and stage. -/
theorem countP_programEvents : (programEvents mode rd).countP p =
    ((List.range (storeNord rd)).map fun i =>
      [selEvent rd i].countP p +
        ((List.range (storeNstg rd i)).map fun j =>
          (stageBody mode rd i j).countP p + (slpEvents (storeDelay rd i j)).countP p).sum +
        (if i + 1 < storeNord rd then slpEvents (storeIfd rd) else []).countP p).sum := by
  rw [programEvents, List.countP_flatMap]
  congr 1
  refine List.map_congr_left fun i _ => ?_
  rw [Function.comp_apply, List.countP_append, familyEvents, familyPart, ← List.singleton_append, List.countP_append,
    List.countP_flatMap]
  simp only [Function.comp_def, stageEvents, List.countP_append]

/-- Where `p` holds of events of a stage's body only. -/
theorem countP_programEvents_of_body {b : Nat → Nat → Nat} (hsel : ∀ i, p (selEvent rd i) = false)
    (hslp : ∀ d, (slpEvents d).countP p = 0) (hbody : ∀ i j, (stageBody mode rd i j).countP p = b i j) :
    (programEvents mode rd).countP p =
      ((List.range (storeNord rd)).map fun i => ((List.range (storeNstg rd i)).map fun j => b i j).sum).sum := by
  rw [countP_programEvents]
  congr 1
  refine List.map_congr_left fun i _ => ?_
  have hlast : (if i + 1 < storeNord rd then slpEvents (storeIfd rd) else []).countP p = 0 := by
    split
    · exact hslp _
    · rfl
  simp [hsel, hslp, hbody, hlast]

/-- Where `p` holds of no event of a stage's body. -/
theorem countP_stageBody_eq_zero {i j : Nat} (hacq : p .acq = false) (hcfg : ∀ c, p (.cfg c) = false)
    (hxfer : ∀ l f r, p (.xfer l f r) = false) (hrel : p .rel = false) : (stageBody mode rd i j).countP p = 0 := by
  cases mode <;>
    simp [stageBody, frameCycle, cfgEvent, xferEvent, xferEvents, List.countP_flatMap, List.countP_map, Function.comp_def,
      hacq, hcfg, hxfer, hrel]

/-! ### The operations of a stage's body -/

/-- A stage takes, configures and releases the bus once, in PerFrame mode once for each frame (R151). -/
def bodyCount (mode : AcqMode) (n : Nat) : Nat :=
  match mode with
  | .perStage => 1
  | .perFrame => n

theorem countP_stageBody_bus {i j : Nat} (hp : p = Event.isAcq ∨ p = Event.isCfg ∨ p = Event.isRel) :
    (stageBody mode rd i j).countP p = bodyCount mode (storeNfrm rd i j) := by
  cases mode with
  | perStage =>
    have hxfer : (xferEvents rd i j (storeNfrm rd i j)).countP p = 0 := by
      rw [xferEvents, List.countP_map]
      rcases hp with rfl | rfl | rfl <;> exact List.countP_eq_zero.2 fun _ _ => Bool.false_ne_true
    rw [stageBody, List.countP_append, List.countP_append, hxfer]
    rcases hp with rfl | rfl | rfl <;> rfl
  | perFrame =>
    have hcycle (k : Nat) : (frameCycle rd i j k).countP p = 1 := by rcases hp with rfl | rfl | rfl <;> rfl
    simp [stageBody, bodyCount, List.countP_flatMap, Function.comp_def, hcycle]

theorem countP_stageBody_isXfer {i j : Nat} : (stageBody mode rd i j).countP Event.isXfer = storeNfrm rd i j := by
  cases mode with
  | perStage =>
    simp [stageBody, cfgEvent, xferEvents, xferEvent, List.countP_map, Function.comp_def, Event.isXfer]
  | perFrame =>
    have hcycle (k : Nat) : (frameCycle rd i j k).countP Event.isXfer = 1 := rfl
    simp [stageBody, List.countP_flatMap, Function.comp_def, hcycle]

theorem frameCount_eq_sum : frameCount rd =
    ((List.range (storeNord rd)).map fun i => ((List.range (storeNstg rd i)).map fun j => storeNfrm rd i j).sum).sum := by
  simp [frameCount, tableFrames, List.length_flatMap]

/-! ### The counts of a program -/

theorem countP_isSel : (programEvents mode rd).countP Event.isSel = storeNord rd := by
  have hslp (d : Option Millis) : (slpEvents d).countP Event.isSel = 0 := by cases d <;> rfl
  have hbody (i j : Nat) : (stageBody mode rd i j).countP Event.isSel = 0 :=
    countP_stageBody_eq_zero rfl (fun _ => rfl) (fun _ _ _ => rfl) rfl
  have hlast (i : Nat) : (if i + 1 < storeNord rd then slpEvents (storeIfd rd) else []).countP Event.isSel = 0 := by
    split
    · exact hslp _
    · rfl
  have hsel (i : Nat) : [selEvent rd i].countP Event.isSel = 1 := rfl
  simp [countP_programEvents, hslp, hbody, hlast, hsel]

theorem countP_isXfer : (programEvents mode rd).countP Event.isXfer = frameCount rd := by
  rw [frameCount_eq_sum]
  exact countP_programEvents_of_body (fun _ => rfl) (fun d => by cases d <;> rfl) fun _ _ => countP_stageBody_isXfer

theorem countP_bus (hp : p = Event.isAcq ∨ p = Event.isCfg ∨ p = Event.isRel) : (programEvents mode rd).countP p =
    match mode with
    | .perStage => stageCount rd
    | .perFrame => frameCount rd := by
  have hsel (i : Nat) : p (selEvent rd i) = false := by rcases hp with rfl | rfl | rfl <;> rfl
  have hslp (d : Option Millis) : (slpEvents d).countP p = 0 := by rcases hp with rfl | rfl | rfl <;> cases d <;> rfl
  rw [countP_programEvents_of_body hsel hslp fun _ _ => countP_stageBody_bus hp]
  cases mode with
  | perStage => simp [bodyCount, stageCount]
  | perFrame => exact frameCount_eq_sum.symm

/-- Every term but the last of `n`. -/
theorem sum_but_last (n c : Nat) : ((List.range n).map fun i => if i + 1 < n then c else 0).sum = (n - 1) * c := by
  cases n with
  | zero => simp
  | succ m =>
    have hsame : ((List.range m).map fun i => if i + 1 < m + 1 then c else 0) = (List.range m).map fun _ => c :=
      List.map_congr_left fun i hi => if_pos (Nat.succ_lt_succ (List.mem_range.1 hi))
    rw [List.range_succ, List.map_append, List.sum_append, hsame]
    simp

theorem length_filter_range (q : Nat → Bool) (n : Nat) :
    ((List.range n).filter q).length = ((List.range n).map fun j => if q j then 1 else 0).sum := by
  induction n with
  | zero => rfl
  | succ n ih =>
    rw [List.range_succ, List.filter_append, List.length_append, ih, List.map_append, List.sum_append]
    cases hq : q n <;> simp [hq]

theorem countP_isSlp : (programEvents mode rd).countP Event.isSlp =
    delayCount rd + (if (storeIfd rd).isSome then storeNord rd - 1 else 0) := by
  have hslp (d : Option Millis) : (slpEvents d).countP Event.isSlp = if d.isSome then 1 else 0 := by cases d <;> rfl
  have hbody (i j : Nat) : (stageBody mode rd i j).countP Event.isSlp = 0 :=
    countP_stageBody_eq_zero rfl (fun _ => rfl) (fun _ _ _ => rfl) rfl
  have hlast (i : Nat) : (if i + 1 < storeNord rd then slpEvents (storeIfd rd) else []).countP Event.isSlp =
      if i + 1 < storeNord rd then (if (storeIfd rd).isSome then 1 else 0) else 0 := by
    split
    · exact hslp _
    · rfl
  have hsel (i : Nat) : [selEvent rd i].countP Event.isSlp = 0 := rfl
  rw [countP_programEvents]
  simp only [hslp, hbody, hlast, hsel, Nat.zero_add, ← length_filter_range]
  rw [List.sum_map_add, sum_but_last, delayCount]
  split <;> simp

end Sys2Proof.Machine
end

section
/-! The obligations of 41_sequencer.md on the events of a run. -/

namespace Sys2Proof

open Machine

/-- Settles O48: wherever an operation is outstanding, the program's events begin with the trace and one more event. -/
theorem traceIsAPrefixOfTheProgram : Obligations.TraceIsAPrefixOfTheProgram := by
  unfold Obligations.TraceIsAPrefixOfTheProgram
  intro s hinv htrace hlive
  refine ⟨hinv.prefix_of_traceOk htrace hlive, fun hrun => ?_, fun hdone => events_of_completed htrace hdone⟩
  obtain ⟨e, he⟩ := hinv.concat_prefix htrace hrun
  simpa using he.length_le

/-- Settles O50: in DONE the trace is the loop of R152, counted family by family and stage by stage. -/
theorem completedRunHasTheCountedEvents : Obligations.CompletedRunHasTheCountedEvents := by
  unfold Obligations.CompletedRunHasTheCountedEvents
  intro s htrace hdone
  simp only [countEvents]
  rw [events_of_completed htrace hdone]
  have hacq := countP_bus (mode := s.cfg.acqMode) (rd := s.word) (.inl rfl)
  have hcfg := countP_bus (mode := s.cfg.acqMode) (rd := s.word) (.inr (.inl rfl))
  have hrel := countP_bus (mode := s.cfg.acqMode) (rd := s.word) (.inr (.inr rfl))
  exact ⟨countP_isSel, countP_isXfer, countP_isSlp, hacq, hcfg.trans hacq.symm, hrel.trans hacq.symm⟩

end Sys2Proof
end
